-- ==== Sys2Proof/Word.lean ====
section
/-! DEFINITION. The word types of GFE (rule R8) and the type of a field-register index (rule R22). -/

namespace Sys2Proof

/-- A field register or one FM word: 16 bits (R8, R22, R83). -/
abbrev FWord := BitVec 16

/-- One BM word, the data of a bus transfer, a command word: 32 bits (R8, R81, R84, R110). -/
abbrev BWord := BitVec 32

/-- The number of a field register `F0` … `F15` (R22): a 4-bit field of the command word. -/
abbrev FReg := Fin 16

end Sys2Proof
end

