-- ==== Sys2Proof/Config.lean ====
section
/-! DEFINITION. What is fixed for one GFE instance (the build parameters of rule R7) and the free values
of the model: the draws behind every "any value" of 93_implementation_defined.md. -/

namespace Sys2Proof

/-- The build-time parameters of one GFE instance (R7, D34). The spec leaves them open ("a named parameter
the model takes as an argument"): the state carries them in a field no step writes, so that a statement
about every state holds for every instance. -/
structure BuildParams where
  /-- `FM_DEPTH`: words of field memory -/
  fmDepth  : Nat
  /-- `BM_WORDS`: words of bit memory -/
  bmWords  : Nat
  /-- `RNG_DEPTH`: entries of the random-word FIFO -/
  rngDepth : Nat
  /-- `T_MAX`: largest T a block command accepts -/
  tMax     : Nat
  deriving DecidableEq, Repr

namespace BuildParams

/-- The legal ranges of R7. -/
abbrev Legal (p : BuildParams) : Prop :=
  (1 ≤ p.fmDepth ∧ p.fmDepth ≤ 65536) ∧ (1 ≤ p.bmWords ∧ p.bmWords ≤ 2 ^ 24) ∧
  (1 ≤ p.rngDepth ∧ p.rngDepth ≤ 65535) ∧ (1 ≤ p.tMax ∧ p.tMax ≤ 65535)

/-- The suggested values of R7. -/
def suggested : BuildParams := { fmDepth := 16384, bmWords := 1048576, rngDepth := 256, tMax := 128 }

end BuildParams

/-- The value of the `n`-th draw ("any value", 93_implementation_defined.md U1 to U5). It has no body:
nothing can be proved of it. `State.drawNo` counts the draws made, so no draw is used twice. -/
opaque Config.freeWord : Nat → BWord

end Sys2Proof
end

