-- ==== Sys2Proof/Syntax.lean ====
section
/-! DEFINITION. The commands of GFE-1: one constructor per row of spec/opcode_table.json (rule R115). -/

namespace Sys2Proof

/-- A command with its operand fields (R111 to R114). A register field is a number of the register file.
PEVAL's selector and the flags of SYND, DSYND and CHECK are the whole 4-bit fields of R114, whose
"further constraint" in R115 is what `Instr.wellFormed` checks. -/
inductive Instr where
  /-- R240 -/
  | nop
  /-- R150 -/
  | fadd (rd rs1 rs2 : FReg)
  /-- R151 -/
  | fmul (rd rs1 rs2 : FReg)
  /-- R152 -/
  | fsqr (rd rs1 : FReg)
  /-- R153 -/
  | finv (rd rs1 : FReg)
  /-- R154 -/
  | fpow (rd rs1 rs2 : FReg)
  /-- R155 -/
  | ftr (rd rs1 : FReg)
  /-- R156 -/
  | fmov (rd rs1 : FReg)
  /-- R157 -/
  | fli (rd : FReg) (imm : BitVec 16)
  /-- R158 -/
  | fld (rd : FReg) (addr : BitVec 16)
  /-- R159: the `rd` field names the source register -/
  | fst (rs : FReg) (addr : BitVec 16)
  /-- R160: the `rs2` field selects the polynomial -/
  | peval (rd rs1 : FReg) (sel : BitVec 4)
  /-- R180 -/
  | hbuild
  /-- R182 -/
  | gauss
  /-- R186 -/
  | pkext
  /-- R210: flags[0] = MODE, flags[1] = OUT -/
  | synd (flags : BitVec 4)
  /-- R200 -/
  | sample
  /-- R220: flags[0] = SRC -/
  | dsynd (flags : BitVec 4)
  /-- R221 -/
  | bm
  /-- R222 -/
  | roots
  /-- R223: flags[0] = CMP -/
  | check (flags : BitVec 4)
  deriving DecidableEq, Repr

end Sys2Proof
end

