-- ==== Sys2Proof/WellFormed.lean ====
section
/-! DEFINITION. Which commands are legal: the "further constraint" column of rule R115. -/

namespace Sys2Proof

/-- The constraints of R115 on operand fields: PEVAL's `rs2 ∈ {0, 1}`, SYND's `flags[3:2] = 0`, DSYND's and
CHECK's `flags[3:1] = 0`. Every other field is free. -/
def Instr.wellFormed : Instr → Bool
  | .nop => true
  | .fadd _ _ _ => true
  | .fmul _ _ _ => true
  | .fsqr _ _ => true
  | .finv _ _ => true
  | .fpow _ _ _ => true
  | .ftr _ _ => true
  | .fmov _ _ => true
  | .fli _ _ => true
  | .fld _ _ => true
  | .fst _ _ => true
  | .peval _ _ sel => sel.toNat < 2
  | .hbuild => true
  | .gauss => true
  | .pkext => true
  | .synd flags => flags.toNat < 4
  | .sample => true
  | .dsynd flags => flags.toNat < 2
  | .bm => true
  | .roots => true
  | .check flags => flags.toNat < 2

end Sys2Proof
end

