-- ==== Sys2Proof/Decode.lean ====
section
/-! DEFINITION. The decoder and the encoder of GFE-1 command words (rules R110 to R118). -/

namespace Sys2Proof

/-- Why a word is illegal (R116). -/
inductive DecodeError where
  /-- an opcode in 0x0C–0x0F or 0x19–0xFF -/
  | reservedOpcode
  /-- a defined opcode with a must-be-zero bit set, PEVAL with `rs2 ≥ 2` among them -/
  | mustBeZero
  deriving DecidableEq, Repr

namespace Decode

/-- `opcode = w[7:0]` (R114). -/
def opcode (w : BWord) : BitVec 8 := w.extractLsb' 0 8
/-- `rd = w[11:8]` (R114), also FST's source register. -/
def rd (w : BWord) : FReg := (w.extractLsb' 8 4).toFin
/-- `rs1 = w[15:12]` (R114). -/
def rs1 (w : BWord) : FReg := (w.extractLsb' 12 4).toFin
/-- `rs2 = w[19:16]` (R114). -/
def rs2 (w : BWord) : FReg := (w.extractLsb' 16 4).toFin
/-- PEVAL's selector, the same bits as `rs2` (R114). -/
def sel (w : BWord) : BitVec 4 := w.extractLsb' 16 4
/-- `imm = w[31:16]` (R114). -/
def imm (w : BWord) : BitVec 16 := w.extractLsb' 16 16
/-- `flags = w[11:8]` (R114). -/
def flags (w : BWord) : BitVec 4 := w.extractLsb' 8 4

end Decode

/-- One row of the opcode map (R115): the bits a word must have, and the command it is. -/
structure OpcodeRow where
  mnemonic : String
  mask     : BWord
  value    : BWord
  build    : BWord → Instr

namespace OpcodeRow

/-- "matches exactly one row": the word has the row's value in the bits of the row's mask (R115). -/
def matchesWord (r : OpcodeRow) (w : BWord) : Bool := w &&& r.mask == r.value

end OpcodeRow

open Decode in
/-- The opcode map of R115, row by row. -/
def opcodeRows : List OpcodeRow := [
  ⟨"NOP",    0xFFFFFFFF, 0x00000000, fun _ => .nop⟩,
  ⟨"FADD",   0xFFF000FF, 0x00000001, fun w => .fadd (rd w) (rs1 w) (rs2 w)⟩,
  ⟨"FMUL",   0xFFF000FF, 0x00000002, fun w => .fmul (rd w) (rs1 w) (rs2 w)⟩,
  ⟨"FSQR",   0xFFFF00FF, 0x00000003, fun w => .fsqr (rd w) (rs1 w)⟩,
  ⟨"FINV",   0xFFFF00FF, 0x00000004, fun w => .finv (rd w) (rs1 w)⟩,
  ⟨"FPOW",   0xFFF000FF, 0x00000005, fun w => .fpow (rd w) (rs1 w) (rs2 w)⟩,
  ⟨"FTR",    0xFFFF00FF, 0x00000006, fun w => .ftr (rd w) (rs1 w)⟩,
  ⟨"FMOV",   0xFFFF00FF, 0x00000007, fun w => .fmov (rd w) (rs1 w)⟩,
  ⟨"FLI",    0x0000F0FF, 0x00000008, fun w => .fli (rd w) (imm w)⟩,
  ⟨"FLD",    0x0000F0FF, 0x00000009, fun w => .fld (rd w) (imm w)⟩,
  ⟨"FST",    0x0000F0FF, 0x0000000A, fun w => .fst (rd w) (imm w)⟩] ++ [
  ⟨"PEVAL",  0xFFFE00FF, 0x0000000B, fun w => .peval (rd w) (rs1 w) (sel w)⟩,
  ⟨"HBUILD", 0xFFFFFFFF, 0x00000010, fun _ => .hbuild⟩,
  ⟨"GAUSS",  0xFFFFFFFF, 0x00000011, fun _ => .gauss⟩,
  ⟨"PKEXT",  0xFFFFFFFF, 0x00000012, fun _ => .pkext⟩,
  ⟨"SYND",   0xFFFFFCFF, 0x00000013, fun w => .synd (flags w)⟩,
  ⟨"SAMPLE", 0xFFFFFFFF, 0x00000014, fun _ => .sample⟩,
  ⟨"DSYND",  0xFFFFFEFF, 0x00000015, fun w => .dsynd (flags w)⟩,
  ⟨"BM",     0xFFFFFFFF, 0x00000016, fun _ => .bm⟩,
  ⟨"ROOTS",  0xFFFFFFFF, 0x00000017, fun _ => .roots⟩,
  ⟨"CHECK",  0xFFFFFEFF, 0x00000018, fun w => .check (flags w)⟩]

/-- The row of an opcode: "Bits [7:0] are the opcode and alone select the format" (R110). -/
def opcodeRow? (op : BitVec 8) : Option OpcodeRow :=
  opcodeRows.find? fun r => Decode.opcode r.value == op

/-- The command a word is, or why it is illegal (R115, R116). Total on every 32-bit word. -/
def decode (w : BWord) : Except DecodeError Instr :=
  match opcodeRow? (Decode.opcode w) with
  | none => .error .reservedOpcode
  | some r => if r.matchesWord w then .ok (r.build w) else .error .mustBeZero

namespace Encode

/-- A register number as a 4-bit field. -/
def reg (r : FReg) : BitVec 4 := BitVec.ofFin r
/-- Format FR (R111): zero 31:20, rs2 19:16, rs1 15:12, rd 11:8, opcode 7:0. -/
def formatFR (op : BitVec 8) (rd rs1 : FReg) (rs2 : BitVec 4) : BWord :=
  0#12 ++ rs2 ++ reg rs1 ++ reg rd ++ op
/-- Format FI (R112): imm16 31:16, zero 15:12, rd 11:8, opcode 7:0. -/
def formatFI (op : BitVec 8) (rd : FReg) (imm : BitVec 16) : BWord :=
  imm ++ 0#4 ++ reg rd ++ op
/-- Format B (R113): zero 31:12, flags 11:8, opcode 7:0. -/
def formatB (op : BitVec 8) (flags : BitVec 4) : BWord :=
  0#20 ++ flags ++ op

end Encode

open Encode in
/-- The word of a command: the formats R111 to R113 with the opcodes of R115. -/
def encode : Instr → BWord
  | .nop => formatB 0x00 0
  | .fadd rd rs1 rs2 => formatFR 0x01 rd rs1 (reg rs2)
  | .fmul rd rs1 rs2 => formatFR 0x02 rd rs1 (reg rs2)
  | .fsqr rd rs1 => formatFR 0x03 rd rs1 0
  | .finv rd rs1 => formatFR 0x04 rd rs1 0
  | .fpow rd rs1 rs2 => formatFR 0x05 rd rs1 (reg rs2)
  | .ftr rd rs1 => formatFR 0x06 rd rs1 0
  | .fmov rd rs1 => formatFR 0x07 rd rs1 0
  | .fli rd imm => formatFI 0x08 rd imm
  | .fld rd addr => formatFI 0x09 rd addr
  | .fst rs addr => formatFI 0x0A rs addr
  | .peval rd rs1 sel => formatFR 0x0B rd rs1 sel
  | .hbuild => formatB 0x10 0
  | .gauss => formatB 0x11 0
  | .pkext => formatB 0x12 0
  | .synd flags => formatB 0x13 flags
  | .sample => formatB 0x14 0
  | .dsynd flags => formatB 0x15 flags
  | .bm => formatB 0x16 0
  | .roots => formatB 0x17 0
  | .check flags => formatB 0x18 flags

/-- A command word whose low `nbits` bits are those of `w` and whose other bits are 0. -/
def tableWord (nbits w : Nat) : BWord := BitVec.ofNat 32 (w % 2 ^ nbits)

/-- The command the decoder reads from a word of spec/opcode_table.json. -/
def decodeTableWord (nbits w : Nat) : Option Instr := (decode (tableWord nbits w)).toOption

end Sys2Proof
end

