-- ==== Sys2Proof/Machine/State.lean ====
section
/-! DEFINITION. The state of GFE (rules R20 to R51, R80 to R91): every register of the window, both
memories, the random-word FIFO, the command in flight, the host's side of the bus, and the model's own
counters. Plain data throughout. -/

namespace Sys2Proof.Machine

/-- A memory of `w`-bit words (FM: 16, BM: 32): the words somebody has written, by rising word address. A word
that is not listed is undefined (R91). -/
abbrev Mem (w : Nat) := List (Nat × BitVec w)

/-- The canonical form of a memory: addresses strictly rising. A listed word is a written one, so no entry can
equal what an unlisted address reads as. -/
abbrev Mem.wf {w : Nat} (m : Mem w) : Prop := (m.map Prod.fst).Pairwise (· < ·)

/-- `STATUS.RESULT` (R253). Value 3 "never produced" has no constructor. -/
inductive CmdResult where
  | ok
  | retry
  | error
  deriving DecidableEq, Repr

/-- `STATUS.ERRCODE` (R254). Codes 4–255 "never produced" have no constructor. -/
inductive ErrCode where
  | none
  /-- ERR_ILLEGAL: the word matches no row of R115 -/
  | illegal
  /-- ERR_CONFIG: the field check, the code check or a region check fails -/
  | config
  /-- ERR_RANGE: FLD's or FST's address is not below FM_DEPTH -/
  | range
  deriving DecidableEq, Repr

/-- The bits of `STATUS` that are stored (R26). BUSY is not among them: it is whether a command is in flight
(`State.busy`). -/
structure Status where
  done         : Bool
  err          : Bool
  rngWait      : Bool
  result       : CmdResult
  errCode      : ErrCode
  cmdOvr       : Bool
  hostConflict : Bool
  rngOvf       : Bool
  deriving DecidableEq, Repr

/-- `STATUS` after either reset: every bit 0 (R51). -/
def Status.reset : Status :=
  { done := false, err := false, rngWait := false, result := .ok, errCode := .none
    cmdOvr := false, hostConflict := false, rngOvf := false }

/-- The registers a soft reset keeps, the rows marked * of R51 but for `CTRL.IRQ_EN`: `CTRL.PIVOT_EN`, the code
parameters, and every base and stride register (R25, R27 to R34). All of them are guarded (R46). -/
structure ConfigRegs where
  /-- `CTRL.PIVOT_EN` (R25) -/
  pivotEn   : Bool
  /-- `PARAM_M` (R27) -/
  paramM    : BitVec 5
  /-- `PARAM_N` (R28) -/
  paramN    : BitVec 17
  /-- `PARAM_T` (R29) -/
  paramT    : BitVec 16
  /-- `FPOLY` (R30) -/
  fpoly     : BitVec 17
  /-- `PIVOT_CFG` (R31): PIV_W in bits 15:0, PIV_MAX in bits 31:16 -/
  pivotCfg  : BWord
  /-- `SAMPLE_MAX` (R32) -/
  sampleMax : BWord
  suppBase  : BitVec 16
  polyBase  : BitVec 16
  locBase   : BitVec 16
  scrBase   : BitVec 16
  permBase  : BitVec 16
  hBase     : BitVec 24
  hStride   : BitVec 16
  pkBase    : BitVec 24
  pkStride  : BitVec 16
  eBase     : BitVec 24
  sBase     : BitVec 24
  s2Base    : BitVec 24
  deriving DecidableEq, Repr

/-- The reset values of R51. -/
def ConfigRegs.reset : ConfigRegs :=
  { pivotEn := false, paramM := 0, paramN := 0, paramT := 0, fpoly := 0
    pivotCfg := 0x00200040, sampleMax := 0x00001000
    suppBase := 0, polyBase := 0, locBase := 0, scrBase := 0, permBase := 0
    hBase := 0, hStride := 0, pkBase := 0, pkStride := 0, eBase := 0, sBase := 0, s2Base := 0 }

/-- The command the engine is executing (R48): its word, and how far a SAMPLE that waits for random words has come
(the accepted indices in acceptance order and the number of words consumed, R200). Every other command
runs in one engine turn and has no progress to hold (R288). -/
structure InFlight where
  word     : BWord
  accepted : List Nat
  consumed : Nat
  deriving DecidableEq, Repr

/-- One transfer of the host on the register bus (R81): byte offset, byte enables, write data. -/
inductive Transfer where
  | read (addr : BitVec 12) (be : BitVec 4)
  | write (addr : BitVec 12) (be : BitVec 4) (data : BWord)
  deriving DecidableEq, Repr

/-- What the host sees when its transfer completes (R81, R82): `bus_rdata` for a read, and `bus_err`. -/
inductive BusResponse where
  | readOk (data : BWord)
  /-- a read with `bus_err = 1`; the data is a draw -/
  | readErr (data : BWord)
  | writeOk
  | writeErr
  deriving DecidableEq, Repr

/-- What happens next at GFE's boundary. The host's program is a list of these (R121); the list also says
when the engine gets its turn between two transfers, which the spec leaves to timing it does not fix
(R263, R288). -/
inductive Event where
  /-- a bus transfer completes (R81) -/
  | bus (t : Transfer)
  /-- the engine runs; a SAMPLE consumes at most this many random words before the next event (`none`: no bound) -/
  | engine (words : Option Nat)
  /-- a rising clock edge with `rst_n = 0` (R281) -/
  | hwReset
  /-- power is removed and applied again, and the hardware reset that must follow is done (R269) -/
  | powerCycle
  deriving DecidableEq, Repr

/-- The whole machine. -/
structure State where
  /-- the instance's build parameters (R7); no step writes them -/
  params   : BuildParams
  /-- `F0` … `F15` (R22) -/
  f        : Vector FWord 16
  /-- the configuration, base and stride registers and `CTRL.PIVOT_EN` -/
  cfg      : ConfigRegs
  /-- `CTRL.IRQ_EN` (R25) -/
  irqEn    : Bool
  /-- `STATUS` without BUSY (R26) -/
  status   : Status
  /-- `CHK` (R35) -/
  chk      : BWord
  /-- `MASK` (R36) -/
  mask     : BWord
  /-- `PERMCNT` (R37) -/
  permCnt  : BitVec 16
  /-- `BM_L` (R38) -/
  bmL      : BitVec 17
  /-- `DRAWS` (R39) -/
  draws    : BWord
  /-- `FM_ADDR` (R40) -/
  fmAddr   : BitVec 16
  /-- `BM_ADDR` (R41) -/
  bmAddr   : BitVec 24
  /-- field memory FM (R83) -/
  fm       : Mem 16
  /-- bit memory BM (R84) -/
  bm       : Mem 32
  /-- the random-word FIFO, head first (R42, R48) -/
  rng      : List FWord
  /-- the command in flight (R48); BUSY is whether there is one -/
  inflight : Option InFlight
  /-- the outputs of the last completed bus transfer since reset (R81) -/
  busResp  : Option BusResponse
  /-- what happens next at the boundary, soonest first (R121) -/
  inputs   : List Event
  /-- the bound of the engine turn being taken (`Event.engine`) -/
  quota    : Option Nat
  /-- how many draws have been made (`Config.freeWord`) -/
  drawNo   : Nat
  deriving DecidableEq, Repr

/-- R260: "GFE has no trap mechanism". Every error of the spec is an ordinary completion (R252), so no step
stops in a fault and this type has no constructor: nobody raises one, which is safe. -/
inductive Fault where
  deriving DecidableEq, Repr

/-- The model's refusals. -/
inductive Refusal where
  /-- an arm of `exec` with no meaning yet would answer it (safe: the run stops); no arm does -/
  | notModelled (mnemonic : String)
  deriving DecidableEq, Repr

/-- The state after the hardware reset that follows power-up (R51, R281), for an instance with the given build
parameters: both memories undefined, nothing in flight, no transfer completed yet, no input pending. -/
def State.resetWith (p : BuildParams) : State :=
  { params := p
    f := Vector.replicate 16 0
    cfg := ConfigRegs.reset
    irqEn := false
    status := Status.reset
    chk := 0, mask := 0, permCnt := 0, bmL := 0, draws := 0
    fmAddr := 0, bmAddr := 0
    fm := [], bm := [], rng := [], inflight := none
    busResp := none, inputs := [], quota := none, drawNo := 0 }

/-- The machine right after reset, at the suggested build parameters of R7. -/
def State.reset : State := State.resetWith BuildParams.suggested

end Sys2Proof.Machine
end

