-- ==== Sys2Proof/Machine/Ops.lean ====
section
/-! DEFINITION. The shared operations: reading and writing the memories and the field registers, bit vectors
in BM (R11), the draws behind undefined words (R91), and how a command ends (R252). -/

namespace Sys2Proof.Machine

/-! ## Memories -/

/-- The word at an address, or `none` where nobody has written one: such a word is undefined (R91). -/
def Mem.read? {w : Nat} : Mem w → Nat → Option (BitVec w)
  | [], _ => none
  | (k, v) :: m, a => if k = a then some v else Mem.read? m a

/-- `MemWrite` (R10). Keeps the canonical form. -/
def Mem.write {w : Nat} : Mem w → Nat → BitVec w → Mem w
  | [], a, v => [(a, v)]
  | (k, x) :: m, a, v =>
    if a < k then (a, v) :: (k, x) :: m
    else if a = k then (a, v) :: m
    else (k, x) :: Mem.write m a v

/-- `len` words from address `a` on, or `none` if one of them is undefined. -/
def Mem.readN? {w : Nat} (m : Mem w) (a : Nat) : Nat → Option (List (BitVec w))
  | 0 => some []
  | len + 1 =>
    match m.read? a, m.readN? (a + 1) len with
    | some v, some vs => some (v :: vs)
    | _, _ => none

/-- Words written from address `a` on. -/
def Mem.writeN {w : Nat} : Mem w → Nat → List (BitVec w) → Mem w
  | m, _, [] => m
  | m, a, v :: vs => Mem.writeN (m.write a v) (a + 1) vs

/-! ## Bit vectors in BM (R11): an `n`-bit vector is an integer below `2^n`, bit `j` its position `j` -/

/-- Words an `n`-bit vector occupies: `ceil(n/32)` (R6, R84). -/
def wordsFor (n : Nat) : Nat := (n + 31) / 32

/-- The vector a run of BM words holds: position `j` is bit `j mod 32` of word `j/32` (R11). -/
def packWords : List BWord → Nat
  | [] => 0
  | w :: ws => w.toNat ||| (packWords ws <<< 32)

/-- The first `count` words of a vector. -/
def vecWords (count v : Nat) : List BWord := (List.range count).map fun k => BitVec.ofNat 32 (v >>> (32 * k))

/-- `vec(b, n)` (R11): bits at positions `≥ n` of the last word are ignored (R87). -/
def Mem.readVec? (m : Mem 32) (b n : Nat) : Option Nat :=
  (m.readN? b (wordsFor n)).map fun ws => packWords ws % 2 ^ n

/-- `putvec(b, n, v)` (R11): "bits at positions >= n in the last word are written 0". -/
def Mem.putVec (m : Mem 32) (b n v : Nat) : Mem 32 := m.writeN b (vecWords (wordsFor n) (v % 2 ^ n))

/-- The rows of a matrix of `n` columns at base `b` with row stride `st` words (R84). -/
def Mem.readRows? (m : Mem 32) (st n : Nat) : Nat → Nat → Option (List Nat)
  | _, 0 => some []
  | b, rows + 1 =>
    match m.readVec? b n, Mem.readRows? m st n (b + st) rows with
    | some v, some vs => some (v :: vs)
    | _, _ => none

/-- `putrow` for every row in turn (R11): each row fills the `st` words of its stride, zero beyond `n` bits (R87). -/
def Mem.putRows (st n : Nat) : Mem 32 → Nat → List Nat → Mem 32
  | m, _, [] => m
  | m, b, v :: vs => Mem.putRows st n (m.writeN b (vecWords st (v % 2 ^ n))) (b + st) vs

/-- A vector from its bits, position 0 first. -/
def packBits : List Bool → Nat
  | [] => 0
  | b :: bs => b.toNat + 2 * packBits bs

/-- The XOR of the first `n` bits of a vector: the value of a GF(2) sum (R210). -/
def parity (n v : Nat) : Bool := (List.range n).foldl (fun acc c => acc ^^ v.testBit c) false

/-- `popcount` over the first `n` positions (R9, R223). -/
def popcount (n v : Nat) : Nat := ((List.range n).filter fun i => v.testBit i).length

/-! ## Registers -/

/-- `F[i]` (R10). -/
def State.getF (s : State) (r : FReg) : FWord := s.f[r]

/-- `F[i] <- v` (R10). -/
def State.setF (s : State) (r : FReg) (v : FWord) : State := { s with f := s.f.set r v }

/-- `STATUS.BUSY` (R26, R48): a command is in flight. -/
def State.busy (s : State) : Bool := s.inflight.isSome

/-! ## Draws ("any value", 93_implementation_defined.md) -/

/-- The value of the next draw. -/
def State.nextDraw (s : State) : BWord := Config.freeWord s.drawNo

/-- That draw has been used. -/
def State.drew (s : State) : State := { s with drawNo := s.drawNo + 1 }

/-- Each listed FM word becomes a draw of its own. -/
def State.drawFm : List Nat → State → State
  | [], s => s
  | a :: as, s => State.drawFm as { s.drew with fm := s.fm.write a (s.nextDraw.setWidth 16) }

/-- Each listed BM word becomes a draw of its own. -/
def State.drawBm : List Nat → State → State
  | [], s => s
  | a :: as, s => State.drawBm as { s.drew with bm := s.bm.write a s.nextDraw }

/-- `F[rd] <- v`, or a draw where `v` depends on an undefined word (R91). -/
def State.setFOrDraw (s : State) (rd : FReg) : Option FWord → State
  | some v => s.setF rd v
  | none => s.drew.setF rd (s.nextDraw.setWidth 16)

/-! ## How a command starts and ends -/

/-- Acceptance of a command word (R251). `RESULT`, `ERRCODE` and the sticky flags keep their values. -/
def accept (w : BWord) (s : State) : State :=
  { s with
    inflight := some { word := w, accepted := [], consumed := 0 }
    status := { s.status with done := false, err := false, rngWait := false } }

/-- `complete(res)` (R252). -/
def complete (res : CmdResult) (s : State) : State :=
  { s with
    inflight := none
    status := { s.status with result := res, errCode := .none, done := true, err := false, rngWait := false } }

/-- `raise code` (R252): what an exception would be elsewhere (R260). Nothing but `STATUS` changes (R256). -/
def raise (code : ErrCode) (s : State) : State :=
  { s with
    inflight := none
    status := { s.status with result := .error, errCode := code, done := true
                              err := code != .none, rngWait := false } }

/-- Completion of a command whose `RESULT` depends on an undefined word: OK or RETRY, by a draw (R91, R253). -/
def completeDrawn (s : State) : State := complete (if s.nextDraw.getLsbD 0 then .retry else .ok) s.drew

end Sys2Proof.Machine
end

