-- ==== Sys2Proof/Machine/Flags.lean ====
section
/-! DEFINITION. The status-like bits (R49): the words of `STATUS`, `CTRL` and `CHK`, what a write to `STATUS` clears,
the sticky flags, and the interrupt line. -/

namespace Sys2Proof.Machine

/-- `STATUS[7:6]` (R253). -/
def CmdResult.code : CmdResult → BitVec 2
  | .ok => 0
  | .retry => 1
  | .error => 2

/-- `STATUS[15:8]` (R254). -/
def ErrCode.code : ErrCode → BitVec 8
  | .none => 0
  | .illegal => 1
  | .config => 2
  | .range => 3

/-- A single bit. -/
def bit (b : Bool) : BitVec 1 := BitVec.ofBool b

/-- The word a read of `STATUS` returns (R26): reserved bits 5:4 and 31:19 are 0. -/
def statusWord (s : State) : BWord :=
  0#13 ++ bit s.status.rngOvf ++ bit s.status.hostConflict ++ bit s.status.cmdOvr ++
  s.status.errCode.code ++ s.status.result.code ++ 0#2 ++
  bit s.status.rngWait ++ bit s.status.err ++ bit s.status.done ++ bit s.busy

/-- A write to `STATUS` (R26): writing 1 to a W1C bit clears it, every other bit is ignored. -/
def writeStatus (data : BWord) (s : State) : State :=
  { s with status := { s.status with
      done := s.status.done && !data.getLsbD 1
      err := s.status.err && !data.getLsbD 2
      cmdOvr := s.status.cmdOvr && !data.getLsbD 16
      hostConflict := s.status.hostConflict && !data.getLsbD 17
      rngOvf := s.status.rngOvf && !data.getLsbD 18 } }

/-- A `CMD` write while BUSY was dropped (R251). -/
def setCmdOvr (s : State) : State := { s with status := { s.status with cmdOvr := true } }

/-- A guarded access while BUSY was dropped (R46). -/
def setHostConflict (s : State) : State := { s with status := { s.status with hostConflict := true } }

/-- An `RNG_IN` write met a full FIFO (R42). -/
def setRngOvf (s : State) : State := { s with status := { s.status with rngOvf := true } }

/-- The word a read of `CTRL` returns (R25): SOFT_RESET and the reserved bits read 0. -/
def ctrlWord (s : State) : BWord := 0#30 ++ bit s.irqEn ++ bit s.cfg.pivotEn

/-- The word CHECK writes to `CHK` (R35, R223): WEIGHT in 16:0, 0 in 28:17, WEQ, EQ, OK. -/
def chkWord (weight : Nat) (weq eq : Bool) : BWord :=
  bit (weq && eq) ++ bit eq ++ bit weq ++ 0#12 ++ BitVec.ofNat 17 weight

/-- The bits of `CHK` that exist (R35): bits 28:17 read 0. -/
def chkBits : BWord := 0xE001FFFF

/-- The word CHECK writes to `MASK` (R36, R223). -/
def maskWord (ok : Bool) : BWord := if ok then 0xFFFFFFFF else 0

/-- The interrupt output: `irq = CTRL.IRQ_EN AND STATUS.DONE` (R261). -/
def State.irq (s : State) : Bool := s.irqEn && s.status.done

end Sys2Proof.Machine
end

