-- ==== Sys2Proof/Machine/Gf.lean ====
section
/-! DEFINITION. The field primitives of 40_field.md rules R140 to R147, as functions on unbounded unsigned
integers (R9, R140). -/

namespace Sys2Proof.Machine

/-- The field a command computes in: `M` (R27) and `FPOLY` (R30). -/
structure GField where
  m    : Nat
  poly : Nat
  deriving DecidableEq, Repr

/-- `FieldCfgOK` (R149, R257): `2 ≤ M ≤ 16` and `FPOLY >> M = 1`. -/
abbrev GField.Legal (fd : GField) : Prop := 2 ≤ fd.m ∧ fd.m ≤ 16 ∧ fd.poly >>> fd.m = 1

/-- `mask_M(v) = v & (2^M − 1)` (R140). -/
def maskM (fd : GField) (v : Nat) : Nat := v &&& (2 ^ fd.m - 1)

/-- `gf_add(a, b) = mask_M(a) ^ mask_M(b)` (R141). -/
def gfAdd (fd : GField) (a b : Nat) : Nat := maskM fd a ^^^ maskM fd b

/-- One turn of R142's first loop: `if b[i] = 1: p <- p ^ (a << i)`. -/
def clmulBit (a b p i : Nat) : Nat := if b.testBit i then p ^^^ (a <<< i) else p

/-- The carry-less product of R142's first loop, over `i = 0 … M−1`. -/
def clmul (m a b : Nat) : Nat := (List.range m).foldl (clmulBit a b) 0

/-- One turn of R142's second loop, for bit `M + k`: `if p[i] = 1: p <- p ^ (FPOLY << (i - M))`. -/
def reduceBit (fd : GField) (k p : Nat) : Nat := if p.testBit (fd.m + k) then p ^^^ (fd.poly <<< k) else p

/-- R142's second loop: bits `2M−2` down to `M` are cleared in this order. -/
def gfReduce (fd : GField) (p : Nat) : Nat := (List.range (fd.m - 1)).foldr (reduceBit fd) p

/-- `gf_mul(a, b)` (R142). -/
def gfMul (fd : GField) (a b : Nat) : Nat := gfReduce fd (clmul fd.m (maskM fd a) (maskM fd b))

/-- `gf_sq(a) = gf_mul(a, a)` (R143). -/
def gfSq (fd : GField) (a : Nat) : Nat := gfMul fd a a

/-- One exponent bit of the left-to-right square-and-multiply: square, then multiply by the base if the bit is set. -/
def gfPowBit (fd : GField) (a r : Nat) (bit : Bool) : Nat :=
  if bit then gfMul fd (gfMul fd r r) a else gfMul fd r r

/-- `gf_pow(a, e)` (R144), computed by square-and-multiply from the top bit of `e` down: R144 says that this
"in any bit order gives the same value" as its recurrence. -/
def gfPow (fd : GField) (a e : Nat) : Nat :=
  (List.range (e.log2 + 1)).foldr (fun i r => gfPowBit fd a r (e.testBit i)) 1

/-- `gf_inv(a) = gf_pow(a, 2^M − 2)` (R145). -/
def gfInv (fd : GField) (a : Nat) : Nat := gfPow fd a (2 ^ fd.m - 2)

/-- `gf_tr(a)`: "the XOR over `i = 0 … M−1` of `gf_pow(a, 2^i)`" (R146). -/
def gfTr (fd : GField) (a : Nat) : Nat :=
  (List.range fd.m).foldl (fun acc i => acc ^^^ gfPow fd a (2 ^ i)) 0

/-- `poly_eval` by Horner's rule (R147), over the coefficients in rising order of power: the last one is the
leading coefficient, "read from FM like the others". -/
def polyEval (fd : GField) : List Nat → Nat → Nat
  | [], _ => 0
  | [c], _ => maskM fd c
  | c :: c' :: cs, x => gfAdd fd (gfMul fd (polyEval fd (c' :: cs) x) x) c

/-- `[c, c·a, c·a², …]`, `len` elements: the running product of HBUILD's and DSYND's inner loops (R180, R220). -/
def gfPowers (fd : GField) (a : Nat) : Nat → Nat → List Nat
  | _, 0 => []
  | c, len + 1 => c :: gfPowers fd a (gfMul fd c a) len

end Sys2Proof.Machine
end

