-- ==== Sys2Proof/Machine/Operands.lean ====
section
/-! DEFINITION. The operands of commands: field registers, the selector and flag fields (R114, R115), and the
configuration registers with the sizes derived from them (R6, R27 to R34). -/

namespace Sys2Proof.Machine

/-! ## Sizes (R6) -/

/-- The field the configuration selects (R27, R30). -/
def State.field (s : State) : GField := { m := s.cfg.paramM.toNat, poly := s.cfg.fpoly.toNat }
/-- `M` -/
def State.pM (s : State) : Nat := s.cfg.paramM.toNat
/-- `N` -/
def State.pN (s : State) : Nat := s.cfg.paramN.toNat
/-- `T` -/
def State.pT (s : State) : Nat := s.cfg.paramT.toNat
/-- `R = M·T` -/
def State.pR (s : State) : Nat := s.pM * s.pT
/-- `K = N − R` -/
def State.pK (s : State) : Nat := s.pN - s.pR
/-- `NW = ceil(N/32)` -/
def State.nw (s : State) : Nat := wordsFor s.pN
/-- `RW = ceil(R/32)` -/
def State.rw (s : State) : Nat := wordsFor s.pR
/-- `KW = ceil(K/32)` -/
def State.kw (s : State) : Nat := wordsFor s.pK
/-- `PIV_W` (R31) -/
def State.pivW (s : State) : Nat := (s.cfg.pivotCfg.extractLsb' 0 16).toNat
/-- `PIV_MAX` (R31) -/
def State.pivMax (s : State) : Nat := (s.cfg.pivotCfg.extractLsb' 16 16).toNat

/-! ## Field-register operands -/

/-- A register as an unsigned integer, all 16 bits. The primitives mask it to M bits themselves (R140); FPOW's
exponent is used as it is (R154). -/
def State.fval (s : State) (r : FReg) : Nat := (s.getF r).toNat

/-- `zext_16` of a result (R9). -/
def zext16 (v : Nat) : FWord := BitVec.ofNat 16 v

/-! ## Selectors and flags (R115) -/

/-- PEVAL's base register: `sel = 0` the generator polynomial, `1` the locator (R160). -/
def State.pevalBase (s : State) (sel : BitVec 4) : Nat :=
  if sel.getLsbD 0 then s.cfg.locBase.toNat else s.cfg.polyBase.toNat

/-- SYND's MODE: what `flags[0]` selects (R210). -/
inductive SyndMode where
  /-- 0: the full matrix H -/
  | full
  /-- 1: systematic, the identity block implicit -/
  | systematic
  deriving DecidableEq, Repr

def syndMode (flags : BitVec 4) : SyndMode := if flags.getLsbD 0 then .systematic else .full

/-- SYND's OUT: `flags[1]` = 0 writes S, 1 writes S2 (R210). -/
def State.syndOut (s : State) (flags : BitVec 4) : Nat :=
  if flags.getLsbD 1 then s.cfg.s2Base.toNat else s.cfg.sBase.toNat

/-- DSYND's SRC: `flags[0]` = 0 the ciphertext C, 1 the vector e (R220). -/
inductive DsyndSrc where
  | ciphertext
  | errorVector
  deriving DecidableEq, Repr

def dsyndSrc (flags : BitVec 4) : DsyndSrc := if flags.getLsbD 0 then .errorVector else .ciphertext

/-- The number of the doubled-syndrome set DSYND writes: SRC (R220). -/
def DsyndSrc.set : DsyndSrc → Nat
  | .ciphertext => 0
  | .errorVector => 1

/-- CHECK's CMP: `flags[0]` = 0 compares C with C2, 1 the doubled-syndrome sets (R223). -/
inductive CheckCmp where
  | reencryption
  | doubledSyndrome
  deriving DecidableEq, Repr

def checkCmp (flags : BitVec 4) : CheckCmp := if flags.getLsbD 0 then .doubledSyndrome else .reencryption

/-! ## Objects in FM (R85): `none` where a word of the object is undefined -/

/-- `len` FM words from `base` on, unmasked: every primitive masks its operands (R140). -/
def State.fmVals? (s : State) (base len : Nat) : Option (List Nat) :=
  (s.fm.readN? base len).map fun ws => ws.map (·.toNat)

/-- The support `α_0 … α_{N−1}`. -/
def State.support? (s : State) : Option (List Nat) :=
  (s.fmVals? s.cfg.suppBase.toNat s.pN).map fun vs => vs.map (maskM s.field)

/-- The coefficients of g, the constant term first. -/
def State.genPoly? (s : State) : Option (List Nat) := s.fmVals? s.cfg.polyBase.toNat (s.pT + 1)

/-- The coefficients of the locator σ, the constant term first. -/
def State.locator? (s : State) : Option (List Nat) := s.fmVals? s.cfg.locBase.toNat (s.pT + 1)

/-- A set of doubled syndromes, `2T` elements. -/
def State.synSet? (s : State) (set : Nat) : Option (List Nat) :=
  (s.fmVals? (s.cfg.scrBase.toNat + 2 * s.pT * set) (2 * s.pT)).map fun vs => vs.map (maskM s.field)

/-- Field elements written to FM from `base` on, each `zext_16` (R83). -/
def State.putFm (s : State) (base : Nat) (vs : List Nat) : State :=
  { s with fm := s.fm.writeN base (vs.map zext16) }

end Sys2Proof.Machine
end

