-- ==== Sys2Proof/Machine/Checks.lean ====
section
/-! DEFINITION. The checks a command makes before it changes anything: the configuration (R149, R257), the regions
its rule names (R86, R258), the address range (R158, R159), and which error is reported (R255). -/

namespace Sys2Proof.Machine

/-- `FieldCfgOK` (R149, R257). -/
def State.fieldCfgOk (s : State) : Bool := decide s.field.Legal

/-- `CodeCfgOK` (R257). -/
def State.codeCfgOk (s : State) : Bool :=
  s.fieldCfgOk && decide ((1 ≤ s.pT ∧ s.pT ≤ s.params.tMax) ∧ (1 ≤ s.pN ∧ s.pN ≤ 2 ^ s.pM) ∧ s.pM * s.pT < s.pN)

/-- One of the two memories (R80). -/
inductive Space where
  | fm
  | bm
  deriving DecidableEq, Repr

/-- "A **region** is a triple (space, first word, length)" (R86). -/
structure Region where
  space : Space
  first : Nat
  len   : Nat
  deriving DecidableEq, Repr

/-- The words of a space. -/
def Space.size (p : BuildParams) : Space → Nat
  | .fm => p.fmDepth
  | .bm => p.bmWords

/-- Check 1 of R86. "A region of length 0 is inside every memory". -/
def Region.inside (p : BuildParams) (r : Region) : Bool := r.len == 0 || decide (r.first + r.len ≤ r.space.size p)

/-- Two regions share a word (R86). A region of length 0 shares none. -/
def Region.overlaps (a b : Region) : Bool :=
  decide (a.space = b.space ∧ 0 < a.len ∧ 0 < b.len ∧ a.first < b.first + b.len ∧ b.first < a.first + a.len)

/-- The word addresses of a region. -/
def Region.addrs (r : Region) : List Nat := List.range' r.first r.len

/-- What a command's rule names: the regions it only reads, the regions it writes, and each stride it uses with
the row width that stride must reach. -/
structure Footprint where
  reads   : List Region
  writes  : List Region
  strides : List (Nat × Nat)
  deriving DecidableEq, Repr

/-- No written region overlaps another region of the same command (check 3 of R86). -/
def writesDisjoint (reads : List Region) : List Region → Bool
  | [] => true
  | w :: ws => (reads ++ ws).all (fun r => !w.overlaps r) && writesDisjoint reads ws

/-- The three checks of R86. A failure of any of them is ERR_CONFIG, so their order does not show. -/
def Footprint.ok (p : BuildParams) (fp : Footprint) : Bool :=
  (fp.reads ++ fp.writes).all (·.inside p) && fp.strides.all (fun x => decide (x.2 ≤ x.1)) &&
  writesDisjoint fp.reads fp.writes

/-! ## The objects of R85 as regions -/

def State.suppRegion (s : State) : Region := ⟨.fm, s.cfg.suppBase.toNat, s.pN⟩
def State.polyRegion (s : State) : Region := ⟨.fm, s.cfg.polyBase.toNat, s.pT + 1⟩
def State.locRegion (s : State) : Region := ⟨.fm, s.cfg.locBase.toNat, s.pT + 1⟩
def State.permRegion (s : State) : Region := ⟨.fm, s.cfg.permBase.toNat, 2 * s.pivMax⟩
/-- One set of doubled syndromes. -/
def State.synRegion (s : State) (set : Nat) : Region := ⟨.fm, s.cfg.scrBase.toNat + 2 * s.pT * set, 2 * s.pT⟩
/-- Both sets of doubled syndromes. -/
def State.scrRegion (s : State) : Region := ⟨.fm, s.cfg.scrBase.toNat, 4 * s.pT⟩
def State.hRegion (s : State) : Region := ⟨.bm, s.cfg.hBase.toNat, s.pR * s.cfg.hStride.toNat⟩
def State.pkRegion (s : State) : Region := ⟨.bm, s.cfg.pkBase.toNat, s.pR * s.cfg.pkStride.toNat⟩
def State.eRegion (s : State) : Region := ⟨.bm, s.cfg.eBase.toNat, s.nw⟩
def State.sRegion (s : State) : Region := ⟨.bm, s.cfg.sBase.toNat, s.rw⟩
def State.s2Region (s : State) : Region := ⟨.bm, s.cfg.s2Base.toNat, s.rw⟩
/-- `H_STRIDE ≥ NW` (R34, R86) -/
def State.hStrideRule (s : State) : Nat × Nat := (s.cfg.hStride.toNat, s.nw)
/-- `PK_STRIDE ≥ KW` (R34, R86) -/
def State.pkStrideRule (s : State) : Nat × Nat := (s.cfg.pkStride.toNat, s.kw)

/-- The regions each command's rule names. A command that names none has an empty footprint; the one FM word of FLD
and FST stands here too, for what a reset in mid-command may have done to it (R283). -/
def footprint (s : State) : Instr → Footprint
  | .nop => ⟨[], [], []⟩
  | .fadd _ _ _ => ⟨[], [], []⟩
  | .fmul _ _ _ => ⟨[], [], []⟩
  | .fsqr _ _ => ⟨[], [], []⟩
  | .finv _ _ => ⟨[], [], []⟩
  | .fpow _ _ _ => ⟨[], [], []⟩
  | .ftr _ _ => ⟨[], [], []⟩
  | .fmov _ _ => ⟨[], [], []⟩
  | .fli _ _ => ⟨[], [], []⟩
  | .fld _ addr => ⟨[⟨.fm, addr.toNat, 1⟩], [], []⟩
  | .fst _ addr => ⟨[], [⟨.fm, addr.toNat, 1⟩], []⟩
  | .peval _ _ sel => ⟨[⟨.fm, s.pevalBase sel, s.pT + 1⟩], [], []⟩
  | .hbuild => ⟨[s.suppRegion, s.polyRegion], [s.hRegion], [s.hStrideRule]⟩
  | .gauss =>
    ⟨[], if s.cfg.pivotEn then [s.hRegion, s.suppRegion, s.permRegion] else [s.hRegion], [s.hStrideRule]⟩
  | .pkext => ⟨[s.hRegion], [s.pkRegion], [s.hStrideRule, s.pkStrideRule]⟩
  | .synd flags =>
    let out : Region := ⟨.bm, s.syndOut flags, s.rw⟩
    match syndMode flags with
    | .full => ⟨[s.eRegion, s.hRegion], [out], [s.hStrideRule]⟩
    | .systematic => ⟨[s.eRegion, s.pkRegion], [out], [s.pkStrideRule]⟩
  | .sample => ⟨[], [s.eRegion], []⟩
  | .dsynd flags =>
    let out := s.synRegion (dsyndSrc flags).set
    match dsyndSrc flags with
    | .ciphertext => ⟨[s.suppRegion, s.polyRegion, s.sRegion], [out], []⟩
    | .errorVector => ⟨[s.suppRegion, s.polyRegion, s.eRegion], [out], []⟩
  | .bm => ⟨[s.synRegion 0], [s.locRegion], []⟩
  | .roots => ⟨[s.suppRegion, s.locRegion], [s.eRegion], []⟩
  | .check flags =>
    match checkCmp flags with
    | .reencryption => ⟨[s.eRegion, s.sRegion, s.s2Region], [], []⟩
    | .doubledSyndrome => ⟨[s.eRegion, s.scrRegion], [], []⟩

/-! ## Which error is reported (R255) -/

/-- The check of a field command other than PEVAL, FLD and FST (R149). -/
def fieldError (s : State) : Option ErrCode := if s.fieldCfgOk then none else some .config

/-- The checks of FLD and FST: field configuration, then range (R158, R159). -/
def rangeError (s : State) (addr : BitVec 16) : Option ErrCode :=
  if !s.fieldCfgOk then some .config else if s.params.fmDepth ≤ addr.toNat then some .range else none

/-- The checks of a block command: the code check, then its regions (R257, R258). -/
def blockError (s : State) (i : Instr) : Option ErrCode :=
  if s.codeCfgOk && (footprint s i).ok s.params then none else some .config

/-- The error a command reports: ERR_ILLEGAL before ERR_CONFIG before ERR_RANGE, each command checked "only
against the conditions its rule names" (R255). -/
def firstError (s : State) (i : Instr) : Option ErrCode :=
  if !i.wellFormed then some .illegal else
  match i with
  | .nop => none
  | .fadd _ _ _ => fieldError s
  | .fmul _ _ _ => fieldError s
  | .fsqr _ _ => fieldError s
  | .finv _ _ => fieldError s
  | .fpow _ _ _ => fieldError s
  | .ftr _ _ => fieldError s
  | .fmov _ _ => fieldError s
  | .fli _ _ => fieldError s
  | .fld _ addr => rangeError s addr
  | .fst _ addr => rangeError s addr
  | .peval rd rs1 sel =>
    if s.fieldCfgOk && (footprint s (.peval rd rs1 sel)).ok s.params then none else some .config
  | .hbuild => blockError s .hbuild
  | .gauss => blockError s .gauss
  | .pkext => blockError s .pkext
  | .synd flags => blockError s (.synd flags)
  | .sample => blockError s .sample
  | .dsynd flags => blockError s (.dsynd flags)
  | .bm => blockError s .bm
  | .roots => blockError s .roots
  | .check flags => blockError s (.check flags)

/-- A command: its checks "at the start, before any state … changes" (R252), then its own effect. -/
def checked (i : Instr) (s : State) (effect : State → State) : Host.Outcome State Fault Refusal :=
  match firstError s i with
  | some code => .next (raise code s)
  | none => .next (effect s)

end Sys2Proof.Machine
end

