-- ==== Sys2Proof/Machine/Reset.lean ====
section
/-! DEFINITION. The two resets, what they do to a command in flight, and loss of power (70_reset_and_hazards.md,
R269). -/

namespace Sys2Proof.Machine

/-- The regions of one space, as word addresses. -/
def regionAddrs (space : Space) (rs : List Region) : List Nat :=
  (rs.filter fun r => r.space == space).flatMap Region.addrs

/-- The words of a region that exist in this instance's memory. -/
def Region.clip (p : BuildParams) (r : Region) : Region := { r with len := min r.len (r.space.size p - r.first) }

/-- The regions a reset leaves unspecified when it abandons the command in flight (R283): those its rule lists as
written, as far as they lie in memory. Whether the command's checks would have passed is not asked. Of a GAUSS with
PIVOT_EN = 1 and PIV_W = 0 or PIV_MAX = 0 they include the support and the swap log, as R182's operands list them, although
R182's corner case has it behave as with pivoting off (DEDUCED, log entry 11). -/
def State.abandonedWrites (s : State) : List Region :=
  match s.inflight with
  | none => []
  | some c =>
    match decode c.word with
    | .error _ => []
    | .ok i => (footprint s i).writes.map (Region.clip s.params)

/-- The memories after the command in flight is abandoned: "every word of every region the command's rule lists as
written holds an unspecified value" (R283). -/
def abandonCommand (s : State) : State :=
  let rs := s.abandonedWrites
  (s.drawFm (regionAddrs .fm rs)).drawBm (regionAddrs .bm rs)

/-- The hardware reset (R281): every register to the value of R51, the FIFO empty, the command in flight abandoned;
the memories keep their contents. -/
def hardwareReset (s : State) : State :=
  let a := abandonCommand s
  { State.resetWith s.params with fm := a.fm, bm := a.bm, drawNo := a.drawNo, inputs := s.inputs }

/-- A `CTRL` write's effect on the two enable bits: IRQ_EN always, PIVOT_EN "if `STATUS.BUSY = 0` when the write
arrives" (R25, R282). -/
def writeEnables (busy : Bool) (data : BWord) (s : State) : State :=
  { s with
    irqEn := data.getLsbD 1
    cfg := { s.cfg with pivotEn := if busy then s.cfg.pivotEn else data.getLsbD 0 } }

/-- The soft reset (R282): the hardware reset, but for the registers marked * in R51. -/
def softReset (s : State) : State := { hardwareReset s with cfg := s.cfg, irqEn := s.irqEn }

/-- Power removed and applied again: FM, BM and all registers are lost, and the hardware reset that must follow is
done (R269, R281). -/
def powerCycle (s : State) : State := { State.resetWith s.params with drawNo := s.drawNo, inputs := s.inputs }

end Sys2Proof.Machine
end

