-- ==== Sys2Proof/Machine/Bus.lean ====
section
/-! DEFINITION. The host's side: the register window (10_state.md rules R23 to R47) and one bus transfer
(20_memory.md rules R81, R82). -/

namespace Sys2Proof.Machine

/-- The registers of the window (R23). -/
inductive Reg where
  | id
  | ctrl
  | status
  | cmd
  | paramM
  | paramN
  | paramT
  | fpoly
  | pivotCfg
  | sampleMax
  | rngIn
  | rngLevel
  | suppBase
  | polyBase
  | locBase
  | scrBase
  | permBase
  | hBase
  | hStride
  | pkBase
  | pkStride
  | eBase
  | sBase
  | s2Base
  | chk
  | mask
  | permCnt
  | bmL
  | draws
  | fmAddr
  | fmData
  | bmAddr
  | bmData
  | f (i : FReg)
  /-- an offset R23 marks reserved (R45) -/
  | reserved
  deriving DecidableEq, Repr

/-- The register map (R23): byte offset and register. -/
def regMap : List (Nat × Reg) :=
  ([(0x000, .id), (0x004, .ctrl), (0x008, .status), (0x00C, .cmd), (0x010, .paramM), (0x014, .paramN),
    (0x018, .paramT), (0x01C, .fpoly), (0x020, .pivotCfg), (0x024, .sampleMax), (0x028, .rngIn),
    (0x02C, .rngLevel)] : List (Nat × Reg)) ++
  (([(0x030, .suppBase), (0x034, .polyBase), (0x038, .locBase), (0x03C, .scrBase), (0x040, .permBase),
     (0x050, .hBase), (0x054, .hStride), (0x058, .pkBase), (0x05C, .pkStride), (0x060, .eBase),
     (0x064, .sBase), (0x068, .s2Base)] : List (Nat × Reg)) ++
  (([(0x070, .chk), (0x074, .mask), (0x078, .permCnt), (0x07C, .bmL), (0x080, .draws), (0x090, .fmAddr),
     (0x094, .fmData), (0x098, .bmAddr), (0x09C, .bmData)] : List (Nat × Reg)) ++
  (List.finRange 16).map fun i => (0x100 + 4 * i.val, Reg.f i)))

/-- The register at a byte offset; every offset R23 does not name is reserved (R45). -/
def regAt (offset : BitVec 12) : Reg := (regMap.lookup offset.toNat).getD .reserved

/-- The guarded registers, as R46 lists them. `CTRL.PIVOT_EN` is the one guarded bit elsewhere (R25). -/
def Reg.guarded : Reg → Bool
  | .paramM | .paramN | .paramT | .fpoly | .pivotCfg | .sampleMax => true
  | .suppBase | .polyBase | .locBase | .scrBase | .permBase => true
  | .hBase | .hStride | .pkBase | .pkStride | .eBase | .sBase | .s2Base => true
  | .fmAddr | .fmData | .bmAddr | .bmData | .f _ => true
  | .id | .ctrl | .status | .cmd | .rngIn | .rngLevel | .chk | .mask | .permCnt | .bmL | .draws => false
  | .reserved => false

/-! ## The memory windows (R40, R41) -/

/-- The FM pointer after a data access (R40). -/
def incFm (s : State) : State := { s with fmAddr := s.fmAddr + 1 }

/-- The BM pointer after a data access (R41). -/
def incBm (s : State) : State := { s with bmAddr := s.bmAddr + 1 }

/-- A read of a data window while BUSY: any value, the pointer kept, HOST_CONFLICT set (R46); with the pointer out of range
it reports `bus_err` as well (R82, log entry 9). -/
def readWindowBusy (inRange : Bool) (s : State) : BusResponse × State :=
  (if inRange then .readOk s.nextDraw else .readErr s.nextDraw, setHostConflict s.drew)

/-- A read of `FM_DATA` (R40, R46). An undefined word reads as a draw (R91). -/
def readFmData (s : State) : BusResponse × State :=
  if s.busy then readWindowBusy (decide (s.fmAddr.toNat < s.params.fmDepth)) s
  else if s.fmAddr.toNat < s.params.fmDepth then
    match s.fm.read? s.fmAddr.toNat with
    | some v => (.readOk (v.setWidth 32), incFm s)
    | none => (.readOk ((s.nextDraw.setWidth 16).setWidth 32), incFm s.drew)
  else (.readErr s.nextDraw, s.drew)

/-- A read of `BM_DATA` (R41, R46). -/
def readBmData (s : State) : BusResponse × State :=
  if s.busy then readWindowBusy (decide (s.bmAddr.toNat < s.params.bmWords)) s
  else if s.bmAddr.toNat < s.params.bmWords then
    match s.bm.read? s.bmAddr.toNat with
    | some v => (.readOk v, incBm s)
    | none => (.readOk s.nextDraw, incBm s.drew)
  else (.readErr s.nextDraw, s.drew)

/-- A write of `FM_DATA` while idle (R40). -/
def writeFmData (data : BWord) (s : State) : BusResponse × State :=
  if s.fmAddr.toNat < s.params.fmDepth then
    (.writeOk, incFm { s with fm := s.fm.write s.fmAddr.toNat (data.setWidth 16) })
  else (.writeErr, s)

/-- A write of `BM_DATA` while idle (R41). -/
def writeBmData (data : BWord) (s : State) : BusResponse × State :=
  if s.bmAddr.toNat < s.params.bmWords then
    (.writeOk, incBm { s with bm := s.bm.write s.bmAddr.toNat data })
  else (.writeErr, s)

/-! ## Registers with an effect of their own -/

/-- A write to `RNG_IN` (R42): append, or drop and set RNG_OVF; an arriving word ends RNG_WAIT (R26, R201). -/
def pushRng (data : BWord) (s : State) : State :=
  if s.rng.length < s.params.rngDepth then
    { s with rng := s.rng ++ [data.setWidth 16], status := { s.status with rngWait := false } }
  else setRngOvf s

/-- A write to `CMD` (R250, R251). -/
def writeCmd (data : BWord) (s : State) : State := if s.busy then setCmdOvr s else accept data s

/-- A write to `CTRL` (R25, R282). -/
def writeCtrl (data : BWord) (s : State) : State :=
  writeEnables s.busy data (if data.getLsbD 2 then softReset s else s)

/-- A configuration register written. -/
def State.withCfg (s : State) (cfg : ConfigRegs) : State := { s with cfg := cfg }

/-! ## Reads and writes of the window -/

/-- A read of a register the engine writes: exact when idle, "any value" and no side effect while BUSY (R47). -/
def readResult (v : BWord) (s : State) : BusResponse × State :=
  if s.busy then (.readOk s.nextDraw, s.drew) else (.readOk v, s)

/-- A read of a register (R23 to R47). -/
def readReg (r : Reg) (s : State) : BusResponse × State :=
  match r with
  | .id => (.readOk 0x47464501, s)
  | .ctrl => (.readOk (ctrlWord s), s)
  | .status => (.readOk (statusWord s), s)
  | .cmd => (.readOk 0, s)
  | .paramM => (.readOk (s.cfg.paramM.setWidth 32), s)
  | .paramN => (.readOk (s.cfg.paramN.setWidth 32), s)
  | .paramT => (.readOk (s.cfg.paramT.setWidth 32), s)
  | .fpoly => (.readOk (s.cfg.fpoly.setWidth 32), s)
  | .pivotCfg => (.readOk s.cfg.pivotCfg, s)
  | .sampleMax => (.readOk s.cfg.sampleMax, s)
  | .rngIn => (.readOk 0, s)
  | .rngLevel => (.readOk ((BitVec.ofNat 17 s.rng.length).setWidth 32), s)
  | .suppBase => (.readOk (s.cfg.suppBase.setWidth 32), s)
  | .polyBase => (.readOk (s.cfg.polyBase.setWidth 32), s)
  | .locBase => (.readOk (s.cfg.locBase.setWidth 32), s)
  | .scrBase => (.readOk (s.cfg.scrBase.setWidth 32), s)
  | .permBase => (.readOk (s.cfg.permBase.setWidth 32), s)
  | .hBase => (.readOk (s.cfg.hBase.setWidth 32), s)
  | .hStride => (.readOk (s.cfg.hStride.setWidth 32), s)
  | .pkBase => (.readOk (s.cfg.pkBase.setWidth 32), s)
  | .pkStride => (.readOk (s.cfg.pkStride.setWidth 32), s)
  | .eBase => (.readOk (s.cfg.eBase.setWidth 32), s)
  | .sBase => (.readOk (s.cfg.sBase.setWidth 32), s)
  | .s2Base => (.readOk (s.cfg.s2Base.setWidth 32), s)
  | .chk => readResult s.chk s
  | .mask => readResult s.mask s
  | .permCnt => readResult (s.permCnt.setWidth 32) s
  | .bmL => readResult (s.bmL.setWidth 32) s
  | .draws => readResult s.draws s
  | .fmAddr => (.readOk (s.fmAddr.setWidth 32), s)
  | .fmData => readFmData s
  | .bmAddr => (.readOk (s.bmAddr.setWidth 32), s)
  | .bmData => readBmData s
  | .f i => readResult ((s.getF i).setWidth 32) s
  | .reserved => (.readOk 0, s)

/-- A write to a register while nothing guards it: bits the register does not have are ignored (R27 to R34, R45). -/
def writeOpen (r : Reg) (data : BWord) (s : State) : BusResponse × State :=
  match r with
  | .ctrl => (.writeOk, writeCtrl data s)
  | .status => (.writeOk, writeStatus data s)
  | .cmd => (.writeOk, writeCmd data s)
  | .paramM => (.writeOk, s.withCfg { s.cfg with paramM := data.setWidth 5 })
  | .paramN => (.writeOk, s.withCfg { s.cfg with paramN := data.setWidth 17 })
  | .paramT => (.writeOk, s.withCfg { s.cfg with paramT := data.setWidth 16 })
  | .fpoly => (.writeOk, s.withCfg { s.cfg with fpoly := data.setWidth 17 })
  | .pivotCfg => (.writeOk, s.withCfg { s.cfg with pivotCfg := data })
  | .sampleMax => (.writeOk, s.withCfg { s.cfg with sampleMax := data })
  | .rngIn => (.writeOk, pushRng data s)
  | .suppBase => (.writeOk, s.withCfg { s.cfg with suppBase := data.setWidth 16 })
  | .polyBase => (.writeOk, s.withCfg { s.cfg with polyBase := data.setWidth 16 })
  | .locBase => (.writeOk, s.withCfg { s.cfg with locBase := data.setWidth 16 })
  | .scrBase => (.writeOk, s.withCfg { s.cfg with scrBase := data.setWidth 16 })
  | .permBase => (.writeOk, s.withCfg { s.cfg with permBase := data.setWidth 16 })
  | .hBase => (.writeOk, s.withCfg { s.cfg with hBase := data.setWidth 24 })
  | .hStride => (.writeOk, s.withCfg { s.cfg with hStride := data.setWidth 16 })
  | .pkBase => (.writeOk, s.withCfg { s.cfg with pkBase := data.setWidth 24 })
  | .pkStride => (.writeOk, s.withCfg { s.cfg with pkStride := data.setWidth 16 })
  | .eBase => (.writeOk, s.withCfg { s.cfg with eBase := data.setWidth 24 })
  | .sBase => (.writeOk, s.withCfg { s.cfg with sBase := data.setWidth 24 })
  | .s2Base => (.writeOk, s.withCfg { s.cfg with s2Base := data.setWidth 24 })
  | .fmAddr => (.writeOk, { s with fmAddr := data.setWidth 16 })
  | .fmData => writeFmData data s
  | .bmAddr => (.writeOk, { s with bmAddr := data.setWidth 24 })
  | .bmData => writeBmData data s
  | .f i => (.writeOk, s.setF i (data.setWidth 16))
  | .id | .rngLevel | .chk | .mask | .permCnt | .bmL | .draws => (.writeOk, s)
  | .reserved => (.writeOk, s)

/-- A write to a register: while BUSY a guarded one is dropped and sets HOST_CONFLICT (R46). -/
def writeReg (r : Reg) (data : BWord) (s : State) : BusResponse × State :=
  if r.guarded && s.busy then (.writeOk, setHostConflict s) else writeOpen r data s

/-- A transfer GFE serves: aligned, and all four byte enables set (R82, R89). -/
def served (addr : BitVec 12) (be : BitVec 4) : Bool := addr.toNat % 4 == 0 && be == 0xF

/-- One completed bus transfer (R81): "A transfer's effect … happens once, at the edge where it completes". A
misaligned or narrow one completes with `bus_err = 1` and no effect; a read then returns any value (R82). -/
def busTransfer (t : Transfer) (s : State) : State :=
  let out := match t with
    | .read addr be => if served addr be then readReg (regAt addr) s else (.readErr s.nextDraw, s.drew)
    | .write addr be data => if served addr be then writeReg (regAt addr) data s else (.writeErr, s)
  { out.2 with busResp := some out.1 }

end Sys2Proof.Machine
end

