-- ==== Sys2Proof/Machine/Control.lean ====
section
/-! DEFINITION. The no-operation command (45_control.md). -/

namespace Sys2Proof.Machine

/-- NOP (R240): `complete(OK)`. -/
def nopEffect (s : State) : State := complete .ok s

/-- NOP: it checks only legality (R255), so it completes whatever the configuration. -/
def execNop (s : State) : Host.Outcome State Fault Refusal :=
  checked .nop s nopEffect

end Sys2Proof.Machine
end

