-- ==== Sys2Proof/Machine/Decoding.lean ====
section
/-! DEFINITION. The syndrome-decoding engine (44_decode.md): DSYND, BM, ROOTS, CHECK. -/

namespace Sys2Proof.Machine

/-! ## DSYND (R220) -/

/-- What support point `α_i` adds to `s_0 … s_(2T−1)`: `v_i · α_i^j / g(α_i)^2` (R220). -/
def dsyndTerm (fd : GField) (g : List Nat) (len a : Nat) (v : Bool) : List Nat :=
  let y := polyEval fd g a
  gfPowers fd a (if v then gfInv fd (gfMul fd y y) else 0) len

/-- The doubled syndrome: the sum of the terms of every support point (R220). -/
def dsyndSum (fd : GField) (g : List Nat) (len : Nat) (alphas : List Nat) (v : Nat) : List Nat :=
  (alphas.zipIdx).foldl
    (fun acc (a, i) => List.zipWith (gfAdd fd) acc (dsyndTerm fd g len a (v.testBit i)))
    (List.replicate len 0)

/-- The vector DSYND takes: `(C, 0^K)` or e (R220), or `none` where a word of it is undefined. -/
def State.dsyndVec? (s : State) : DsyndSrc → Option Nat
  | .ciphertext => s.bm.readVec? s.cfg.sBase.toNat s.pR
  | .errorVector => s.bm.readVec? s.cfg.eBase.toNat s.pN

/-- DSYND's result, or `none` where an input word is undefined. -/
def State.dsynd? (s : State) (src : DsyndSrc) : Option (List Nat) :=
  match s.support?, s.genPoly?, s.dsyndVec? src with
  | some alphas, some g, some v => some (dsyndSum s.field g (2 * s.pT) alphas v)
  | _, _, _ => none

/-- DSYND (R220). -/
def dsyndEffect (flags : BitVec 4) (s : State) : State :=
  complete .ok <|
    match s.dsynd? (dsyndSrc flags) with
    | some syn => s.putFm (s.synRegion (dsyndSrc flags).set).first syn
    | none => s.drawFm (s.synRegion (dsyndSrc flags).set).addrs

/-- DSYND: its checks (R116, R257, R258), then its effect. -/
def execDsynd (flags : BitVec 4) (s : State) : Host.Outcome State Fault Refusal :=
  checked (.dsynd flags) s (dsyndEffect flags)

/-! ## BM (R221) -/

/-- The variables of the recurrence (R221). The arrays have indices 0 … T. -/
structure BmState where
  c : List Nat
  b : List Nat
  l : Nat
  lastD : Nat
  deriving DecidableEq, Repr

/-- `C = [1, 0, …]`, `B = [0, 1, 0, …]`, `L = 0`, `b = 1` (R221). -/
def BmState.start (t : Nat) : BmState :=
  { c := (List.replicate (t + 1) 0).set 0 1
    b := (List.replicate (t + 1) 0).set 1 1
    l := 0
    lastD := 1 }

/-- The discrepancy `d`: the XOR over `i = 0 … min(n, T)` of `gf_mul(C[i], s[n−i])` (R221). -/
def bmDiscrepancy (fd : GField) (t : Nat) (syn : List Nat) (n : Nat) (c : List Nat) : Nat :=
  (List.range (min n t + 1)).foldl (fun acc i => acc ^^^ gfMul fd (c.getD i 0) (syn.getD (n - i) 0)) 0

/-- One iteration (R221): update C whatever `d` is; on a length change keep the old C as B; shift B. -/
def bmStep (fd : GField) (t : Nat) (syn : List Nat) (st : BmState) (n : Nat) : BmState :=
  let d := bmDiscrepancy fd t syn n st.c
  let f := gfMul fd d (gfInv fd st.lastD)
  let c := List.zipWith (fun ci bi => gfAdd fd ci (gfMul fd f bi)) st.c st.b
  let grow := d ≠ 0 ∧ 2 * st.l ≤ n
  { c := c
    b := 0 :: (if grow then st.c else st.b).take t
    l := if grow then n + 1 - st.l else st.l
    lastD := if grow then d else st.lastD }

/-- "exactly 2T iterations" (R221). -/
def bmRun (fd : GField) (t : Nat) (syn : List Nat) : BmState :=
  (List.range (2 * t)).foldl (bmStep fd t syn) (BmState.start t)

/-- BM (R221): `σ_k = C[T−k]`. -/
def bmEffect (s : State) : State :=
  complete .ok <|
    match s.synSet? 0 with
    | some syn =>
      let st := bmRun s.field s.pT syn
      { s.putFm s.cfg.locBase.toNat st.c.reverse with bmL := BitVec.ofNat 17 st.l }
    | none =>
      let s := s.drawFm s.locRegion.addrs
      { s.drew with bmL := s.nextDraw.setWidth 17 }

/-- BM: its checks (R257, R258), then its effect. -/
def execBm (s : State) : Host.Outcome State Fault Refusal :=
  checked .bm s bmEffect

/-! ## ROOTS (R222) -/

/-- `e'[i] = 1` iff `σ(α_i) = 0`, every point evaluated (R222); `none` where an input word is undefined. -/
def State.roots? (s : State) : Option (List Bool) :=
  match s.support?, s.locator? with
  | some alphas, some sigma => some (alphas.map fun a => polyEval s.field sigma a == 0)
  | _, _ => none

/-- ROOTS (R222). -/
def rootsEffect (s : State) : State :=
  complete .ok <|
    match s.roots? with
    | some e => { s with bm := s.bm.putVec s.cfg.eBase.toNat s.pN (packBits e) }
    | none => s.drawBm s.eRegion.addrs

/-- ROOTS: its checks (R257, R258), then its effect. -/
def execRoots (s : State) : Host.Outcome State Fault Refusal :=
  checked .roots s rootsEffect

/-! ## CHECK (R223) -/

/-- Whether the compared syndromes are equal (R223), or `none` where a word of them is undefined. -/
def State.syndromesEqual? (s : State) : CheckCmp → Option Bool
  | .reencryption =>
    match s.bm.readVec? s.cfg.sBase.toNat s.pR, s.bm.readVec? s.cfg.s2Base.toNat s.pR with
    | some c, some c2 => some (c == c2)
    | _, _ => none
  | .doubledSyndrome =>
    match s.synSet? 0, s.synSet? 1 with
    | some s0, some s1 => some (s0 == s1)
    | _, _ => none

/-- The weight of e and the equality CHECK reports, or `none` where an input word is undefined. -/
def State.check? (s : State) (cmp : CheckCmp) : Option (Nat × Bool) :=
  match s.bm.readVec? s.cfg.eBase.toNat s.pN, s.syndromesEqual? cmp with
  | some e, some eq => some (popcount s.pN e, eq)
  | _, _ => none

/-- CHECK (R223): RESULT is OK whatever it concludes. -/
def checkEffect (flags : BitVec 4) (s : State) : State :=
  complete .ok <|
    match s.check? (checkCmp flags) with
    | some (w, eq) => { s with chk := chkWord w (w == s.pT) eq, mask := maskWord (w == s.pT && eq) }
    | none => { s.drew.drew with chk := s.nextDraw &&& chkBits, mask := s.drew.nextDraw }

/-- CHECK: its checks (R116, R257, R258), then its effect. -/
def execCheck (flags : BitVec 4) (s : State) : Host.Outcome State Fault Refusal :=
  checked (.check flags) s (checkEffect flags)

end Sys2Proof.Machine
end

