-- ==== Sys2Proof/Machine/FieldCommands.lean ====
section
/-! DEFINITION. The field commands (40_field.md rules R149 to R160): for each the effect its rule gives it once its
checks have passed, and the command. -/

namespace Sys2Proof.Machine

/-- FADD (R150). -/
def faddEffect (rd rs1 rs2 : FReg) (s : State) : State :=
  complete .ok (s.setF rd (zext16 (gfAdd s.field (s.fval rs1) (s.fval rs2))))

/-- FADD: its checks (R149), then its effect. -/
def execFadd (rd rs1 rs2 : FReg) (s : State) : Host.Outcome State Fault Refusal :=
  checked (.fadd rd rs1 rs2) s (faddEffect rd rs1 rs2)

/-- FMUL (R151). -/
def fmulEffect (rd rs1 rs2 : FReg) (s : State) : State :=
  complete .ok (s.setF rd (zext16 (gfMul s.field (s.fval rs1) (s.fval rs2))))

/-- FMUL: its checks (R149), then its effect. -/
def execFmul (rd rs1 rs2 : FReg) (s : State) : Host.Outcome State Fault Refusal :=
  checked (.fmul rd rs1 rs2) s (fmulEffect rd rs1 rs2)

/-- FSQR (R152). -/
def fsqrEffect (rd rs1 : FReg) (s : State) : State :=
  complete .ok (s.setF rd (zext16 (gfSq s.field (s.fval rs1))))

/-- FSQR: its checks (R149), then its effect. -/
def execFsqr (rd rs1 : FReg) (s : State) : Host.Outcome State Fault Refusal :=
  checked (.fsqr rd rs1) s (fsqrEffect rd rs1)

/-- FINV (R153): inversion of 0 is defined and gives 0 (R145). -/
def finvEffect (rd rs1 : FReg) (s : State) : State :=
  complete .ok (s.setF rd (zext16 (gfInv s.field (s.fval rs1))))

/-- FINV: its checks (R149), then its effect. -/
def execFinv (rd rs1 : FReg) (s : State) : Host.Outcome State Fault Refusal :=
  checked (.finv rd rs1) s (finvEffect rd rs1)

/-- FPOW (R154): the exponent is the full 16-bit value of `rs2`, "**not** masked to M bits". -/
def fpowEffect (rd rs1 rs2 : FReg) (s : State) : State :=
  complete .ok (s.setF rd (zext16 (gfPow s.field (s.fval rs1) (s.fval rs2))))

/-- FPOW: its checks (R149), then its effect. -/
def execFpow (rd rs1 rs2 : FReg) (s : State) : Host.Outcome State Fault Refusal :=
  checked (.fpow rd rs1 rs2) s (fpowEffect rd rs1 rs2)

/-- FTR (R155). -/
def ftrEffect (rd rs1 : FReg) (s : State) : State :=
  complete .ok (s.setF rd (zext16 (gfTr s.field (s.fval rs1))))

/-- FTR: its checks (R149), then its effect. -/
def execFtr (rd rs1 : FReg) (s : State) : Host.Outcome State Fault Refusal :=
  checked (.ftr rd rs1) s (ftrEffect rd rs1)

/-- FMOV (R156): "all 16 bits, not masked". -/
def fmovEffect (rd rs1 : FReg) (s : State) : State :=
  complete .ok (s.setF rd (s.getF rs1))

/-- FMOV: its checks (R149), then its effect. -/
def execFmov (rd rs1 : FReg) (s : State) : Host.Outcome State Fault Refusal :=
  checked (.fmov rd rs1) s (fmovEffect rd rs1)

/-- FLI (R157). -/
def fliEffect (rd : FReg) (imm : BitVec 16) (s : State) : State :=
  complete .ok (s.setF rd (zext16 (maskM s.field imm.toNat)))

/-- FLI: its checks (R149), then its effect. -/
def execFli (rd : FReg) (imm : BitVec 16) (s : State) : Host.Outcome State Fault Refusal :=
  checked (.fli rd imm) s (fliEffect rd imm)

/-- FLD (R158): 16 bits unchanged; "reading an FM word no one wrote gives an undefined value". -/
def fldEffect (rd : FReg) (addr : BitVec 16) (s : State) : State :=
  complete .ok (s.setFOrDraw rd (s.fm.read? addr.toNat))

/-- FLD: its checks (R149), then its effect. -/
def execFld (rd : FReg) (addr : BitVec 16) (s : State) : Host.Outcome State Fault Refusal :=
  checked (.fld rd addr) s (fldEffect rd addr)

/-- FST (R159): 16 bits unchanged. -/
def fstEffect (rs : FReg) (addr : BitVec 16) (s : State) : State :=
  complete .ok { s with fm := s.fm.write addr.toNat (s.getF rs) }

/-- FST: its checks (R149), then its effect. -/
def execFst (rs : FReg) (addr : BitVec 16) (s : State) : Host.Outcome State Fault Refusal :=
  checked (.fst rs addr) s (fstEffect rs addr)

/-- PEVAL (R160): a draw where a coefficient is undefined (R91). -/
def pevalEffect (rd rs1 : FReg) (sel : BitVec 4) (s : State) : State :=
  complete .ok <| s.setFOrDraw rd <|
    (s.fmVals? (s.pevalBase sel) (s.pT + 1)).map fun cs => zext16 (polyEval s.field cs (s.fval rs1))

/-- PEVAL: its checks (R149), then its effect. -/
def execPeval (rd rs1 : FReg) (sel : BitVec 4) (s : State) : Host.Outcome State Fault Refusal :=
  checked (.peval rd rs1 sel) s (pevalEffect rd rs1 sel)

end Sys2Proof.Machine
end

