-- ==== Sys2Proof/Machine/Matrix.lean ====
section
/-! DEFINITION. The Goppa matrix builder, the Gaussian elimination unit and the public-key extraction
(41_matrix.md). A matrix row is a bit vector held as an integer (R11). -/

namespace Sys2Proof.Machine

/-! ## HBUILD (R180) -/

/-- The M rows of one power `i`: row `b` holds bit `b` of every column's `v[j]` (R180). -/
def hbuildPowerRows (m : Nat) (vs : List Nat) : List Nat :=
  (List.range m).map fun b => packBits (vs.map (·.testBit b))

/-- The rows of the next `powers` powers; after each, `v[j] <- gf_mul(v[j], a[j])` (R180). -/
def hbuildRows (fd : GField) (alphas : List Nat) : Nat → List Nat → List Nat
  | 0, _ => []
  | powers + 1, vs => hbuildPowerRows fd.m vs ++ hbuildRows fd alphas powers (List.zipWith (gfMul fd) vs alphas)

/-- `g(α_j)` for every support point (R180). -/
def supportValues (fd : GField) (g alphas : List Nat) : List Nat := alphas.map (polyEval fd g)

/-- HBUILD's matrix and whether a support point is a root of g, or `none` where an input word is undefined. -/
def State.hbuild? (s : State) : Option (List Nat × Bool) :=
  match s.support?, s.genPoly? with
  | some alphas, some g =>
    let ys := supportValues s.field g alphas
    some (hbuildRows s.field alphas s.pT (ys.map (gfInv s.field)), ys.any (· == 0))
  | _, _ => none

/-- `putrow` of every row of H (R180, R183). -/
def State.putH (s : State) (rows : List Nat) : State :=
  { s with bm := s.bm.putRows s.cfg.hStride.toNat s.pN s.cfg.hBase.toNat rows }

/-- HBUILD (R180): the whole matrix is written whether or not the support holds a root of g. -/
def hbuildEffect (s : State) : State :=
  match s.hbuild? with
  | some (rows, retry) => complete (if retry then .retry else .ok) (s.putH rows)
  | none => completeDrawn (s.drawBm s.hRegion.addrs)

/-- HBUILD: its checks (R257, R258), then its effect. -/
def execHbuild (s : State) : Host.Outcome State Fault Refusal :=
  checked .hbuild s hbuildEffect

/-! ## GAUSS (R182 to R184) -/

/-- H and the column swaps made so far, oldest first: their number is `s` of R183. -/
structure Elimination where
  rows  : List Nat
  swaps : List (Nat × Nat)
  deriving DecidableEq, Repr

/-- How GAUSS ends (R182). -/
inductive GaussEnd where
  | reduced (e : Elimination)
  | singular (e : Elimination)
  deriving DecidableEq, Repr

/-- The pivoting configuration: `CTRL.PIVOT_EN`, `PIV_W`, `PIV_MAX` (R31), and N. -/
structure Pivoting where
  enabled : Bool
  window  : Nat
  maxSwaps : Nat
  columns : Nat
  deriving DecidableEq, Repr

/-- The least row `r ≥ c` with `H[r][col] = 1` (R183, R184). -/
def pivotRow? (rows : List Nat) (c col : Nat) : Option Nat :=
  ((List.range rows.length).drop c).find? fun r => (rows.getD r 0).testBit col

/-- Columns `c` and `j` of a row exchanged. -/
def swapColumns (c j row : Nat) : Nat :=
  if row.testBit c = row.testBit j then row else row ^^^ (1 <<< c) ^^^ (1 <<< j)

/-- `pivot_search(c)` (R184): `none` is its `goto SINGULAR`. -/
def pivotSearch (pv : Pivoting) (c : Nat) (e : Elimination) : Option Elimination :=
  if !pv.enabled || e.swaps.length == pv.maxSwaps then none else
  match (List.range' (c + 1) (min (c + pv.window) (pv.columns - 1) - c)).find?
      fun j => (pivotRow? e.rows c j).isSome with
  | none => none
  | some j => some { rows := e.rows.map (swapColumns c j), swaps := e.swaps ++ [(c, j)] }

/-- Rows `c` and `p` exchanged. -/
def swapRows (rows : List Nat) (c p : Nat) : List Nat :=
  (rows.set c (rows.getD p 0)).set p (rows.getD c 0)

/-- `H[r] <- H[r] ^ H[c]` for every other row `r` with `H[r][c] = 1` (R183). -/
def clearColumn (rows : List Nat) (c : Nat) : List Nat :=
  rows.mapIdx fun r row => if r ≠ c ∧ row.testBit c then row ^^^ rows.getD c 0 else row

/-- Column `c` with a pivot in rows `c …`, by a column swap if it has none (R183); `none` is SINGULAR. -/
def findPivot (pv : Pivoting) (c : Nat) (e : Elimination) : Option Elimination :=
  if (pivotRow? e.rows c c).isSome then some e else pivotSearch pv c e

/-- The pivot row brought to row `c` and the rest of the column cleared (R183). -/
def reduceColumn (c : Nat) (e : Elimination) : Option Elimination :=
  (pivotRow? e.rows c c).map fun p => { e with rows := clearColumn (swapRows e.rows c p) c }

/-- Column `c`'s turn (R183); `none` is SINGULAR. -/
def eliminateColumn (pv : Pivoting) (c : Nat) (e : Elimination) : Option Elimination :=
  (findPivot pv c e).bind (reduceColumn c)

/-- Columns `c, c+1, …`, `count` of them (R183). -/
def eliminate (pv : Pivoting) : Nat → Nat → Elimination → GaussEnd
  | 0, _, e => .reduced e
  | count + 1, c, e =>
    match eliminateColumn pv c e with
    | none => .singular e
    | some e' => eliminate pv count (c + 1) e'

/-- The pivoting configuration of the command (R182). -/
def State.pivoting (s : State) : Pivoting :=
  { enabled := s.cfg.pivotEn, window := s.pivW, maxSwaps := s.pivMax, columns := s.pN }

/-- GAUSS on the H region, or `none` where a word of H is undefined. -/
def State.gauss? (s : State) : Option GaussEnd :=
  (s.bm.readRows? s.cfg.hStride.toNat s.pN s.cfg.hBase.toNat s.pR).map fun rows =>
    eliminate s.pivoting s.pR 0 { rows := rows, swaps := [] }

/-- The elimination a GAUSS ended with. -/
def GaussEnd.elimination : GaussEnd → Elimination
  | .reduced e => e
  | .singular e => e

/-- The support entries and the swap-log entries of the swaps, numbered from `n` on, in order (R184): `none` where a
support word to be moved is undefined. -/
def applySwaps (supp perm : Nat) : Nat → List (Nat × Nat) → Mem 16 → Option (Mem 16)
  | _, [], fm => some fm
  | n, (c, j) :: rest, fm =>
    match fm.read? (supp + c), fm.read? (supp + j) with
    | some a, some b =>
      applySwaps supp perm (n + 1) rest
        ((((fm.write (supp + c) b).write (supp + j) a).write (perm + 2 * n) (zext16 c)).write
          (perm + 2 * n + 1) (zext16 j))
    | _, _ => none

/-- The FM words the swaps write (R184). -/
def swapAddrs (supp perm : Nat) (swaps : List (Nat × Nat)) : List Nat :=
  swaps.flatMap (fun (c, j) => [supp + c, supp + j]) ++ List.range' perm (2 * swaps.length)

/-- Whether a swap is possible: "`PIVOT_EN = 1` with `PIV_W = 0` or `PIV_MAX = 0` behaves as pivoting off" (R182). -/
def State.maySwap (s : State) : Bool := s.cfg.pivotEn && s.pivW != 0 && s.pivMax != 0

/-- The words a GAUSS may write in FM: the support and the swap log, where a swap is possible (R182, R184). -/
def State.gaussFmAddrs (s : State) : List Nat :=
  if s.maySwap then s.suppRegion.addrs ++ s.permRegion.addrs else []

/-- The end of a GAUSS whose swaps are known: PERMCNT, then the H region and RESULT (R182, R183). -/
def gaussFinish (r : GaussEnd) (s : State) : State :=
  let s := { s with permCnt := BitVec.ofNat 16 r.elimination.swaps.length }
  match r with
  | .reduced e => complete .ok (s.putH e.rows)
  | .singular _ => complete .retry (s.drawBm s.hRegion.addrs)

/-- The end of a GAUSS whose result depends on an undefined word: draws in the H region, in the given FM words and in
PERMCNT, RESULT OK or RETRY by a draw (R91). -/
def gaussUndefined (fmAddrs : List Nat) (s : State) : State :=
  let s := (s.drawBm s.hRegion.addrs).drawFm fmAddrs
  completeDrawn { s.drew with permCnt := s.nextDraw.setWidth 16 }

/-- GAUSS (R182). The elimination never reads the support, so the support and the swap log are written after it, in
the order of the swaps. -/
def gaussEffect (s : State) : State :=
  match s.gauss? with
  | none => gaussUndefined s.gaussFmAddrs s
  | some r =>
    match applySwaps s.cfg.suppBase.toNat s.cfg.permBase.toNat 0 r.elimination.swaps s.fm with
    | some fm => gaussFinish r { s with fm := fm }
    | none => gaussUndefined (swapAddrs s.cfg.suppBase.toNat s.cfg.permBase.toNat r.elimination.swaps) s

/-- GAUSS: its checks (R257, R258), then its effect. -/
def execGauss (s : State) : Host.Outcome State Fault Refusal :=
  checked .gauss s gaussEffect

/-! ## PKEXT (R186) -/

/-- Columns `R … R+K−1` of the rows of H (R186), or `none` where a word that holds one of them is undefined. The words
of a row before the one that holds column `R` are not read. -/
def State.publicKey? (s : State) : Option (List Nat) :=
  (s.bm.readRows? s.cfg.hStride.toNat (s.pN - 32 * (s.pR / 32)) (s.cfg.hBase.toNat + s.pR / 32) s.pR).map fun rows =>
    rows.map fun row => (row >>> (s.pR % 32)) % 2 ^ s.pK

/-- PKEXT (R186). -/
def pkextEffect (s : State) : State :=
  complete .ok <|
    match s.publicKey? with
    | some rows => { s with bm := s.bm.putRows s.cfg.pkStride.toNat s.pK s.cfg.pkBase.toNat rows }
    | none => s.drawBm s.pkRegion.addrs

/-- PKEXT: its checks (R257, R258), then its effect. -/
def execPkext (s : State) : Host.Outcome State Fault Refusal :=
  checked .pkext s pkextEffect

end Sys2Proof.Machine
end

