-- ==== Sys2Proof/Machine/Sampler.lean ====
section
/-! DEFINITION. The fixed-weight sampler (42_sampler.md). -/

namespace Sys2Proof.Machine

/-- Where a run of SAMPLE's loop stops, with the accepted indices in acceptance order, the number of words consumed
and the words left in the FIFO (R200, R201). -/
inductive SampleEnd where
  /-- T indices were accepted -/
  | accepted (indices : List Nat) (consumed : Nat) (rest : List FWord)
  /-- SAMPLE_MAX words were consumed: `goto FAIL` -/
  | exhausted (consumed : Nat) (rest : List FWord)
  /-- a word is needed and there is none to pop -/
  | starved (indices : List Nat) (consumed : Nat)
  deriving DecidableEq, Repr

/-- The accepted indices after one more word (R200): its low M bits are the index, discarded if out of range or a
duplicate. -/
def sampleNext (fd : GField) (n : Nat) (acc : List Nat) (w : FWord) : List Nat :=
  if n ≤ maskM fd w.toNat ∨ maskM fd w.toNat ∈ acc then acc else acc ++ [maskM fd w.toNat]

/-- The loop of R200 over the words at hand. -/
def sampleLoop (fd : GField) (n t max : Nat) : List FWord → List Nat → Nat → SampleEnd
  | [], acc, d =>
    if t ≤ acc.length then .accepted acc d [] else if d = max then .exhausted d [] else .starved acc d
  | w :: ws, acc, d =>
    if t ≤ acc.length then .accepted acc d (w :: ws)
    else if d = max then .exhausted d (w :: ws)
    else sampleLoop fd n t max ws (sampleNext fd n acc w) (d + 1)

/-- The vector with a 1 at each index of the list (R200). -/
def indicatorVec (indices : List Nat) : Nat := indices.foldl (fun v i => v ||| (1 <<< i)) 0

/-- The words the engine turn may consume, and the words behind them (`Event.engine`). -/
def State.rngAtHand (s : State) : List FWord := (s.quota.map fun q => s.rng.take q).getD s.rng
def State.rngBehind (s : State) : List FWord := (s.quota.map fun q => s.rng.drop q).getD []

/-- How far the SAMPLE in flight has come (R48). -/
def State.sampleAccepted (s : State) : List Nat := (s.inflight.map (·.accepted)).getD []
def State.sampleConsumed (s : State) : Nat := (s.inflight.map (·.consumed)).getD 0

/-- SAMPLE's end (R200): the E region, DRAWS and the FIFO. -/
def sampleFinish (res : CmdResult) (e consumed : Nat) (rng : List FWord) (s : State) : State :=
  complete res { s with
    bm := s.bm.putVec s.cfg.eBase.toNat s.pN e
    draws := BitVec.ofNat 32 consumed
    rng := rng }

/-- SAMPLE goes on waiting (R201): RNG_WAIT is set when the FIFO is empty, and the command stays in flight. -/
def sampleHold (acc : List Nat) (consumed : Nat) (rng : List FWord) (s : State) : State :=
  { s with
    rng := rng
    inflight := some { word := encode .sample, accepted := acc, consumed := consumed }
    status := { s.status with rngWait := rng.isEmpty } }

/-- SAMPLE (R200, R201): one engine turn. It completes, or it runs out of words and stays in flight. -/
def sampleEffect (s : State) : State :=
  match sampleLoop s.field s.pN s.pT s.cfg.sampleMax.toNat s.rngAtHand s.sampleAccepted s.sampleConsumed with
  | .accepted acc d rest => sampleFinish .ok (indicatorVec acc) d (rest ++ s.rngBehind) s
  | .exhausted d rest => sampleFinish .retry 0 d (rest ++ s.rngBehind) s
  | .starved acc d => sampleHold acc d s.rngBehind s

/-- SAMPLE: its checks (R257, R258), then its effect. They look only at configuration, which cannot change while it is in
flight (R46), so a turn that resumes it passes them again. -/
def execSample (s : State) : Host.Outcome State Fault Refusal :=
  checked .sample s sampleEffect

end Sys2Proof.Machine
end

