-- ==== Sys2Proof/Machine/Syndrome.lean ====
section
/-! DEFINITION. The syndrome calculator (43_syndrome.md). -/

namespace Sys2Proof.Machine

/-- MODE 0: `y[r]` is the XOR over `c < N` of `H[r][c] AND e_c` (R210). -/
def syndromeFull (n e : Nat) (hRows : List Nat) : List Bool := hRows.map fun row => parity n (row &&& e)

/-- MODE 1: `y[r] = e_r XOR (XOR over c < K of T[r][c] AND e_(R+c))` (R210). -/
def syndromeSystematic (r k e : Nat) (tRows : List Nat) : List Bool :=
  tRows.mapIdx fun i row => e.testBit i ^^ parity k (row &&& (e >>> r))

/-- The syndrome SYND computes, or `none` where an input word is undefined. -/
def State.syndrome? (s : State) (mode : SyndMode) : Option (List Bool) :=
  match mode with
  | .full =>
    match s.bm.readVec? s.cfg.eBase.toNat s.pN,
        s.bm.readRows? s.cfg.hStride.toNat s.pN s.cfg.hBase.toNat s.pR with
    | some e, some rows => some (syndromeFull s.pN e rows)
    | _, _ => none
  | .systematic =>
    match s.bm.readVec? s.cfg.eBase.toNat s.pN,
        s.bm.readRows? s.cfg.pkStride.toNat s.pK s.cfg.pkBase.toNat s.pR with
    | some e, some rows => some (syndromeSystematic s.pR s.pK e rows)
    | _, _ => none

/-- SYND (R210). -/
def syndEffect (flags : BitVec 4) (s : State) : State :=
  complete .ok <|
    match s.syndrome? (syndMode flags) with
    | some y => { s with bm := s.bm.putVec (s.syndOut flags) s.pR (packBits y) }
    | none => s.drawBm (Region.addrs ⟨.bm, s.syndOut flags, s.rw⟩)

/-- SYND: its checks (R116, R257, R258), then its effect. -/
def execSynd (flags : BitVec 4) (s : State) : Host.Outcome State Fault Refusal :=
  checked (.synd flags) s (syndEffect flags)

end Sys2Proof.Machine
end

