-- ==== Sys2Proof/Machine/Dispatch.lean ====
section
/-! DEFINITION. The meaning of each command, one arm per constructor. -/

namespace Sys2Proof.Machine

def exec (i : Instr) (s : State) : Host.Outcome State Fault Refusal :=
  match i with
  | .nop => Sys2Proof.Machine.execNop s
  | .fadd rd rs1 rs2 => Sys2Proof.Machine.execFadd rd rs1 rs2 s
  | .fmul rd rs1 rs2 => Sys2Proof.Machine.execFmul rd rs1 rs2 s
  | .fsqr rd rs1 => Sys2Proof.Machine.execFsqr rd rs1 s
  | .finv rd rs1 => Sys2Proof.Machine.execFinv rd rs1 s
  | .fpow rd rs1 rs2 => Sys2Proof.Machine.execFpow rd rs1 rs2 s
  | .ftr rd rs1 => Sys2Proof.Machine.execFtr rd rs1 s
  | .fmov rd rs1 => Sys2Proof.Machine.execFmov rd rs1 s
  | .fli rd imm => Sys2Proof.Machine.execFli rd imm s
  | .fld rd addr => Sys2Proof.Machine.execFld rd addr s
  | .fst rs addr => Sys2Proof.Machine.execFst rs addr s
  | .peval rd rs1 sel => Sys2Proof.Machine.execPeval rd rs1 sel s
  | .hbuild => Sys2Proof.Machine.execHbuild s
  | .gauss => Sys2Proof.Machine.execGauss s
  | .pkext => Sys2Proof.Machine.execPkext s
  | .synd flags => Sys2Proof.Machine.execSynd flags s
  | .sample => Sys2Proof.Machine.execSample s
  | .dsynd flags => Sys2Proof.Machine.execDsynd flags s
  | .bm => Sys2Proof.Machine.execBm s
  | .roots => Sys2Proof.Machine.execRoots s
  | .check flags => Sys2Proof.Machine.execCheck flags s

end Sys2Proof.Machine
end

