-- ==== Sys2Proof/Machine/Engine.lean ====
section
/-! DEFINITION. The engine's turn: the command in flight is decoded and run (R251, R252). -/

namespace Sys2Proof.Machine

/-- The engine's turn. With nothing in flight it is idle and holds all state (R269); an illegal word completes with
ERR_ILLEGAL (R116); any other word is the command it decodes to. -/
def engineTurn (s : State) : Host.Outcome State Fault Refusal :=
  match s.inflight with
  | none => .next s
  | some c =>
    match decode c.word with
    | .error _ => .next (raise .illegal s)
    | .ok i => exec i s

/-- What one event at the boundary does, the event itself already taken off the inputs (R20, R263). -/
def handleEvent (e : Event) (s : State) : Host.Outcome State Fault Refusal :=
  match e with
  | .bus t => .next (busTransfer t s)
  | .engine words => engineTurn { s with quota := words }
  | .hwReset => .next (hardwareReset s)
  | .powerCycle => .next (powerCycle s)

/-- What happens when the host has nothing more to do: the engine runs without bound ("every accepted command that
is not waiting for random words completes", R288). -/
def noEvent (s : State) : Host.Outcome State Fault Refusal := engineTurn { s with quota := none }

/-- The state in which the engine's next turn runs the given word: it has just been accepted (R251), and the engine
moves next. -/
def placeWord (w : BWord) (s : State) : State :=
  { accept w s with inputs := .engine none :: s.inputs }

end Sys2Proof.Machine
end

