-- ==== Sys2Proof/Machine/Step.lean ====
section
/-! DEFINITION. One step of the machine: the next event at its boundary. -/

namespace Sys2Proof.Machine

/-- One step: the first pending event (R121), or the engine alone when none is pending. -/
def step (s : State) : Host.Outcome State Fault Refusal :=
  match s.inputs with
  | [] => noEvent s
  | e :: rest => handleEvent e { s with inputs := rest }

/-- The state whose very next step runs the command word: GFE fetches nothing (R96), so the word is put where the
engine takes it from, the command in flight. -/
def State.withFetchWord (s : State) (nbits w : Nat) : State := placeWord (tableWord nbits w) s

end Sys2Proof.Machine
end

