-- ==== Sys2Proof/Machine/Assembly.lean ====
section
/-! DEFINITION. GFE-1 assembly (rules R119, R120): an assembler for one line of text, as a list of characters. -/

namespace Sys2Proof.Machine

/-- Text as characters. -/
abbrev Text := List Char

/-- The pseudo-instructions of R120. -/
inductive Pseudo where
  | fclr (d : FReg)
  | fone (d : FReg)
  | fsub (d a b : FReg)
  | fneg (d a : FReg)
  | fdiv (d a b : FReg)
  deriving DecidableEq, Repr

/-- Their expansions (R120). `fdiv` is "refused by the assembler when D = A and A ≠ B". -/
def Pseudo.expand : Pseudo → Option (List Instr)
  | .fclr d => some [.fli d 0]
  | .fone d => some [.fli d 1]
  | .fsub d a b => some [.fadd d a b]
  | .fneg d a => some [.fmov d a]
  | .fdiv d a b => if d = a ∧ a ≠ b then none else some [.finv d b, .fmul d a d]

/-- Blank characters. -/
def isBlank (c : Char) : Bool := c == ' ' || c == '\t'

/-- Blanks at both ends removed. -/
def trim (t : Text) : Text := ((t.dropWhile isBlank).reverse.dropWhile isBlank).reverse

/-- Text cut at commas. -/
def splitCommas : Text → List Text
  | [] => [[]]
  | c :: cs =>
    if c == ',' then [] :: splitCommas cs
    else match splitCommas cs with
      | [] => [[c]]
      | t :: ts => (c :: t) :: ts

/-- A line without its comment ("`;` starts a comment"), in lower case, as mnemonic and operands. R119 calls mnemonics and
register names "case-insensitive"; DESIGN CHOICE (log entry 21): so are the operand words (`full`, `sys`, `s`, `s2`, `c`,
`e`, `syn`, `dbl`, `g`, `loc`), the `0x` prefix and the hexadecimal digits. -/
def splitLine (line : Text) : Text × List Text :=
  let t := trim ((line.takeWhile (· != ';')).map Char.toLower)
  let rest := trim (t.dropWhile fun c => !isBlank c)
  (t.takeWhile fun c => !isBlank c, if rest.isEmpty then [] else (splitCommas rest).map trim)

/-- The value of a digit in the given base. -/
def digit? (base : Nat) (c : Char) : Option Nat :=
  let v := if c.isDigit then c.toNat - '0'.toNat else c.toNat - 'a'.toNat + 10
  if (c.isDigit || (decide ('a' ≤ c) && decide (c ≤ 'f'))) && decide (v < base) then some v else none

/-- Digits after the value so far. -/
def digits? (base : Nat) : Nat → Text → Option Nat
  | acc, [] => some acc
  | acc, c :: cs =>
    match digit? base c with
    | some v => digits? base (base * acc + v) cs
    | none => none

/-- A number: "decimal or `0x` hexadecimal", and it "must fit 16 bits". -/
def number? (t : Text) : Option (BitVec 16) :=
  let v := match t with
    | '0' :: 'x' :: c :: cs => digits? 16 0 (c :: cs)
    | c :: cs => digits? 10 0 (c :: cs)
    | [] => none
  match v with
  | some n => if n < 2 ^ 16 then some (BitVec.ofNat 16 n) else none
  | none => none

/-- A register name, `f0` … `f15`. -/
def register? : Text → Option FReg
  | ['f', c] => (digit? 10 c).bind fun v => if h : v < 16 then some ⟨v, h⟩ else none
  | ['f', '1', c] => (digit? 10 c).bind fun v => if h : 10 + v < 16 then some ⟨10 + v, h⟩ else none
  | _ => none

/-- An FM address in brackets. -/
def address? : Text → Option (BitVec 16)
  | '[' :: t => if t.getLast? = some ']' then number? (trim t.dropLast) else none
  | _ => none

/-- Commands with one to three register operands. -/
def op1 (mk : FReg → Option (List Instr)) (d : Text) : Option (List Instr) := (register? d).bind mk
def op2 (mk : FReg → FReg → Option (List Instr)) (d a : Text) : Option (List Instr) :=
  (register? d).bind fun d => op1 (mk d) a
def op3 (mk : FReg → FReg → FReg → Option (List Instr)) (d a b : Text) : Option (List Instr) :=
  (register? d).bind fun d => op2 (mk d) a b

/-- A single command. -/
def one (i : Instr) : Option (List Instr) := some [i]

/-- The rows of R119 and R120 with register operands, an immediate or an address. -/
def assembleField (mnemonic : Text) (ops : List Text) : Option (List Instr) :=
  match ops with
  | [d] =>
    if mnemonic = "fclr".toList then op1 (fun d => (Pseudo.fclr d).expand) d
    else if mnemonic = "fone".toList then op1 (fun d => (Pseudo.fone d).expand) d
    else none
  | [d, a] =>
    if mnemonic = "fsqr".toList then op2 (fun d a => one (.fsqr d a)) d a
    else if mnemonic = "finv".toList then op2 (fun d a => one (.finv d a)) d a
    else if mnemonic = "ftr".toList then op2 (fun d a => one (.ftr d a)) d a
    else if mnemonic = "fmov".toList then op2 (fun d a => one (.fmov d a)) d a
    else if mnemonic = "fneg".toList then op2 (fun d a => (Pseudo.fneg d a).expand) d a
    else if mnemonic = "fli".toList then op1 (fun d => (number? a).bind fun n => one (.fli d n)) d
    else if mnemonic = "fld".toList then op1 (fun d => (address? a).bind fun n => one (.fld d n)) d
    else if mnemonic = "fst".toList then op1 (fun d => (address? a).bind fun n => one (.fst d n)) d
    else none
  | [d, a, b] =>
    if mnemonic = "fadd".toList then op3 (fun d a b => one (.fadd d a b)) d a b
    else if mnemonic = "fmul".toList then op3 (fun d a b => one (.fmul d a b)) d a b
    else if mnemonic = "fpow".toList then op3 (fun d a b => one (.fpow d a b)) d a b
    else if mnemonic = "fsub".toList then op3 (fun d a b => (Pseudo.fsub d a b).expand) d a b
    else if mnemonic = "fdiv".toList then op3 (fun d a b => (Pseudo.fdiv d a b).expand) d a b
    else if mnemonic = "peval".toList then
      if b = "g".toList then op2 (fun d a => one (.peval d a 0)) d a
      else if b = "loc".toList then op2 (fun d a => one (.peval d a 1)) d a
      else none
    else none
  | _ => none

/-- The rows of R119 without register operands: mnemonic, operands, command. -/
def blockRows : List (Text × List Text × Instr) :=
  [("nop".toList, [], .nop), ("hbuild".toList, [], .hbuild), ("gauss".toList, [], .gauss),
   ("pkext".toList, [], .pkext), ("sample".toList, [], .sample), ("bm".toList, [], .bm),
   ("roots".toList, [], .roots),
   ("synd".toList, ["full".toList, "s".toList], .synd 0), ("synd".toList, ["sys".toList, "s".toList], .synd 1),
   ("synd".toList, ["full".toList, "s2".toList], .synd 2), ("synd".toList, ["sys".toList, "s2".toList], .synd 3),
   ("dsynd".toList, ["c".toList], .dsynd 0), ("dsynd".toList, ["e".toList], .dsynd 1),
   ("check".toList, ["syn".toList], .check 0), ("check".toList, ["dbl".toList], .check 1)]

/-- One line of assembly (R119, R120): the commands it stands for (none for a line of comment only), or `none` where
the assembler refuses it. -/
def assemble (line : Text) : Option (List Instr) :=
  let (mnemonic, ops) := splitLine line
  if mnemonic = [] then some [] else
  match blockRows.find? fun r => r.1 == mnemonic && r.2.1 == ops with
  | some r => some [r.2.2]
  | none => assembleField mnemonic ops

end Sys2Proof.Machine
end

