-- ==== Sys2Proof/Machine/HostProgram.lean ====
section
/-! DEFINITION. The host-program notation of rule R121 as lists of boundary events, the host's packing of bytes (R88),
and the decapsulation sequence (R224). The machine uses none of it: it is how programs are written down. -/

namespace Sys2Proof.Machine

/-- The byte offset of a register (R23); the first reserved offset for `reserved`. -/
def Reg.offset (r : Reg) : BitVec 12 :=
  BitVec.ofNat 12 (((regMap.find? fun x => x.2 == r).map Prod.fst).getD 0x044)

/-- `W REG, v`: a full-word write. -/
def hostWrite (r : Reg) (v : BWord) : List Event := [.bus (.write r.offset 0xF v)]

/-- `R REG`: a full-word read; the value is in `State.busResp` afterwards. -/
def hostRead (r : Reg) : List Event := [.bus (.read r.offset 0xF)]

/-- `WAIT`: the engine runs, then the host reads STATUS. A SAMPLE without words is still BUSY then (R201). -/
def hostWait : List Event := .engine none :: hostRead .status

/-- `C <command>`: the command word written to CMD. -/
def hostCommand (i : Instr) : List Event := hostWrite .cmd (encode i)

/-- `FMW a: v0, v1, …` -/
def hostFmWrite (a : BWord) (vs : List BWord) : List Event := hostWrite .fmAddr a ++ vs.flatMap (hostWrite .fmData)

/-- `BMW a: v0, v1, …` -/
def hostBmWrite (a : BWord) (vs : List BWord) : List Event := hostWrite .bmAddr a ++ vs.flatMap (hostWrite .bmData)

/-- `FMR a, n` -/
def hostFmRead (a : BWord) (n : Nat) : List Event :=
  hostWrite .fmAddr a ++ (List.replicate n (hostRead .fmData)).flatten

/-- `BMR a, n` -/
def hostBmRead (a : BWord) (n : Nat) : List Event :=
  hostWrite .bmAddr a ++ (List.replicate n (hostRead .bmData)).flatten

/-- `RNG v0, v1, …` -/
def hostRng (vs : List BWord) : List Event := vs.flatMap (hostWrite .rngIn)

/-- A BM word packed from four bytes: "byte `4w+k` into bits `[8k+7:8k]` of word `w`" (R88). -/
def wordOfBytes (b0 b1 b2 b3 : BitVec 8) : BWord := b3 ++ b2 ++ b1 ++ b0

/-- BM words packed from a byte string little-endian (R88); a last group shorter than four is filled with zeros. -/
def wordsOfBytes : List (BitVec 8) → List BWord
  | [] => []
  | [b0] => [wordOfBytes b0 0 0 0]
  | [b0, b1] => [wordOfBytes b0 b1 0 0]
  | [b0, b1, b2] => [wordOfBytes b0 b1 b2 0]
  | b0 :: b1 :: b2 :: b3 :: bs => wordOfBytes b0 b1 b2 b3 :: wordsOfBytes bs

/-- The random words a host forms from a byte stream: "each word from two consecutive bytes, first byte in bits
[7:0]" (D21). A last single byte forms no word. -/
def rngWordsOfBytes : List (BitVec 8) → List BWord
  | [] => []
  | [_] => []
  | b0 :: b1 :: bs => (b1 ++ b0 : BitVec 16).setWidth 32 :: rngWordsOfBytes bs

/-- The decapsulation commands in order, by either of CHECK's comparisons (R224). -/
def decapsulation : CheckCmp → List Instr
  | .reencryption => [.dsynd 0, .bm, .roots, .synd 3, .check 0]
  | .doubledSyndrome => [.dsynd 0, .bm, .roots, .dsynd 1, .check 1]

end Sys2Proof.Machine
end

