-- ==== Sys2Proof/Safety.lean ====
section
/-! DEFINITION. What counts as a sound state, and the words the statements are written in: the premises a command
needs, the value a rule names, and what a step may leave changed. -/

namespace Sys2Proof.Machine

/-! ## The invariant -/

/-- Every address a memory lists lies inside it (R83, R84). -/
abbrev Mem.Inside {w : Nat} (m : Mem w) (depth : Nat) : Prop := ∀ x ∈ m, x.1 < depth

/-- The progress of a SAMPLE in flight (R200): distinct indices below N, at most T of them, no more than the words
consumed, and no more of those than SAMPLE_MAX. -/
abbrev State.ProgressOk (s : State) : Prop :=
  s.sampleAccepted.Nodup ∧ (∀ i ∈ s.sampleAccepted, i < s.pN) ∧ s.sampleAccepted.length ≤ s.pT ∧
  s.sampleAccepted.length ≤ s.sampleConsumed ∧ s.sampleConsumed ≤ s.cfg.sampleMax.toNat

/-- What holds of every state from which a reset state can be reached: a sound GFE. -/
structure State.Inv (s : State) : Prop where
  /-- the build parameters are in the ranges of R7 -/
  legal        : s.params.Legal
  fmWf         : s.fm.wf
  bmWf         : s.bm.wf
  fmInside     : s.fm.Inside s.params.fmDepth
  bmInside     : s.bm.Inside s.params.bmWords
  /-- R42, R48: "up to `RNG_DEPTH` 16-bit words" -/
  rngFits      : s.rng.length ≤ s.params.rngDepth
  /-- R252: RESULT is ERROR exactly with a non-zero ERRCODE -/
  errorCoded   : s.status.result = .error ↔ s.status.errCode ≠ .none
  /-- R26, R252: ERR only after an erring completion -/
  errExplained : s.status.err = true → s.status.errCode ≠ .none
  /-- R251: acceptance clears DONE and ERR, and only completion sets them -/
  busyClear    : s.busy = true → s.status.done = false ∧ s.status.err = false
  /-- R201: the engine waits for a word only while it has a command and the FIFO is empty -/
  waitEmpty    : s.status.rngWait = true → s.busy = true ∧ s.rng = []
  progress     : s.ProgressOk

/-! ## Premises -/

/-- `2 ≤ M ≤ 16` and `FPOLY >> M = 1` (R149). -/
abbrev FieldConfigured (s : State) : Prop :=
  2 ≤ s.cfg.paramM.toNat ∧ s.cfg.paramM.toNat ≤ 16 ∧ s.cfg.fpoly.toNat >>> s.cfg.paramM.toNat = 1

/-- `CodeCfgOK` (R257). -/
abbrev CodeConfigured (s : State) : Prop :=
  FieldConfigured s ∧ (1 ≤ s.cfg.paramT.toNat ∧ s.cfg.paramT.toNat ≤ s.params.tMax) ∧
  (1 ≤ s.cfg.paramN.toNat ∧ s.cfg.paramN.toNat ≤ 2 ^ s.cfg.paramM.toNat) ∧
  s.cfg.paramM.toNat * s.cfg.paramT.toNat < s.cfg.paramN.toNat

/-- A region lies inside its memory (R86 check 1). -/
abbrev Region.Fits (p : BuildParams) (r : Region) : Prop := r.len = 0 ∨ r.first + r.len ≤ r.space.size p

/-- The region holds the word at this address of this space. -/
abbrev Region.Has (r : Region) (space : Space) (a : Nat) : Prop := r.space = space ∧ r.first ≤ a ∧ a < r.first + r.len

/-- Two regions share no word (R86 check 3). -/
abbrev Region.Apart (a b : Region) : Prop := ∀ space x, ¬ (a.Has space x ∧ b.Has space x)

/-- The three region checks of R86, word for word, for a list of regions read, a list of regions written and the strides
used with the row widths they need. -/
abbrev RegionsAccepted (p : BuildParams) (reads writes : List Region) (strides : List (Nat × Nat)) : Prop :=
  (∀ r ∈ reads ++ writes, r.Fits p) ∧ (∀ x ∈ strides, x.2 ≤ x.1) ∧
  (∀ w ∈ writes, ∀ r ∈ reads, w.Apart r) ∧ writes.Pairwise Region.Apart

/-- A run of words has been written (R91: "the inputs were written"). -/
abbrev Mem.Written {w : Nat} (m : Mem w) (a len : Nat) : Prop := ∀ k < len, (m.read? (a + k)).isSome = true

/-- The words that hold the rows of a matrix have been written: `ceil(n/32)` words of each row. -/
abbrev Mem.RowsWritten (m : Mem 32) (b stride rows n : Nat) : Prop := ∀ r < rows, m.Written (b + r * stride) (wordsFor n)

/-! ## Commands by opcode (R115, R255) -/

/-- The opcode of a command. -/
def opcodeOf (i : Instr) : Nat := (encode i).toNat % 256

/-- "field commands": opcodes 0x01 to 0x0B (R149). -/
abbrev IsFieldCommand (i : Instr) : Prop := 0x01 ≤ opcodeOf i ∧ opcodeOf i ≤ 0x0B

/-- "block commands": opcodes 0x10 to 0x18 (R255). -/
abbrev IsBlockCommand (i : Instr) : Prop := 0x10 ≤ opcodeOf i ∧ opcodeOf i ≤ 0x18

/-! ## Values -/

/-- `getbit(b, j)` (R11), `none` where the word is undefined. -/
def Mem.bit? (m : Mem 32) (b j : Nat) : Option Bool := (m.read? (b + j / 32)).map (·.getLsbD (j % 32))

/-- `getbit(b, j)` of a written word. -/
def Mem.bitOf (m : Mem 32) (b j : Nat) : Bool := (m.bit? b j).getD false

/-- `mask_M(FM[a])` of a written word (R83). -/
def State.elemAt (s : State) (a : Nat) : Nat := ((s.fm.read? a).getD 0).toNat % 2 ^ s.cfg.paramM.toNat

/-- `gf_pow` by R144's own recurrence. -/
def powRec (fd : GField) (a : Nat) : Nat → Nat
  | 0 => 1
  | e + 1 => gfMul fd (powRec fd a e) a

/-- The XOR of `f 0 … f (n−1)`. -/
def xorSum (f : Nat → Nat) : Nat → Nat
  | 0 => 0
  | n + 1 => xorSum f n ^^^ f n

/-- The exclusive or of the truth values `f 0 … f (n−1)`. -/
def xorBits (f : Nat → Bool) : Nat → Bool
  | 0 => false
  | n + 1 => xorBits f n ^^ f n

/-- The number of `i < n` with `f i`. -/
def countBits (f : Nat → Bool) : Nat → Nat
  | 0 => 0
  | n + 1 => countBits f n + (f n).toNat

/-- `Σ_k c_k x^k` over `k ≤ d`, the coefficients at `base` in FM (R85, R147). -/
def State.polyAt (s : State) (base d x : Nat) : Nat :=
  xorSum (fun k => gfMul s.field (s.elemAt (base + k)) (powRec s.field x k)) (d + 1)

/-- The polynomial over GF(2) an integer stands for (R140): bit `i` is the coefficient of `z^i`. -/
noncomputable def polyOf (v : Nat) : Polynomial (ZMod 2) :=
  ∑ i ∈ Finset.range v, if v.testBit i then Polynomial.X ^ i else 0

/-! ## What a completion leaves -/

/-- `STATUS` after `complete(res)` (R252): the sticky flags keep their values. -/
def Status.completed (st : Status) (res : CmdResult) : Status :=
  { st with result := res, errCode := .none, done := true, err := false, rngWait := false }

/-- `STATUS` after `raise code` (R252). -/
def Status.raised (st : Status) (code : ErrCode) : Status :=
  { st with result := .error, errCode := code, done := true, err := true, rngWait := false }

/-- The command has completed with this result (R252). -/
abbrev CompletedWith (res : CmdResult) (s t : State) : Prop := t.inflight = none ∧ t.status = s.status.completed res

/-- What no command writes (R47): the configuration, the window pointers, the enables, and the host's side. -/
abbrev SameControl (s t : State) : Prop :=
  t.params = s.params ∧ t.cfg = s.cfg ∧ t.irqEn = s.irqEn ∧ t.fmAddr = s.fmAddr ∧ t.bmAddr = s.bmAddr ∧
  t.busResp = s.busResp ∧ t.inputs = s.inputs ∧ t.quota = s.quota

/-- The result registers `CHK`, `MASK`, `PERMCNT`, `BM_L`, `DRAWS` (R35 to R39). -/
abbrev SameResults (s t : State) : Prop :=
  t.chk = s.chk ∧ t.mask = s.mask ∧ t.permCnt = s.permCnt ∧ t.bmL = s.bmL ∧ t.draws = s.draws

/-- Every FM word outside `[first, first + len)` reads as before. -/
abbrev SameFmOutside (first len : Nat) (s t : State) : Prop :=
  ∀ a, a < first ∨ first + len ≤ a → t.fm.read? a = s.fm.read? a

/-- Every BM word outside `[first, first + len)` reads as before. -/
abbrev SameBmOutside (first len : Nat) (s t : State) : Prop :=
  ∀ a, a < first ∨ first + len ≤ a → t.bm.read? a = s.bm.read? a

/-- The state a command leaves that only completes (R252). -/
def State.finished (s : State) (res : CmdResult) : State := { s with inflight := none, status := s.status.completed res }

/-- The state a command leaves that is refused with an error code (R252, R256). -/
def State.refusedWith (s : State) (code : ErrCode) : State := { s with inflight := none, status := s.status.raised code }

/-! ## The block commands' values -/

/-- Where an index goes under one exchange. -/
def swapIndex (x : Nat × Nat) (i : Nat) : Nat := if i = x.1 then x.2 else if i = x.2 then x.1 else i

/-- Where the column that stands at position `i` after a list of exchanges, oldest first, came from (R184). -/
def sourceColumn (swaps : List (Nat × Nat)) (i : Nat) : Nat := swaps.foldr swapIndex i

/-- The bit in row `r` and column `k` of `H0·Π`, where `Π` makes the exchanges (R182). -/
def State.permutedBit (s : State) (swaps : List (Nat × Nat)) (r k : Nat) : Bool :=
  s.bm.bitOf (s.cfg.hBase.toNat + r * s.cfg.hStride.toNat) (sourceColumn swaps k)

/-- "column … of H0·Π is in the span of columns 0 … c−1" (R183's note), of column `k`. -/
def State.InSpan (s : State) (swaps : List (Nat × Nat)) (c k : Nat) : Prop :=
  ∃ v : Nat → Bool, ∀ r < s.pR, s.permutedBit swaps r k = xorBits (fun i => v i && s.permutedBit swaps r i) c

/-- "the swaps before step c" (R183's note), of a list whose steps rise. -/
def swapsBefore (swaps : List (Nat × Nat)) (c : Nat) : List (Nat × Nat) := swaps.filter (·.1 < c)

/-- `A` of R200 after the first `k` words of the FIFO, as a set: the indices below N among their low M bits. -/
def State.indicesAfter (s : State) (k : Nat) : Finset Nat :=
  ((s.rng.take k).map fun w => w.toNat % 2 ^ s.cfg.paramM.toNat).toFinset.filter (· < s.cfg.paramN.toNat)

/-- The variables of R221, the arrays as functions of their index. -/
structure BmLoop where
  c : Nat → Nat
  b : Nat → Nat
  l : Nat
  lastD : Nat

/-- R221's loop body, over arrays as functions. -/
def BmLoop.next (fd : GField) (t : Nat) (syn : Nat → Nat) (x : BmLoop) (n : Nat) : BmLoop :=
  let d := xorSum (fun i => gfMul fd (x.c i) (syn (n - i))) (min n t + 1)
  let f := gfMul fd d (powRec fd x.lastD (2 ^ fd.m - 2))
  let grow := d ≠ 0 ∧ 2 * x.l ≤ n
  { c := fun i => gfAdd fd (x.c i) (gfMul fd f (x.b i))
    b := fun i => if i = 0 then 0 else if grow then x.c (i - 1) else x.b (i - 1)
    l := if grow then n + 1 - x.l else x.l
    lastD := if grow then d else x.lastD }

/-- R221's loop after `n` iterations. -/
def bmLoop (fd : GField) (t : Nat) (syn : Nat → Nat) : Nat → BmLoop
  | 0 => { c := fun i => if i = 0 then 1 else 0, b := fun i => if i = 1 then 1 else 0, l := 0, lastD := 1 }
  | n + 1 => (bmLoop fd t syn n).next fd t syn n

end Sys2Proof.Machine
end

