-- ==== Sys2Proof/Certificates/Slice0/Obligations.lean ====
section
/-! DEFINITION. The statements about the model: one definition each, listed in OBLIGATIONS.json. -/

open Sys2Proof Sys2Proof.Machine

/-! ## Encoding (30_encoding.md) -/

/-- R110 to R115: a legal command is read back from its word, every operand at every value the encoding admits. -/
def Obligations.EncodeThenDecodeReturnsCommand : Prop :=
  ∀ i : Instr, i.wellFormed = true → decode (encode i) = .ok i

/-- R110 to R116: a word that decodes is the word of the command it decodes to, and that command is legal. -/
def Obligations.DecodeThenEncodeReturnsWord : Prop :=
  ∀ (w : BWord) (i : Instr), decode w = .ok i → i.wellFormed = true ∧ encode i = w

/-- R115: the rows are those of the table, by mnemonic, mask and match; a legal word is the command of exactly one of
them. -/
def Obligations.LegalWordMatchesExactlyOneRow : Prop :=
  opcodeRows.map (fun r => (r.mnemonic, r.mask, r.value)) =
    [("NOP", 0xFFFFFFFF, 0x00000000), ("FADD", 0xFFF000FF, 0x00000001), ("FMUL", 0xFFF000FF, 0x00000002),
     ("FSQR", 0xFFFF00FF, 0x00000003), ("FINV", 0xFFFF00FF, 0x00000004), ("FPOW", 0xFFF000FF, 0x00000005),
     ("FTR", 0xFFFF00FF, 0x00000006), ("FMOV", 0xFFFF00FF, 0x00000007), ("FLI", 0x0000F0FF, 0x00000008),
     ("FLD", 0x0000F0FF, 0x00000009), ("FST", 0x0000F0FF, 0x0000000A), ("PEVAL", 0xFFFE00FF, 0x0000000B)] ++
    [("HBUILD", 0xFFFFFFFF, 0x00000010), ("GAUSS", 0xFFFFFFFF, 0x00000011), ("PKEXT", 0xFFFFFFFF, 0x00000012),
     ("SYND", 0xFFFFFCFF, 0x00000013), ("SAMPLE", 0xFFFFFFFF, 0x00000014), ("DSYND", 0xFFFFFEFF, 0x00000015),
     ("BM", 0xFFFFFFFF, 0x00000016), ("ROOTS", 0xFFFFFFFF, 0x00000017), ("CHECK", 0xFFFFFEFF, 0x00000018)] ∧
  (∀ (w : BWord) (i : Instr), decode w = .ok i →
    ∃ r ∈ opcodeRows, w &&& r.mask = r.value ∧ i = r.build w ∧
      ∀ r' ∈ opcodeRows, w &&& r'.mask = r'.value → r' = r) ∧
  (∀ w : BWord, (∃ r ∈ opcodeRows, w &&& r.mask = r.value) → ∃ i, decode w = .ok i)

/-- R116: a word is illegal exactly if its opcode is reserved or a must-be-zero bit of its row is set; the engine
completes it with ERR_ILLEGAL and changes nothing but STATUS. -/
def Obligations.IllegalWordsCompleteWithErrIllegal : Prop :=
  (∀ w : BWord, (∃ e, decode w = .error e) ↔
    ((0x0C ≤ w.toNat % 256 ∧ w.toNat % 256 ≤ 0x0F) ∨ 0x19 ≤ w.toNat % 256) ∨
    (∃ x ∈ ([(0x00, 0xFFFFFF00), (0x01, 0xFFF00000), (0x02, 0xFFF00000), (0x03, 0xFFFF0000), (0x04, 0xFFFF0000),
        (0x05, 0xFFF00000), (0x06, 0xFFFF0000), (0x07, 0xFFFF0000), (0x08, 0x0000F000), (0x09, 0x0000F000),
        (0x0A, 0x0000F000), (0x0B, 0xFFFE0000)] ++
       [(0x10, 0xFFFFFF00), (0x11, 0xFFFFFF00), (0x12, 0xFFFFFF00), (0x13, 0xFFFFFC00), (0x14, 0xFFFFFF00),
        (0x15, 0xFFFFFE00), (0x16, 0xFFFFFF00), (0x17, 0xFFFFFF00), (0x18, 0xFFFFFE00)] : List (Nat × BWord)),
      w.toNat % 256 = x.1 ∧ w &&& x.2 ≠ 0)) ∧
  (∀ (s : State) (c : InFlight) (e : DecodeError), s.inflight = some c → decode c.word = .error e →
    engineTurn s = .next { s with inflight := none, status := s.status.raised .illegal })

/-- The command words that 40_field.md, 43_syndrome.md and 95_test_vectors.md write out, and what they stand for. -/
def Obligations.WrittenOutWordsDecode : Prop :=
  decode 0x00000000 = .ok .nop ∧ decode 0x00032101 = .ok (.fadd 1 2 3) ∧ decode 0x00021302 = .ok (.fmul 3 1 2) ∧
  decode 0x00001703 = .ok (.fsqr 7 1) ∧ decode 0x00003404 = .ok (.finv 4 3) ∧ decode 0x00065705 = .ok (.fpow 7 5 6) ∧
  decode 0x00003606 = .ok (.ftr 6 3) ∧ decode 0xF1230208 = .ok (.fli 2 0xF123) ∧
  decode 0x3FFF0109 = .ok (.fld 1 0x3FFF) ∧ decode 0x0100030A = .ok (.fst 3 0x0100) ∧
  decode 0x0000120B = .ok (.peval 2 1 0) ∧ decode 0x00000011 = .ok .gauss ∧ decode 0x00000313 = .ok (.synd 3) ∧
  decode 0x00000014 = .ok .sample ∧ decode 0x00000115 = .ok (.dsynd 1) ∧ decode 0x00000118 = .ok (.check 1) ∧
  decode 0x0000000C = .error .reservedOpcode ∧ decode 0x00000100 = .error .mustBeZero ∧
  decode 0x00100001 = .error .mustBeZero ∧ decode 0x0002100B = .error .mustBeZero

/-! ## Steps and the command lifecycle (60_exceptions.md section 1) -/

/-- R116, R121, R251, R252: a step takes the next event off the inputs: a transfer, an engine turn, a reset or a power cycle.
An engine turn, or a step with no event left, is the meaning of the command in flight, decoded, or completes an illegal
word with ERR_ILLEGAL; the word `withFetchWord` places is run by the very next step. -/
def Obligations.StepRunsTheDecodedCommand : Prop :=
  (∀ (s : State) (c : InFlight) (i : Instr), s.inflight = some c → decode c.word = .ok i →
    (s.inputs = [] → step s = exec i { s with quota := none }) ∧
    (∀ q rest, s.inputs = .engine q :: rest → step s = exec i { s with inputs := rest, quota := q })) ∧
  (∀ (s : State) (c : InFlight) (e : DecodeError), s.inflight = some c → decode c.word = .error e →
    (s.inputs = [] → step s = .next { s with
      quota := none, inflight := none, status := s.status.raised .illegal }) ∧
    (∀ q rest, s.inputs = .engine q :: rest → step s = .next { s with
      inputs := rest, quota := q, inflight := none, status := s.status.raised .illegal })) ∧
  (∀ s : State, s.inflight = none →
    (s.inputs = [] → step s = .next { s with quota := none }) ∧
    (∀ q rest, s.inputs = .engine q :: rest → step s = .next { s with inputs := rest, quota := q })) ∧
  (∀ (s : State) (x : Transfer) (rest : List Event), s.inputs = .bus x :: rest →
    step s = .next (busTransfer x { s with inputs := rest })) ∧
  (∀ (s : State) (rest : List Event), s.inputs = .hwReset :: rest →
    step s = .next (hardwareReset { s with inputs := rest })) ∧
  (∀ (s : State) (rest : List Event), s.inputs = .powerCycle :: rest →
    step s = .next (powerCycle { s with inputs := rest })) ∧
  (∀ (s : State) (w : BWord) (i : Instr), decode w = .ok i →
    step (s.withFetchWord 32 w.toNat) = exec i { s with
      inflight := some { word := w, accepted := [], consumed := 0 }
      status := { s.status with done := false, err := false, rngWait := false }
      quota := none })

/-- R251: a CMD write is accepted when BUSY = 0 and dropped, with CMD_OVR set, when BUSY = 1. -/
def Obligations.CmdWriteIsAcceptedOrDropped : Prop :=
  ∀ (s : State) (w : BWord),
    (s.busy = false → busTransfer (.write 0x00C 0xF w) s = { s with
      inflight := some { word := w, accepted := [], consumed := 0 }
      status := { s.status with done := false, err := false, rngWait := false }
      busResp := some .writeOk }) ∧
    (s.busy = true → busTransfer (.write 0x00C 0xF w) s = { s with
      status := { s.status with cmdOvr := true }
      busResp := some .writeOk })

/-- R250: only a CMD write starts a command, and it presents the command word; CMD reads as 0. -/
def Obligations.OnlyACmdWriteStartsACommand : Prop :=
  (∀ (s t : State) (c : InFlight), step s = .next t → s.inflight = none → t.inflight = some c →
    ∃ rest, s.inputs = .bus (.write 0x00C 0xF c.word) :: rest) ∧
  (∀ s : State, busTransfer (.read 0x00C 0xF) s = { s with busResp := some (.readOk 0) })

/-- R252, R253, R260, R288: every step and every command answers a next state; a command other than SAMPLE completes in
its one engine turn, and a completion sets DONE, ERR by ERRCODE, and ERROR exactly with a non-zero ERRCODE. The sticky
flags keep their values. -/
def Obligations.EveryTurnAnswersAndOnlySampleMayHold : Prop :=
  (∀ s : State, ∃ t, step s = .next t) ∧
  (∀ (i : Instr) (s : State), ∃ t, exec i s = .next t ∧ (i ≠ .sample → t.inflight = none) ∧
    (t.inflight = none → t.status.done = true ∧ t.status.rngWait = false ∧
      (t.status.err = true ↔ t.status.errCode ≠ .none) ∧ (t.status.result = .error ↔ t.status.errCode ≠ .none)) ∧
    t.status.cmdOvr = s.status.cmdOvr ∧ t.status.hostConflict = s.status.hostConflict ∧
    t.status.rngOvf = s.status.rngOvf)

/-! ## NOP (45_control.md) and the field commands (40_field.md) -/

/-- R240: the only legal NOP word is 0; NOP completes OK in every state and changes nothing but STATUS. -/
def Obligations.NopOnlyCompletes : Prop :=
  (∀ w : BWord, w.toNat % 256 = 0 → decode w = if w = 0 then .ok .nop else .error .mustBeZero) ∧
  (∀ s : State, exec .nop s = .next { s with inflight := none, status := s.status.completed .ok })

/-- R141, R150: FADD writes the exclusive or of its masked operands. -/
def Obligations.FaddWritesTheMaskedXor : Prop :=
  ∀ (s : State) (rd a b : FReg), FieldConfigured s →
    exec (.fadd rd a b) s = .next { s with
      f := s.f.set rd (BitVec.ofNat 16
        ((s.f[a].toNat % 2 ^ s.cfg.paramM.toNat) ^^^ (s.f[b].toNat % 2 ^ s.cfg.paramM.toNat)))
      inflight := none
      status := s.status.completed .ok }

/-- R142, R151: FMUL writes the unique polynomial of degree below M congruent to the product of its masked operands modulo
the field polynomial. -/
def Obligations.FmulWritesTheReducedProduct : Prop :=
  ∀ (s : State) (rd a b : FReg), FieldConfigured s →
    ∃ v : FWord,
      exec (.fmul rd a b) s = .next { s with
        f := s.f.set rd v, inflight := none, status := s.status.completed .ok } ∧
      ∀ u : Nat, u = v.toNat ↔ u < 2 ^ s.cfg.paramM.toNat ∧
        ∃ q, polyOf u = polyOf (s.f[a].toNat % 2 ^ s.cfg.paramM.toNat) *
          polyOf (s.f[b].toNat % 2 ^ s.cfg.paramM.toNat) + q * polyOf s.cfg.fpoly.toNat

/-- R143, R152: FSQR is FMUL of a register with itself: the reduced square. -/
def Obligations.FsqrWritesTheReducedSquare : Prop :=
  ∀ (s : State) (rd a : FReg), FieldConfigured s →
    exec (.fsqr rd a) s = exec (.fmul rd a a) s ∧
    ∃ v : FWord,
      exec (.fsqr rd a) s = .next { s with
        f := s.f.set rd v, inflight := none, status := s.status.completed .ok } ∧
      v.toNat < 2 ^ s.cfg.paramM.toNat ∧
      ∃ q, polyOf v.toNat = polyOf (s.f[a].toNat % 2 ^ s.cfg.paramM.toNat) ^ 2 + q * polyOf s.cfg.fpoly.toNat

/-- R144, R154: FPOW writes the value of R144's recurrence at the full 16-bit exponent. -/
def Obligations.FpowFollowsTheRecurrence : Prop :=
  ∀ (s : State) (rd a b : FReg), FieldConfigured s →
    exec (.fpow rd a b) s = .next { s with
      f := s.f.set rd (BitVec.ofNat 16 (powRec s.field s.f[a].toNat s.f[b].toNat))
      inflight := none
      status := s.status.completed .ok }

/-- R145, R153: FINV writes the power 2^M − 2 by R144's recurrence; it is 0 for 0, and the inverse of every other element
when the field polynomial is irreducible. -/
def Obligations.FinvInvertsInAField : Prop :=
  ∀ (s : State) (rd a : FReg), FieldConfigured s →
    ∃ v : FWord,
      exec (.finv rd a) s = .next { s with
        f := s.f.set rd v, inflight := none, status := s.status.completed .ok } ∧
      v.toNat = powRec s.field s.f[a].toNat (2 ^ s.cfg.paramM.toNat - 2) ∧
      (s.f[a].toNat % 2 ^ s.cfg.paramM.toNat = 0 → v = 0) ∧
      (Irreducible (polyOf s.cfg.fpoly.toNat) → s.f[a].toNat % 2 ^ s.cfg.paramM.toNat ≠ 0 →
        gfMul s.field s.f[a].toNat v.toNat = 1)

/-- R146, R155: FTR writes the sum of the powers 2^i, i < M; it is 0 or 1 when the field polynomial is irreducible. -/
def Obligations.FtrWritesTheTrace : Prop :=
  ∀ (s : State) (rd a : FReg), FieldConfigured s →
    ∃ v : FWord,
      exec (.ftr rd a) s = .next { s with
        f := s.f.set rd v, inflight := none, status := s.status.completed .ok } ∧
      v.toNat = xorSum (fun i => powRec s.field s.f[a].toNat (2 ^ i)) s.cfg.paramM.toNat ∧
      (Irreducible (polyOf s.cfg.fpoly.toNat) → v = 0 ∨ v = 1)

/-- R156, R157: FMOV copies all 16 bits; FLI writes its immediate masked to M bits. -/
def Obligations.FmovCopiesAndFliMasks : Prop :=
  ∀ (s : State) (rd a : FReg) (imm : BitVec 16), FieldConfigured s →
    exec (.fmov rd a) s = .next { s with
      f := s.f.set rd s.f[a], inflight := none, status := s.status.completed .ok } ∧
    exec (.fli rd imm) s = .next { s with
      f := s.f.set rd (BitVec.ofNat 16 (imm.toNat % 2 ^ s.cfg.paramM.toNat))
      inflight := none
      status := s.status.completed .ok }

/-- R158, R91: FLD copies the FM word unchanged; a word no one wrote gives some value, and one draw is used; an address
not below FM_DEPTH is refused with ERR_RANGE. -/
def Obligations.FldCopiesTheFmWord : Prop :=
  ∀ (s : State) (rd : FReg) (addr : BitVec 16), FieldConfigured s →
    (addr.toNat < s.params.fmDepth → ∀ v, s.fm.read? addr.toNat = some v →
      exec (.fld rd addr) s = .next { s with
        f := s.f.set rd v, inflight := none, status := s.status.completed .ok }) ∧
    (addr.toNat < s.params.fmDepth → s.fm.read? addr.toNat = none →
      ∃ v : FWord, exec (.fld rd addr) s = .next { s with
        f := s.f.set rd v, inflight := none, status := s.status.completed .ok, drawNo := s.drawNo + 1 }) ∧
    (s.params.fmDepth ≤ addr.toNat → exec (.fld rd addr) s = .next (s.refusedWith .range))

/-- R159: FST stores the register's 16 bits at the address, every other FM word reads as before and nothing else changes;
an address not below FM_DEPTH is refused with ERR_RANGE. -/
def Obligations.FstStoresOneFmWord : Prop :=
  ∀ (s : State) (rs : FReg) (addr : BitVec 16), FieldConfigured s →
    (addr.toNat < s.params.fmDepth → ∃ t, exec (.fst rs addr) s = .next t ∧
      t = { s with fm := t.fm, inflight := none, status := s.status.completed .ok } ∧
      t.fm.read? addr.toNat = some s.f[rs] ∧ ∀ a, a ≠ addr.toNat → t.fm.read? a = s.fm.read? a) ∧
    (s.params.fmDepth ≤ addr.toNat → exec (.fst rs addr) s = .next (s.refusedWith .range))

/-- R147, R160: PEVAL writes `Σ c_k x^k`, the coefficients read at POLY_BASE or LOC_BASE as its selector says; some value,
and one draw used, where a coefficient is undefined; ERR_CONFIG where the region passes the end of FM. -/
def Obligations.PevalEvaluatesTheSelectedPolynomial : Prop :=
  ∀ (s : State) (rd a : FReg) (sel : BitVec 4) (base : Nat), FieldConfigured s →
    (sel = 0 ∧ base = s.cfg.polyBase.toNat) ∨ (sel = 1 ∧ base = s.cfg.locBase.toNat) →
    (base + (s.cfg.paramT.toNat + 1) ≤ s.params.fmDepth → s.fm.Written base (s.cfg.paramT.toNat + 1) →
      exec (.peval rd a sel) s = .next { s with
        f := s.f.set rd (BitVec.ofNat 16 (s.polyAt base s.cfg.paramT.toNat s.f[a].toNat))
        inflight := none
        status := s.status.completed .ok }) ∧
    (base + (s.cfg.paramT.toNat + 1) ≤ s.params.fmDepth → ¬ s.fm.Written base (s.cfg.paramT.toNat + 1) →
      ∃ v : FWord, exec (.peval rd a sel) s = .next { s with
        f := s.f.set rd v, inflight := none, status := s.status.completed .ok, drawNo := s.drawNo + 1 }) ∧
    (s.params.fmDepth < base + (s.cfg.paramT.toNat + 1) → exec (.peval rd a sel) s = .next (s.refusedWith .config))

/-- R148: the arithmetic laws, for every legal field polynomial. -/
def Obligations.FieldPrimitivesFormARing : Prop :=
  ∀ (fd : GField), fd.Legal → ∀ a b c : Nat,
    (gfAdd fd a b < 2 ^ fd.m ∧ gfMul fd a b < 2 ^ fd.m ∧ gfPow fd a b < 2 ^ fd.m) ∧
    gfAdd fd (gfAdd fd a b) c = gfAdd fd a (gfAdd fd b c) ∧ gfAdd fd a b = gfAdd fd b a ∧
    gfAdd fd a 0 = maskM fd a ∧ gfAdd fd a a = 0 ∧
    gfMul fd (gfMul fd a b) c = gfMul fd a (gfMul fd b c) ∧ gfMul fd a b = gfMul fd b a ∧
    gfMul fd a (gfAdd fd b c) = gfAdd fd (gfMul fd a b) (gfMul fd a c) ∧
    gfMul fd 1 a = maskM fd a ∧ gfMul fd 0 a = 0 ∧
    gfSq fd (gfAdd fd a b) = gfAdd fd (gfSq fd a) (gfSq fd b)

/-! ## The matrix commands (41_matrix.md) -/

/-- R180, R181, R87: HBUILD writes the matrix of R181 with zero padding, and nothing else; it reports RETRY exactly if a
support point is a root of g. -/
def Obligations.HbuildWritesTheGoppaMatrix : Prop :=
  ∀ s : State, CodeConfigured s →
    RegionsAccepted s.params
      [⟨.fm, s.cfg.suppBase.toNat, s.pN⟩, ⟨.fm, s.cfg.polyBase.toNat, s.pT + 1⟩]
      [⟨.bm, s.cfg.hBase.toNat, s.pR * s.cfg.hStride.toNat⟩] [(s.cfg.hStride.toNat, s.nw)] →
    s.fm.Written s.cfg.suppBase.toNat s.pN → s.fm.Written s.cfg.polyBase.toNat (s.pT + 1) →
    let point := fun j => s.elemAt (s.cfg.suppBase.toNat + j)
    let g := fun x => s.polyAt s.cfg.polyBase.toNat s.pT x
    ∃ t, exec .hbuild s = .next t ∧
      ((∃ j < s.pN, g (point j) = 0) → t = { s.finished .retry with bm := t.bm }) ∧
      ((∀ j < s.pN, g (point j) ≠ 0) → t = { s.finished .ok with bm := t.bm }) ∧
      (∀ i < s.pT, ∀ b < s.pM, ∀ j < s.pN,
        t.bm.bit? (s.cfg.hBase.toNat + (i * s.pM + b) * s.cfg.hStride.toNat) j =
          some ((gfMul s.field (powRec s.field (point j) i)
            (powRec s.field (g (point j)) (2 ^ s.pM - 2))).testBit b)) ∧
      (∀ r < s.pR, ∀ j, s.pN ≤ j → j < 32 * s.cfg.hStride.toNat →
        t.bm.bit? (s.cfg.hBase.toNat + r * s.cfg.hStride.toNat) j = some false) ∧
      SameBmOutside s.cfg.hBase.toNat (s.pR * s.cfg.hStride.toNat) s t

/-- R182 to R184: GAUSS stops before column `stop`: R if it ends OK, else RETRY. Up to there it swaps columns c and j exactly
where column c of the permuted H0 is in the span of those before it, j being the least column of the window outside that
span; it ends RETRY exactly where no such j is left, PIV_MAX swaps are used or pivoting is off. It logs the swaps, counts
them in PERMCNT and permutes the support with them; on OK the H region holds an identity block, zero padding, and a
matrix with the kernel of the permuted H0, on RETRY some value. Nothing else changes. -/
def Obligations.GaussReducesThePermutedMatrix : Prop :=
  ∀ s : State, CodeConfigured s →
    RegionsAccepted s.params []
      (if s.cfg.pivotEn then
        [⟨.bm, s.cfg.hBase.toNat, s.pR * s.cfg.hStride.toNat⟩, ⟨.fm, s.cfg.suppBase.toNat, s.pN⟩,
         ⟨.fm, s.cfg.permBase.toNat, 2 * s.pivMax⟩]
       else [⟨.bm, s.cfg.hBase.toNat, s.pR * s.cfg.hStride.toNat⟩]) [(s.cfg.hStride.toNat, s.nw)] →
    s.bm.RowsWritten s.cfg.hBase.toNat s.cfg.hStride.toNat s.pR s.pN →
    (s.cfg.pivotEn = true → s.fm.Written s.cfg.suppBase.toNat s.pN) →
    let row := fun r => s.cfg.hBase.toNat + r * s.cfg.hStride.toNat
    let last := fun c => min (c + s.pivW) (s.pN - 1)
    ∃ (t : State) (swaps : List (Nat × Nat)) (stop : Nat), exec .gauss s = .next t ∧
      swaps.Pairwise (fun x y => x.1 < y.1) ∧ stop ≤ s.pR ∧
      (∀ x ∈ swaps, x.1 < stop ∧ x.1 < x.2 ∧ x.2 ≤ last x.1 ∧
        s.InSpan (swapsBefore swaps x.1) x.1 x.1 ∧ ¬ s.InSpan (swapsBefore swaps x.1) x.1 x.2 ∧
        ∀ k, x.1 < k → k < x.2 → s.InSpan (swapsBefore swaps x.1) x.1 k) ∧
      (∀ c < stop, (∀ x ∈ swaps, x.1 ≠ c) → ¬ s.InSpan (swapsBefore swaps c) c c) ∧
      swaps.length ≤ s.pivMax ∧ (s.cfg.pivotEn = false → swaps = []) ∧ t.permCnt.toNat = swaps.length ∧
      (∀ k x, swaps[k]? = some x →
        t.fm.read? (s.cfg.permBase.toNat + 2 * k) = some (BitVec.ofNat 16 x.1) ∧
        t.fm.read? (s.cfg.permBase.toNat + 2 * k + 1) = some (BitVec.ofNat 16 x.2)) ∧
      (∀ i < s.pN, t.fm.read? (s.cfg.suppBase.toNat + i) =
        s.fm.read? (s.cfg.suppBase.toNat + sourceColumn swaps i)) ∧
      (∀ a, a < s.cfg.suppBase.toNat ∨ s.cfg.suppBase.toNat + s.pN ≤ a →
        a < s.cfg.permBase.toNat ∨ s.cfg.permBase.toNat + 2 * swaps.length ≤ a → t.fm.read? a = s.fm.read? a) ∧
      SameBmOutside s.cfg.hBase.toNat (s.pR * s.cfg.hStride.toNat) s t ∧
      ((t = { s.finished .retry with permCnt := t.permCnt, fm := t.fm, bm := t.bm, drawNo := t.drawNo } ∧
        stop < s.pR ∧ s.InSpan swaps stop stop ∧
        (s.cfg.pivotEn = false ∨ swaps.length = s.pivMax ∨
          ∀ j, stop < j → j ≤ last stop → s.InSpan swaps stop j) ∧
        t.bm.Written s.cfg.hBase.toNat (s.pR * s.cfg.hStride.toNat)) ∨
       (t = { s.finished .ok with permCnt := t.permCnt, fm := t.fm, bm := t.bm } ∧ stop = s.pR ∧
        (∀ r < s.pR, ∀ c < s.pR, t.bm.bit? (row r) c = some (decide (r = c))) ∧
        (∀ r < s.pR, ∀ c, s.pN ≤ c → c < 32 * s.cfg.hStride.toNat → t.bm.bit? (row r) c = some false) ∧
        (∀ v : Nat → Bool,
          (∀ r < s.pR, xorBits (fun c => t.bm.bitOf (row r) c && v c) s.pN = false) ↔
          (∀ r < s.pR, xorBits (fun c => s.permutedBit swaps r c && v c) s.pN = false))))

/-- R182 to R184, R259: GAUSS and the left block of H. If its columns are independent, GAUSS ends OK with no swap, whatever
the pivoting; if they are not, then with pivoting off, PIV_W = 0 or PIV_MAX = 0 it ends RETRY with no swap. An H whose left
block is the identity is left unchanged. In those three configurations GAUSS writes no FM word, H written or not. That the
support need not have been written is the model's reading (DEDUCED, log entry 22): R182's "reads the two extra regions" is
taken as their region checks, since R184 reads a support word only at a swap; U3 would draw where GAUSS read one that no one
wrote. -/
def Obligations.GaussWithoutPivotingReducesInvertibleBlocks : Prop :=
  (∀ s : State, CodeConfigured s →
    RegionsAccepted s.params []
      (if s.cfg.pivotEn then
        [⟨.bm, s.cfg.hBase.toNat, s.pR * s.cfg.hStride.toNat⟩, ⟨.fm, s.cfg.suppBase.toNat, s.pN⟩,
         ⟨.fm, s.cfg.permBase.toNat, 2 * s.pivMax⟩]
       else [⟨.bm, s.cfg.hBase.toNat, s.pR * s.cfg.hStride.toNat⟩]) [(s.cfg.hStride.toNat, s.nw)] →
    s.bm.RowsWritten s.cfg.hBase.toNat s.cfg.hStride.toNat s.pR s.pN →
    let row := fun r => s.cfg.hBase.toNat + r * s.cfg.hStride.toNat
    let independent := ∀ v : Nat → Bool,
      (∀ r < s.pR, xorBits (fun c => s.bm.bitOf (row r) c && v c) s.pR = false) → ∀ c < s.pR, v c = false
    ∃ t, exec .gauss s = .next t ∧
      (independent → t = { s.finished .ok with permCnt := 0, bm := t.bm }) ∧
      (¬ independent → s.cfg.pivotEn = false ∨ s.pivW = 0 ∨ s.pivMax = 0 →
        t = { s.finished .retry with permCnt := 0, bm := t.bm, drawNo := t.drawNo }) ∧
      ((∀ r < s.pR, ∀ c < s.pR, s.bm.bitOf (row r) c = decide (r = c)) →
        ∀ r < s.pR, ∀ c < s.pN, t.bm.bit? (row r) c = s.bm.bit? (row r) c)) ∧
  (∀ s t : State, exec .gauss s = .next t → s.cfg.pivotEn = false ∨ s.pivW = 0 ∨ s.pivMax = 0 → t.fm = s.fm)

/-- R186, R87: PKEXT copies columns R to R+K−1 of H into the rows of T with zero padding, and changes nothing else. -/
def Obligations.PkextCopiesTheRightBlock : Prop :=
  ∀ s : State, CodeConfigured s →
    RegionsAccepted s.params [⟨.bm, s.cfg.hBase.toNat, s.pR * s.cfg.hStride.toNat⟩]
      [⟨.bm, s.cfg.pkBase.toNat, s.pR * s.cfg.pkStride.toNat⟩]
      [(s.cfg.hStride.toNat, s.nw), (s.cfg.pkStride.toNat, s.kw)] →
    (∀ r < s.pR, ∀ c < s.pK, (s.bm.bit? (s.cfg.hBase.toNat + r * s.cfg.hStride.toNat) (s.pR + c)).isSome = true) →
    ∃ t, exec .pkext s = .next t ∧ t = { s.finished .ok with bm := t.bm } ∧
      (∀ r < s.pR, ∀ c < s.pK,
        t.bm.bit? (s.cfg.pkBase.toNat + r * s.cfg.pkStride.toNat) c =
          s.bm.bit? (s.cfg.hBase.toNat + r * s.cfg.hStride.toNat) (s.pR + c)) ∧
      (∀ r < s.pR, ∀ c, s.pK ≤ c → c < 32 * s.cfg.pkStride.toNat →
        t.bm.bit? (s.cfg.pkBase.toNat + r * s.cfg.pkStride.toNat) c = some false) ∧
      SameBmOutside s.cfg.pkBase.toNat (s.pR * s.cfg.pkStride.toNat) s t

/-! ## SYND (43_syndrome.md) and SAMPLE (42_sampler.md) -/

/-- R210, R87: SYND writes the product of the matrix its MODE selects and e, R bits with zero padding, where its OUT says,
and changes nothing else. -/
def Obligations.SyndWritesTheMatrixVectorProduct : Prop :=
  ∀ (s : State) (out : Nat), CodeConfigured s → s.bm.Written s.cfg.eBase.toNat s.nw →
    (∀ flags : BitVec 4, flags = 0 ∧ out = s.cfg.sBase.toNat ∨ flags = 2 ∧ out = s.cfg.s2Base.toNat →
      RegionsAccepted s.params
        [⟨.bm, s.cfg.eBase.toNat, s.nw⟩, ⟨.bm, s.cfg.hBase.toNat, s.pR * s.cfg.hStride.toNat⟩]
        [⟨.bm, out, s.rw⟩] [(s.cfg.hStride.toNat, s.nw)] →
      s.bm.RowsWritten s.cfg.hBase.toNat s.cfg.hStride.toNat s.pR s.pN →
      ∃ t, exec (.synd flags) s = .next t ∧ t = { s.finished .ok with bm := t.bm } ∧
        (∀ r < s.pR, t.bm.bit? out r = some (xorBits (fun c =>
          s.bm.bitOf (s.cfg.hBase.toNat + r * s.cfg.hStride.toNat) c && s.bm.bitOf s.cfg.eBase.toNat c) s.pN)) ∧
        (∀ r, s.pR ≤ r → r < 32 * s.rw → t.bm.bit? out r = some false) ∧ SameBmOutside out s.rw s t) ∧
    (∀ flags : BitVec 4, flags = 1 ∧ out = s.cfg.sBase.toNat ∨ flags = 3 ∧ out = s.cfg.s2Base.toNat →
      RegionsAccepted s.params
        [⟨.bm, s.cfg.eBase.toNat, s.nw⟩, ⟨.bm, s.cfg.pkBase.toNat, s.pR * s.cfg.pkStride.toNat⟩]
        [⟨.bm, out, s.rw⟩] [(s.cfg.pkStride.toNat, s.kw)] →
      s.bm.RowsWritten s.cfg.pkBase.toNat s.cfg.pkStride.toNat s.pR s.pK →
      ∃ t, exec (.synd flags) s = .next t ∧ t = { s.finished .ok with bm := t.bm } ∧
        (∀ r < s.pR, t.bm.bit? out r = some (s.bm.bitOf s.cfg.eBase.toNat r ^^ xorBits (fun c =>
          s.bm.bitOf (s.cfg.pkBase.toNat + r * s.cfg.pkStride.toNat) c &&
          s.bm.bitOf s.cfg.eBase.toNat (s.pR + c)) s.pK)) ∧
        (∀ r, s.pR ≤ r → r < 32 * s.rw → t.bm.bit? out r = some false) ∧ SameBmOutside out s.rw s t)

/-- R211: if the H region holds `[I_R | T]` and the PK region holds T, the two modes give the same state for every e; and
the syndrome of the sum of two vectors is the sum of their syndromes. -/
def Obligations.SyndModesAgreeAndAreLinear : Prop :=
  (∀ s : State, CodeConfigured s → s.bm.Written s.cfg.eBase.toNat s.nw →
    s.bm.RowsWritten s.cfg.hBase.toNat s.cfg.hStride.toNat s.pR s.pN →
    s.bm.RowsWritten s.cfg.pkBase.toNat s.cfg.pkStride.toNat s.pR s.pK →
    RegionsAccepted s.params
      [⟨.bm, s.cfg.eBase.toNat, s.nw⟩, ⟨.bm, s.cfg.hBase.toNat, s.pR * s.cfg.hStride.toNat⟩]
      [⟨.bm, s.cfg.sBase.toNat, s.rw⟩] [(s.cfg.hStride.toNat, s.nw)] →
    RegionsAccepted s.params
      [⟨.bm, s.cfg.eBase.toNat, s.nw⟩, ⟨.bm, s.cfg.pkBase.toNat, s.pR * s.cfg.pkStride.toNat⟩]
      [⟨.bm, s.cfg.sBase.toNat, s.rw⟩] [(s.cfg.pkStride.toNat, s.kw)] →
    (∀ r < s.pR, ∀ c < s.pR,
      s.bm.bitOf (s.cfg.hBase.toNat + r * s.cfg.hStride.toNat) c = decide (r = c)) →
    (∀ r < s.pR, ∀ c < s.pK,
      s.bm.bitOf (s.cfg.hBase.toNat + r * s.cfg.hStride.toNat) (s.pR + c) =
      s.bm.bitOf (s.cfg.pkBase.toNat + r * s.cfg.pkStride.toNat) c) →
    ∃ t, exec (.synd 0) s = .next t ∧ exec (.synd 1) s = .next t ∧ t.status.result = .ok) ∧
  (∀ (s0 s1 s2 : State) (flags : BitVec 4) (matrix : Region) (stride : Nat × Nat), CodeConfigured s0 →
    (flags = 0 ∧ matrix = ⟨.bm, s0.cfg.hBase.toNat, s0.pR * s0.cfg.hStride.toNat⟩ ∧
      stride = (s0.cfg.hStride.toNat, s0.nw) ∨
     flags = 1 ∧ matrix = ⟨.bm, s0.cfg.pkBase.toNat, s0.pR * s0.cfg.pkStride.toNat⟩ ∧
      stride = (s0.cfg.pkStride.toNat, s0.kw)) →
    RegionsAccepted s0.params [⟨.bm, s0.cfg.eBase.toNat, s0.nw⟩, matrix] [⟨.bm, s0.cfg.sBase.toNat, s0.rw⟩] [stride] →
    s1.params = s0.params → s2.params = s0.params → s1.cfg = s0.cfg → s2.cfg = s0.cfg →
    (∀ u ∈ [s0, s1, s2], u.bm.Written s0.cfg.eBase.toNat s0.nw ∧ u.bm.Written matrix.first matrix.len ∧
      ∀ a, matrix.Has .bm a → u.bm.read? a = s0.bm.read? a) →
    (∀ j < s0.pN, s2.bm.bitOf s0.cfg.eBase.toNat j =
      (s0.bm.bitOf s0.cfg.eBase.toNat j ^^ s1.bm.bitOf s0.cfg.eBase.toNat j)) →
    ∃ t0 t1 t2, exec (.synd flags) s0 = .next t0 ∧ exec (.synd flags) s1 = .next t1 ∧
      exec (.synd flags) s2 = .next t2 ∧
      ∀ r < s0.pR, t2.bm.bitOf s0.cfg.sBase.toNat r =
        (t0.bm.bitOf s0.cfg.sBase.toNat r ^^ t1.bm.bitOf s0.cfg.sBase.toNat r))

/-- R200: SAMPLE, just accepted, ends OK at the first word that brings the accepted indices to T; e has a 1 exactly at
them, DRAWS counts the words, the words behind stay in the FIFO, and nothing else changes. -/
def Obligations.SampleWritesTheFirstTIndices : Prop :=
  ∀ (s : State) (k : Nat), CodeConfigured s →
    RegionsAccepted s.params [] [⟨.bm, s.cfg.eBase.toNat, s.nw⟩] [] →
    s.inflight = some { word := 0x14, accepted := [], consumed := 0 } → s.quota = none →
    k ≤ s.rng.length → k ≤ s.cfg.sampleMax.toNat →
    (s.indicesAfter k).card = s.pT → (∀ k' < k, (s.indicesAfter k').card < s.pT) →
    ∃ t, exec .sample s = .next t ∧
      t = { s.finished .ok with bm := t.bm, draws := BitVec.ofNat 32 k, rng := s.rng.drop k } ∧
      (∀ j < s.pN, t.bm.bit? s.cfg.eBase.toNat j = some (decide (j ∈ s.indicesAfter k))) ∧
      (∀ j, s.pN ≤ j → j < 32 * s.nw → t.bm.bit? s.cfg.eBase.toNat j = some false) ∧
      SameBmOutside s.cfg.eBase.toNat s.nw s t

/-- R200, R202, R259: SAMPLE, just accepted, ends RETRY when SAMPLE_MAX words leave it short of T indices: e is all zero,
DRAWS is SAMPLE_MAX, and exactly those words are gone. -/
def Obligations.SampleRetriesAtTheBound : Prop :=
  ∀ s : State, CodeConfigured s →
    RegionsAccepted s.params [] [⟨.bm, s.cfg.eBase.toNat, s.nw⟩] [] →
    s.inflight = some { word := 0x14, accepted := [], consumed := 0 } → s.quota = none →
    s.cfg.sampleMax.toNat ≤ s.rng.length → (s.indicesAfter s.cfg.sampleMax.toNat).card < s.pT →
    ∃ t, exec .sample s = .next t ∧
      t = { s.finished .retry with
        bm := t.bm, draws := s.cfg.sampleMax, rng := s.rng.drop s.cfg.sampleMax.toNat } ∧
      (∀ j < 32 * s.nw, t.bm.bit? s.cfg.eBase.toNat j = some false) ∧ SameBmOutside s.cfg.eBase.toNat s.nw s t

/-- R201: SAMPLE, just accepted, with too few words to end, consumes them all, sets RNG_WAIT and stays in flight with the
indices accepted so far; nothing else changes. -/
def Obligations.SampleWaitsForWords : Prop :=
  ∀ s : State, CodeConfigured s →
    RegionsAccepted s.params [] [⟨.bm, s.cfg.eBase.toNat, s.nw⟩] [] →
    s.inflight = some { word := 0x14, accepted := [], consumed := 0 } → s.quota = none →
    s.rng.length < s.cfg.sampleMax.toNat → (s.indicesAfter s.rng.length).card < s.pT →
    ∃ (t : State) (c : InFlight), exec .sample s = .next t ∧ t.inflight = some c ∧
      t = { s with rng := [], inflight := some c, status := { s.status with rngWait := true } } ∧
      c.word = 0x14 ∧ c.consumed = s.rng.length ∧ c.accepted.Nodup ∧ c.accepted.toFinset = s.indicesAfter s.rng.length

/-- R200, R201, U5: how the words are spread over engine turns does not show: a SAMPLE that a bounded turn leaves waiting
and a later turn resumes ends as one unbounded turn would have. -/
def Obligations.SampleTurnsCompose : Prop :=
  ∀ (s t : State) (q : Nat), exec .sample { s with quota := some q } = .next t → t.busy = true →
    exec .sample { t with quota := none } = exec .sample { s with quota := none }

/-- R202: a SAMPLE that ends OK, resumed or not, leaves e with weight exactly T. The premise is the invariant of
`StepKeepsTheInvariant`. -/
def Obligations.SampledVectorHasWeightT : Prop :=
  ∀ s t : State, s.Inv → exec .sample s = .next t → t.inflight = none → t.status.result = .ok →
    countBits (fun j => t.bm.bitOf s.cfg.eBase.toNat j) s.pN = s.pT

/-! ## The decoder (44_decode.md) -/

/-- R220: DSYND writes `s_j = Σ_i v_i α_i^j / g(α_i)^2`, j < 2T, of (C, 0^K) into set 0 or of e into set 1, and changes
nothing else. -/
def Obligations.DsyndWritesTheDoubledSyndrome : Prop :=
  ∀ (s : State) (flags : BitVec 4) (v : Nat → Bool) (input : Region) (out : Nat), CodeConfigured s →
    (flags = 0 ∧ (∀ i, v i = (decide (i < s.pR) && s.bm.bitOf s.cfg.sBase.toNat i)) ∧
      input = ⟨.bm, s.cfg.sBase.toNat, s.rw⟩ ∧ out = s.cfg.scrBase.toNat ∨
     flags = 1 ∧ (∀ i, v i = s.bm.bitOf s.cfg.eBase.toNat i) ∧
      input = ⟨.bm, s.cfg.eBase.toNat, s.nw⟩ ∧ out = s.cfg.scrBase.toNat + 2 * s.pT) →
    RegionsAccepted s.params
      [⟨.fm, s.cfg.suppBase.toNat, s.pN⟩, ⟨.fm, s.cfg.polyBase.toNat, s.pT + 1⟩, input]
      [⟨.fm, out, 2 * s.pT⟩] [] →
    s.fm.Written s.cfg.suppBase.toNat s.pN → s.fm.Written s.cfg.polyBase.toNat (s.pT + 1) →
    s.bm.Written input.first input.len →
    let point := fun i => s.elemAt (s.cfg.suppBase.toNat + i)
    let g := fun x => s.polyAt s.cfg.polyBase.toNat s.pT x
    ∃ t, exec (.dsynd flags) s = .next t ∧ t = { s.finished .ok with fm := t.fm } ∧
      (∀ j < 2 * s.pT, t.fm.read? (out + j) = some (BitVec.ofNat 16 (xorSum (fun i =>
        if v i then gfMul s.field (powRec s.field (point i) j)
          (powRec s.field (gfMul s.field (g (point i)) (g (point i))) (2 ^ s.pM - 2)) else 0) s.pN))) ∧
      SameFmOutside out (2 * s.pT) s t

/-- R221: BM writes R221's C reversed and BM_L = L, after exactly 2T iterations over set 0, and changes nothing else. The
locator's leading coefficient is 1, and all-zero syndromes give `σ(x) = x^T` and BM_L = 0. -/
def Obligations.BmRunsTheRecurrence : Prop :=
  ∀ s : State, CodeConfigured s →
    RegionsAccepted s.params [⟨.fm, s.cfg.scrBase.toNat, 2 * s.pT⟩] [⟨.fm, s.cfg.locBase.toNat, s.pT + 1⟩] [] →
    s.fm.Written s.cfg.scrBase.toNat (2 * s.pT) →
    let out := bmLoop s.field s.pT (fun j => s.elemAt (s.cfg.scrBase.toNat + j)) (2 * s.pT)
    ∃ t, exec .bm s = .next t ∧ t = { s.finished .ok with fm := t.fm, bmL := BitVec.ofNat 17 out.l } ∧
      (∀ k ≤ s.pT, t.fm.read? (s.cfg.locBase.toNat + k) = some (BitVec.ofNat 16 (out.c (s.pT - k)))) ∧
      SameFmOutside s.cfg.locBase.toNat (s.pT + 1) s t ∧
      t.fm.read? (s.cfg.locBase.toNat + s.pT) = some 1 ∧
      ((∀ j < 2 * s.pT, s.elemAt (s.cfg.scrBase.toNat + j) = 0) →
        t.bmL = 0 ∧ ∀ k < s.pT, t.fm.read? (s.cfg.locBase.toNat + k) = some 0)

/-- R222, R87: ROOTS writes a 1 at every support position whose point is a root of the locator, and no other, with zero
padding, and changes nothing else. -/
def Obligations.RootsMarksTheLocatorsRoots : Prop :=
  ∀ s : State, CodeConfigured s →
    RegionsAccepted s.params
      [⟨.fm, s.cfg.suppBase.toNat, s.pN⟩, ⟨.fm, s.cfg.locBase.toNat, s.pT + 1⟩] [⟨.bm, s.cfg.eBase.toNat, s.nw⟩] [] →
    s.fm.Written s.cfg.suppBase.toNat s.pN → s.fm.Written s.cfg.locBase.toNat (s.pT + 1) →
    ∃ t, exec .roots s = .next t ∧ t = { s.finished .ok with bm := t.bm } ∧
      (∀ i < s.pN, t.bm.bit? s.cfg.eBase.toNat i =
        some (decide (s.polyAt s.cfg.locBase.toNat s.pT (s.elemAt (s.cfg.suppBase.toNat + i)) = 0))) ∧
      (∀ i, s.pN ≤ i → i < 32 * s.nw → t.bm.bit? s.cfg.eBase.toNat i = some false) ∧
      SameBmOutside s.cfg.eBase.toNat s.nw s t

/-- R223, R35, R36: CHECK completes OK whatever it concludes; it writes the weight of e and the three verdict bits to CHK and
all ones or zero to MASK, and changes nothing else. -/
def Obligations.CheckReportsWeightAndEquality : Prop :=
  ∀ (s : State) (flags : BitVec 4) (inputs : List Region) (same : Prop), CodeConfigured s →
    (flags = 0 ∧ inputs = [⟨.bm, s.cfg.eBase.toNat, s.nw⟩, ⟨.bm, s.cfg.sBase.toNat, s.rw⟩,
        ⟨.bm, s.cfg.s2Base.toNat, s.rw⟩] ∧
      (same ↔ ∀ r < s.pR, s.bm.bitOf s.cfg.sBase.toNat r = s.bm.bitOf s.cfg.s2Base.toNat r) ∨
     flags = 1 ∧ inputs = [⟨.bm, s.cfg.eBase.toNat, s.nw⟩, ⟨.fm, s.cfg.scrBase.toNat, 4 * s.pT⟩] ∧
      (same ↔ ∀ j < 2 * s.pT, s.elemAt (s.cfg.scrBase.toNat + j) = s.elemAt (s.cfg.scrBase.toNat + 2 * s.pT + j))) →
    RegionsAccepted s.params inputs [] [] →
    (∀ r ∈ inputs, ∀ a, (r.Has .fm a → (s.fm.read? a).isSome = true) ∧ (r.Has .bm a → (s.bm.read? a).isSome = true)) →
    let weight := countBits (fun i => s.bm.bitOf s.cfg.eBase.toNat i) s.pN
    ∃ (t : State) (weq eq ok : Nat), exec (.check flags) s = .next t ∧
      t = { s.finished .ok with chk := t.chk, mask := t.mask } ∧
      (weq = 1 ↔ weight = s.pT) ∧ (eq = 1 ↔ same) ∧ ok = weq * eq ∧ weq ≤ 1 ∧ eq ≤ 1 ∧
      t.chk.toNat = weight + 2 ^ 29 * weq + 2 ^ 30 * eq + 2 ^ 31 * ok ∧
      t.mask = if ok = 1 then 0xFFFFFFFF else 0

/-! ## Errors (60_exceptions.md section 2) -/

/-- R256: a command that ends in ERROR changes no state except STATUS, against the state before acceptance too. -/
def Obligations.ErrorsArePrecise : Prop :=
  (∀ (i : Instr) (s t : State), exec i s = .next t → t.inflight = none → t.status.result = .error →
    t = { s with inflight := none, status := s.status.raised t.status.errCode } ∧ t.status.errCode ≠ .none) ∧
  (∀ (s t : State) (w : BWord), s.inflight = none → engineTurn (accept w s) = .next t → t.inflight = none →
    t.status.result = .error → t = { s with status := t.status })

/-- R149, R254, R255, R257, R258: which error a completing command reports: ERR_ILLEGAL for an ill-formed one; ERR_CONFIG for
a legal one other than NOP whose field check, code check (block commands) or region checks (block commands and PEVAL)
fail; ERR_RANGE for FLD and FST at an address not below FM_DEPTH that pass the field check; else none. The regions and
strides are those of R158 to R160, R180, R182, R186, R200, R210 and R220 to R223, and `footprint`, in which other
statements are written, names the same ones. -/
def Obligations.ErrorCodeFollowsTheChecks : Prop :=
  ∀ (i : Instr) (s : State),
    let support : Region := ⟨.fm, s.cfg.suppBase.toNat, s.pN⟩
    let generator : Region := ⟨.fm, s.cfg.polyBase.toNat, s.pT + 1⟩
    let locator : Region := ⟨.fm, s.cfg.locBase.toNat, s.pT + 1⟩
    let h : Region := ⟨.bm, s.cfg.hBase.toNat, s.pR * s.cfg.hStride.toNat⟩
    let pk : Region := ⟨.bm, s.cfg.pkBase.toNat, s.pR * s.cfg.pkStride.toNat⟩
    let e : Region := ⟨.bm, s.cfg.eBase.toNat, s.nw⟩
    let c : Region := ⟨.bm, s.cfg.sBase.toNat, s.rw⟩
    let c2 : Region := ⟨.bm, s.cfg.s2Base.toNat, s.rw⟩
    let set0 : Region := ⟨.fm, s.cfg.scrBase.toNat, 2 * s.pT⟩
    let set1 : Region := ⟨.fm, s.cfg.scrBase.toNat + 2 * s.pT, 2 * s.pT⟩
    let named : Footprint := match i with
      | .nop | .fadd _ _ _ | .fmul _ _ _ | .fsqr _ _ | .finv _ _ | .fpow _ _ _ | .ftr _ _ | .fmov _ _ | .fli _ _ =>
        ⟨[], [], []⟩
      | .fld _ addr => ⟨[⟨.fm, addr.toNat, 1⟩], [], []⟩
      | .fst _ addr => ⟨[], [⟨.fm, addr.toNat, 1⟩], []⟩
      | .peval _ _ sel => ⟨[if sel = 0 then generator else locator], [], []⟩
      | .hbuild => ⟨[support, generator], [h], [(s.cfg.hStride.toNat, s.nw)]⟩
      | .gauss => ⟨[], h :: (if s.cfg.pivotEn then [support, ⟨.fm, s.cfg.permBase.toNat, 2 * s.pivMax⟩] else []),
          [(s.cfg.hStride.toNat, s.nw)]⟩
      | .pkext => ⟨[h], [pk], [(s.cfg.hStride.toNat, s.nw), (s.cfg.pkStride.toNat, s.kw)]⟩
      | .synd flags =>
        if flags = 0 then ⟨[e, h], [c], [(s.cfg.hStride.toNat, s.nw)]⟩
        else if flags = 1 then ⟨[e, pk], [c], [(s.cfg.pkStride.toNat, s.kw)]⟩
        else if flags = 2 then ⟨[e, h], [c2], [(s.cfg.hStride.toNat, s.nw)]⟩
        else ⟨[e, pk], [c2], [(s.cfg.pkStride.toNat, s.kw)]⟩
      | .sample => ⟨[], [e], []⟩
      | .dsynd flags => if flags = 0 then ⟨[support, generator, c], [set0], []⟩ else ⟨[support, generator, e], [set1], []⟩
      | .bm => ⟨[set0], [locator], []⟩
      | .roots => ⟨[support, locator], [e], []⟩
      | .check flags =>
        if flags = 0 then ⟨[e, c, c2], [], []⟩ else ⟨[e, ⟨.fm, s.cfg.scrBase.toNat, 4 * s.pT⟩], [], []⟩
    (i.wellFormed = true → footprint s i = named) ∧
    ∀ t, exec i s = .next t → t.inflight = none →
    (t.status.errCode = .illegal ↔ i.wellFormed = false) ∧
    (t.status.errCode = .config ↔ i.wellFormed = true ∧ opcodeOf i ≠ 0 ∧
      (¬ FieldConfigured s ∨ (IsBlockCommand i ∧ ¬ CodeConfigured s) ∨
       ((IsBlockCommand i ∨ opcodeOf i = 0x0B) ∧ ¬ RegionsAccepted s.params named.reads named.writes named.strides))) ∧
    (t.status.errCode = .range ↔ FieldConfigured s ∧
      ∃ (r : FReg) (addr : BitVec 16), (i = .fld r addr ∨ i = .fst r addr) ∧ s.params.fmDepth ≤ addr.toNat)

/-- R253, R259: only HBUILD, GAUSS and SAMPLE end in RETRY. -/
def Obligations.OnlyKeyGenerationAndSamplingRetry : Prop :=
  ∀ (i : Instr) (s t : State), exec i s = .next t → t.inflight = none → t.status.result = .retry →
    i = .hbuild ∨ i = .gauss ∨ i = .sample

/-! ## What commands leave alone -/

/-- R47: no command writes the configuration, base, stride and pointer registers, the enables or the host's side. -/
def Obligations.CommandsLeaveControlAlone : Prop :=
  ∀ (i : Instr) (s t : State), exec i s = .next t → SameControl s t

/-- R22, R35 to R39, R48, R149: the writers of each register: a field command writes at most its rd (FST none), CHECK alone
CHK and MASK, GAUSS PERMCNT, BM BM_L, SAMPLE DRAWS; only SAMPLE consumes random words, from the head, in order. -/
def Obligations.RegistersHaveOnlyTheirWriters : Prop :=
  ∀ (i : Instr) (s t : State), exec i s = .next t →
    (∀ r : FReg, t.f[r] ≠ s.f[r] → IsFieldCommand i ∧ opcodeOf i ≠ 0x0A ∧ r.val = (encode i).toNat / 256 % 16) ∧
    (t.chk ≠ s.chk ∨ t.mask ≠ s.mask → opcodeOf i = 0x18) ∧ (t.permCnt ≠ s.permCnt → opcodeOf i = 0x11) ∧
    (t.bmL ≠ s.bmL → opcodeOf i = 0x16) ∧ (t.draws ≠ s.draws → opcodeOf i = 0x14) ∧
    (t.rng ≠ s.rng → opcodeOf i = 0x14 ∧ ∃ k, t.rng = s.rng.drop k)

/-- R83 to R86, R159: every FM and BM word outside the regions a command writes reads as before. -/
def Obligations.CommandsWriteOnlyTheirRegions : Prop :=
  ∀ (i : Instr) (s t : State) (a : Nat), exec i s = .next t →
    ((∀ r ∈ (footprint s i).writes, ¬ r.Has .fm a) → t.fm.read? a = s.fm.read? a) ∧
    ((∀ r ∈ (footprint s i).writes, ¬ r.Has .bm a) → t.bm.read? a = s.bm.read? a)

/-- R87, R91, R259: a command that completes without an error leaves every word of every region it writes holding a value,
whether or not its inputs were written; of GAUSS this is said of the H region only (R184 writes the swapped support words
and the log entries used). -/
def Obligations.CompletedCommandsWriteTheirWholeRegions : Prop :=
  ∀ (i : Instr) (s t : State) (a : Nat), exec i s = .next t → t.inflight = none → t.status.result ≠ .error →
    (i ≠ .gauss → (∃ r ∈ (footprint s i).writes, r.Has .fm a) → (t.fm.read? a).isSome = true) ∧
    ((∃ r ∈ (footprint s i).writes, r.Has .bm a) → (t.bm.read? a).isSome = true)

/-- R48, R94, R225: what a command that draws no free value leaves behind depends only on the registers, the FIFO and the
words of its own regions: two states that agree on those end alike. -/
def Obligations.CommandsReadOnlyTheirRegions : Prop :=
  ∀ (i : Instr) (s s' t t' : State), exec i s = .next t → exec i s' = .next t' → t.drawNo = s.drawNo →
    s'.params = s.params → s'.cfg = s.cfg → s'.f = s.f → s'.rng = s.rng → s'.inflight = s.inflight →
    s'.quota = s.quota → s'.status = s.status → s'.drawNo = s.drawNo → SameResults s s' →
    (∀ r ∈ (footprint s i).reads ++ (footprint s i).writes, ∀ a,
      (r.Has .fm a → s'.fm.read? a = s.fm.read? a) ∧ (r.Has .bm a → s'.bm.read? a = s.bm.read? a)) →
    t'.f = t.f ∧ t'.rng = t.rng ∧ t'.inflight = t.inflight ∧ t'.status = t.status ∧ t'.drawNo = t.drawNo ∧
    SameResults t t' ∧
    (∀ r ∈ (footprint s i).writes, ∀ a,
      (r.Has .fm a → t'.fm.read? a = t.fm.read? a) ∧ (r.Has .bm a → t'.bm.read? a = t.bm.read? a))

/-! ## The register window (10_state.md, 20_memory.md section 2) -/

/-- R22, R27 to R34, R40, R41, R44: every readable and writable register of the window returns the bits it has of the value
last written while idle, and a write to one changes what no other returns. A misaligned read is refused after the write as
before it, and its data may be any value (R82). -/
def Obligations.WindowRegistersReadBack : Prop :=
  ∀ x ∈ ([(0x010, 5), (0x014, 17), (0x018, 16), (0x01C, 17), (0x020, 32), (0x024, 32), (0x030, 16), (0x034, 16),
      (0x038, 16), (0x03C, 16), (0x040, 16), (0x050, 24), (0x054, 16), (0x058, 24), (0x05C, 16), (0x060, 24)] ++
     [(0x064, 24), (0x068, 24), (0x090, 16), (0x098, 24), (0x100, 16), (0x104, 16), (0x108, 16), (0x10C, 16),
      (0x110, 16), (0x114, 16), (0x118, 16), (0x11C, 16), (0x120, 16), (0x124, 16), (0x128, 16), (0x12C, 16),
      (0x130, 16), (0x134, 16), (0x138, 16), (0x13C, 16)] : List (BitVec 12 × Nat)),
  ∀ (s : State) (v : BWord), s.busy = false →
    (busTransfer (.read x.1 0xF) (busTransfer (.write x.1 0xF v) s)).busResp =
      some (.readOk (BitVec.ofNat 32 (v.toNat % 2 ^ x.2))) ∧
    (∀ y : BitVec 12, y.toNat % 4 = 0 → y ≠ x.1 → y ≠ 0x094 → y ≠ 0x09C →
      (busTransfer (.read y 0xF) (busTransfer (.write x.1 0xF v) s)).busResp = (busTransfer (.read y 0xF) s).busResp) ∧
    (∀ y : BitVec 12, y.toNat % 4 ≠ 0 → ∀ t ∈ [s, busTransfer (.write x.1 0xF v) s],
      ∃ u, (busTransfer (.read y 0xF) t).busResp = some (.readErr u)) ∧
    (busTransfer (.write x.1 0xF v) s).fm = s.fm ∧ (busTransfer (.write x.1 0xF v) s).bm = s.bm ∧
    (busTransfer (.write x.1 0xF v) s).rng = s.rng ∧ (busTransfer (.write x.1 0xF v) s).inflight = s.inflight

/-- R46: while BUSY a guarded write is dropped and sets HOST_CONFLICT, and so does a read of FM_DATA or BM_DATA, which
returns some value and moves no pointer; such a read with the pointer out of range reports `bus_err` too (R82). That it sets
HOST_CONFLICT all the same, and that a dropped write with the pointer out of range reports no `bus_err`, is the model's
reading where R46 meets R40, R41 and R82 (DEDUCED, log entry 9). -/
def Obligations.GuardedAccessWhileBusyOnlySetsHostConflict : Prop :=
  ∀ s : State, s.busy = true →
    (∀ x ∈ ([0x010, 0x014, 0x018, 0x01C, 0x020, 0x024, 0x030, 0x034, 0x038, 0x03C, 0x040, 0x050, 0x054, 0x058, 0x05C,
        0x060, 0x064, 0x068, 0x090, 0x094, 0x098, 0x09C] ++
       [0x100, 0x104, 0x108, 0x10C, 0x110, 0x114, 0x118, 0x11C, 0x120, 0x124, 0x128, 0x12C, 0x130, 0x134, 0x138,
        0x13C] : List (BitVec 12)), ∀ v : BWord,
      busTransfer (.write x 0xF v) s = { s with
        status := { s.status with hostConflict := true }, busResp := some .writeOk }) ∧
    (∀ x ∈ ([(0x094, s.fmAddr.toNat, s.params.fmDepth), (0x09C, s.bmAddr.toNat, s.params.bmWords)] :
        List (BitVec 12 × Nat × Nat)), ∃ v : BWord,
      busTransfer (.read x.1 0xF) s = { s with
        status := { s.status with hostConflict := true }, drawNo := s.drawNo + 1
        busResp := some (if x.2.1 < x.2.2 then .readOk v else .readErr v) }) ∧
    (∀ v : BWord, v.getLsbD 2 = false →
      busTransfer (.write 0x004 0xF v) s = { s with irqEn := v.getLsbD 1, busResp := some .writeOk })

/-- R47: while BUSY a read of a register the engine writes returns some value with no side effect; ID, CTRL, RNG_LEVEL and
the configuration, base, stride and pointer registers read as they would while idle. -/
def Obligations.ReadsWhileBusy : Prop :=
  ∀ s : State, s.busy = true →
    (∀ x ∈ ([0x070, 0x074, 0x078, 0x07C, 0x080] ++
       [0x100, 0x104, 0x108, 0x10C, 0x110, 0x114, 0x118, 0x11C, 0x120, 0x124, 0x128, 0x12C, 0x130, 0x134, 0x138,
        0x13C] : List (BitVec 12)), ∃ v : BWord,
      busTransfer (.read x 0xF) s = { s with busResp := some (.readOk v), drawNo := s.drawNo + 1 }) ∧
    (∀ x ∈ ([0x000, 0x004, 0x010, 0x014, 0x018, 0x01C, 0x020, 0x024, 0x02C, 0x030, 0x034, 0x038, 0x03C, 0x040] ++
       [0x050, 0x054, 0x058, 0x05C, 0x060, 0x064, 0x068, 0x090, 0x098] : List (BitVec 12)),
      ∃ v : BWord, busTransfer (.read x 0xF) s = { s with busResp := some (.readOk v) } ∧
        busTransfer (.read x 0xF) { s with inflight := none } =
          { s with inflight := none, busResp := some (.readOk v) })

/-- R40, R41, R91: the memory windows while idle: a write stores at the pointer and moves it on, a read returns the word and
moves the pointer on (some value for a word no one wrote), and out of range both are refused with no effect. -/
def Obligations.WindowsReadAndWriteThroughThePointer : Prop :=
  ∀ (s : State) (v : BWord), s.busy = false →
    (s.fmAddr.toNat < s.params.fmDepth → ∃ t, busTransfer (.write 0x094 0xF v) s = t ∧
      t = { s with fm := t.fm, fmAddr := BitVec.ofNat 16 (s.fmAddr.toNat + 1), busResp := some .writeOk } ∧
      t.fm.read? s.fmAddr.toNat = some (BitVec.ofNat 16 v.toNat) ∧
      ∀ a, a ≠ s.fmAddr.toNat → t.fm.read? a = s.fm.read? a) ∧
    (s.bmAddr.toNat < s.params.bmWords → ∃ t, busTransfer (.write 0x09C 0xF v) s = t ∧
      t = { s with bm := t.bm, bmAddr := BitVec.ofNat 24 (s.bmAddr.toNat + 1), busResp := some .writeOk } ∧
      t.bm.read? s.bmAddr.toNat = some v ∧ ∀ a, a ≠ s.bmAddr.toNat → t.bm.read? a = s.bm.read? a) ∧
    (s.fmAddr.toNat < s.params.fmDepth → ∀ x, s.fm.read? s.fmAddr.toNat = some x →
      busTransfer (.read 0x094 0xF) s = { s with
        fmAddr := BitVec.ofNat 16 (s.fmAddr.toNat + 1), busResp := some (.readOk (BitVec.ofNat 32 x.toNat)) }) ∧
    (s.bmAddr.toNat < s.params.bmWords → ∀ x, s.bm.read? s.bmAddr.toNat = some x →
      busTransfer (.read 0x09C 0xF) s = { s with
        bmAddr := BitVec.ofNat 24 (s.bmAddr.toNat + 1), busResp := some (.readOk x) }) ∧
    (s.fmAddr.toNat < s.params.fmDepth → s.fm.read? s.fmAddr.toNat = none → ∃ x : FWord,
      busTransfer (.read 0x094 0xF) s = { s with
        fmAddr := BitVec.ofNat 16 (s.fmAddr.toNat + 1), busResp := some (.readOk (BitVec.ofNat 32 x.toNat))
        drawNo := s.drawNo + 1 }) ∧
    (s.bmAddr.toNat < s.params.bmWords → s.bm.read? s.bmAddr.toNat = none → ∃ x : BWord,
      busTransfer (.read 0x09C 0xF) s = { s with
        bmAddr := BitVec.ofNat 24 (s.bmAddr.toNat + 1), busResp := some (.readOk x), drawNo := s.drawNo + 1 }) ∧
    (s.params.fmDepth ≤ s.fmAddr.toNat →
      busTransfer (.write 0x094 0xF v) s = { s with busResp := some .writeErr } ∧
      ∃ x, busTransfer (.read 0x094 0xF) s = { s with busResp := some (.readErr x), drawNo := s.drawNo + 1 }) ∧
    (s.params.bmWords ≤ s.bmAddr.toNat →
      busTransfer (.write 0x09C 0xF v) s = { s with busResp := some .writeErr } ∧
      ∃ x, busTransfer (.read 0x09C 0xF) s = { s with busResp := some (.readErr x), drawNo := s.drawNo + 1 })

/-- R42, R43, R201: a write to RNG_IN appends the low 16 bits at the tail and ends a wait, BUSY or not; into a full FIFO it is
dropped and sets RNG_OVF. RNG_LEVEL is the number of words. -/
def Obligations.RngInAppendsOrOverflows : Prop :=
  ∀ (s : State) (v : BWord),
    (s.rng.length < s.params.rngDepth → busTransfer (.write 0x028 0xF v) s = { s with
      rng := s.rng ++ [BitVec.ofNat 16 v.toNat], status := { s.status with rngWait := false }
      busResp := some .writeOk }) ∧
    (s.params.rngDepth ≤ s.rng.length → busTransfer (.write 0x028 0xF v) s = { s with
      status := { s.status with rngOvf := true }, busResp := some .writeOk }) ∧
    (s.params.Legal → s.rng.length ≤ s.params.rngDepth → ∃ x : BWord, x.toNat = s.rng.length ∧
      busTransfer (.read 0x02C 0xF) s = { s with busResp := some (.readOk x) })

/-- R24, R45: reserved offsets read 0 and ignore writes with no other effect; writes to read-only registers are ignored;
CMD and RNG_IN read 0; ID reads its constant. -/
def Obligations.ReservedOffsetsReadZeroAndIgnoreWrites : Prop :=
  ∀ (s : State) (v : BWord),
    (∀ a : BitVec 12, a.toNat % 4 = 0 →
      (0x044 ≤ a.toNat ∧ a.toNat ≤ 0x04C) ∨ a.toNat = 0x06C ∨ (0x084 ≤ a.toNat ∧ a.toNat ≤ 0x08C) ∨
        (0x0A0 ≤ a.toNat ∧ a.toNat ≤ 0x0FC) ∨ (0x140 ≤ a.toNat ∧ a.toNat ≤ 0xFFC) →
      busTransfer (.read a 0xF) s = { s with busResp := some (.readOk 0) } ∧
      busTransfer (.write a 0xF v) s = { s with busResp := some .writeOk }) ∧
    (∀ a ∈ ([0x000, 0x02C, 0x070, 0x074, 0x078, 0x07C, 0x080] : List (BitVec 12)),
      busTransfer (.write a 0xF v) s = { s with busResp := some .writeOk }) ∧
    (∀ a ∈ ([0x00C, 0x028] : List (BitVec 12)),
      busTransfer (.read a 0xF) s = { s with busResp := some (.readOk 0) }) ∧
    busTransfer (.read 0x000 0xF) s = { s with busResp := some (.readOk 0x47464501) }

/-- R26: STATUS reads its fields at their places and 0 elsewhere, BUSY being whether a command is in flight; writing 1 to a
W1C bit clears it and nothing else. -/
def Obligations.StatusReadsItsFieldsAndClearsOnOne : Prop :=
  (∀ s : State, ∃ v : BWord, busTransfer (.read 0x008 0xF) s = { s with busResp := some (.readOk v) } ∧
    v.getLsbD 0 = s.inflight.isSome ∧ v.getLsbD 1 = s.status.done ∧ v.getLsbD 2 = s.status.err ∧
    v.getLsbD 3 = s.status.rngWait ∧ v.toNat / 2 ^ 4 % 4 = 0 ∧
    v.toNat / 2 ^ 6 % 4 = (match s.status.result with | .ok => 0 | .retry => 1 | .error => 2) ∧
    v.toNat / 2 ^ 8 % 256 =
      (match s.status.errCode with | .none => 0 | .illegal => 1 | .config => 2 | .range => 3) ∧
    v.getLsbD 16 = s.status.cmdOvr ∧ v.getLsbD 17 = s.status.hostConflict ∧ v.getLsbD 18 = s.status.rngOvf ∧
    v.toNat < 2 ^ 19) ∧
  (∀ (s : State) (v : BWord), busTransfer (.write 0x008 0xF v) s = { s with
    status := { s.status with
      done := s.status.done && !v.getLsbD 1, err := s.status.err && !v.getLsbD 2
      cmdOvr := s.status.cmdOvr && !v.getLsbD 16, hostConflict := s.status.hostConflict && !v.getLsbD 17
      rngOvf := s.status.rngOvf && !v.getLsbD 18 }
    busResp := some .writeOk })

/-- R25: a CTRL write without SOFT_RESET writes IRQ_EN, and PIVOT_EN only while idle; CTRL reads those two bits and 0
elsewhere. -/
def Obligations.CtrlHoldsTheTwoEnables : Prop :=
  ∀ (s : State) (v : BWord),
    (v.getLsbD 2 = false → busTransfer (.write 0x004 0xF v) s = { s with
      irqEn := v.getLsbD 1
      cfg := { s.cfg with pivotEn := if s.inflight.isSome then s.cfg.pivotEn else v.getLsbD 0 }
      busResp := some .writeOk }) ∧
    busTransfer (.read 0x004 0xF) s = { s with
      busResp := some (.readOk (BitVec.ofNat 32 (s.cfg.pivotEn.toNat + 2 * s.irqEn.toNat))) }

/-- R261, R262: `irq = CTRL.IRQ_EN AND STATUS.DONE`. What becomes of it: a write to STATUS clears it exactly with 1 at DONE
(so clearing ERR alone does not), an accepted CMD write clears it and a dropped one leaves it, a CTRL write sets it by the
new IRQ_EN and DONE, which it keeps, or resets it; every other transfer leaves it; a completion raises it if enabled, an
engine turn that completes nothing leaves it, and the resets clear it. -/
def Obligations.IrqFollowsDoneAndEnable : Prop :=
  ∀ s : State, s.irq = (s.irqEn && s.status.done) ∧
    (∀ v : BWord, (busTransfer (.write 0x008 0xF v) s).irq = (s.irq && !v.getLsbD 1) ∧
      (s.busy = false → (busTransfer (.write 0x00C 0xF v) s).irq = false) ∧
      (s.busy = true → (busTransfer (.write 0x00C 0xF v) s).irq = s.irq) ∧
      (v.getLsbD 2 = false → (busTransfer (.write 0x004 0xF v) s).irq = (v.getLsbD 1 && s.status.done) ∧
        (busTransfer (.write 0x004 0xF v) s).status = s.status) ∧
      (v.getLsbD 2 = true → (busTransfer (.write 0x004 0xF v) s).irq = false)) ∧
    (∀ x : Transfer, (∀ v, x ≠ .write 0x008 0xF v ∧ x ≠ .write 0x00C 0xF v ∧ x ≠ .write 0x004 0xF v) →
      (busTransfer x s).irq = s.irq) ∧
    (∀ t, engineTurn s = .next t → t.irq = if s.busy && !t.busy then s.irqEn else s.irq) ∧
    (hardwareReset s).irq = false ∧ (powerCycle s).irq = false

/-- R82: a misaligned or narrow transfer is refused with `bus_err` and no effect, a read returning some value; so is, while
idle, an FM_DATA or BM_DATA transfer with the pointer out of range, and while BUSY such a read reports `bus_err` too. Every
other transfer is served without error, and a write dropped while BUSY is one of them. What R46 adds while BUSY with the
pointer out of range, HOST_CONFLICT, is the model's reading (DEDUCED, log entry 9). -/
def Obligations.MisalignedAndNarrowTransfersAreRefused : Prop :=
  ∀ (s : State) (a : BitVec 12) (be : BitVec 4) (v : BWord),
    let malformed := a.toNat % 4 ≠ 0 ∨ be ≠ 0xF
    let outOfRange := (a = 0x094 ∧ s.params.fmDepth ≤ s.fmAddr.toNat) ∨ (a = 0x09C ∧ s.params.bmWords ≤ s.bmAddr.toNat)
    (malformed ∨ (s.busy = false ∧ outOfRange) →
      busTransfer (.write a be v) s = { s with busResp := some .writeErr } ∧
      ∃ x, busTransfer (.read a be) s = { s with busResp := some (.readErr x), drawNo := s.drawNo + 1 }) ∧
    (¬ malformed → s.busy = true → outOfRange →
      busTransfer (.write a be v) s = { s with
        status := { s.status with hostConflict := true }, busResp := some .writeOk } ∧
      ∃ x, busTransfer (.read a be) s = { s with
        status := { s.status with hostConflict := true }, busResp := some (.readErr x), drawNo := s.drawNo + 1 }) ∧
    (¬ malformed → ¬ outOfRange →
      (busTransfer (.write a be v) s).busResp = some .writeOk ∧
      ∃ x, (busTransfer (.read a be) s).busResp = some (.readOk x))

/-! ## Resets and the invariant (70_reset_and_hazards.md) -/

/-- R51, R281, R269: a hardware reset gives every register its reset value and empties the FIFO; the memories keep what
abandoning the command in flight leaves of them. Loss of power, with the reset that follows it, loses the memories. -/
def Obligations.HardwareResetRestoresEveryRegister : Prop :=
  ∀ s : State,
    hardwareReset s = { State.reset with
      params := s.params, fm := (abandonCommand s).fm, bm := (abandonCommand s).bm
      inputs := s.inputs, drawNo := (abandonCommand s).drawNo } ∧
    (s.inflight = none → (hardwareReset s).fm = s.fm ∧ (hardwareReset s).bm = s.bm) ∧
    powerCycle s = { State.reset with params := s.params, inputs := s.inputs, drawNo := s.drawNo } ∧
    (State.reset.cfg.pivotCfg = 0x00200040 ∧ State.reset.cfg.sampleMax = 0x1000 ∧ State.reset.irqEn = false ∧
      State.reset.inflight = none ∧ State.reset.rng = [] ∧ State.reset.fm = [] ∧ State.reset.bm = [] ∧
      State.reset.f = Vector.replicate 16 0 ∧ State.reset.status = Status.reset)

/-- R282, R25: a CTRL write of SOFT_RESET resets as the hardware reset does, but keeps the configuration registers; the same
write's IRQ_EN is applied, and its PIVOT_EN if BUSY = 0 when it arrives. -/
def Obligations.SoftResetKeepsTheConfiguration : Prop :=
  ∀ (s : State) (v : BWord), v.getLsbD 2 = true →
    busTransfer (.write 0x004 0xF v) s = { hardwareReset s with
      cfg := { s.cfg with pivotEn := if s.inflight.isSome then s.cfg.pivotEn else v.getLsbD 0 }
      irqEn := v.getLsbD 1
      busResp := some .writeOk }

/-- R283: a reset abandons the command in flight without completing it: DONE is not set and no interrupt is raised; every
word in memory of the regions the command's rule lists as written holds some value, every other word is unchanged, and
the FIFO is empty. Which regions those are where the spec leaves it open, such as the support and the swap log of a GAUSS with
PIVOT_EN = 1 and PIV_W = 0 or PIV_MAX = 0, is the model's reading (DEDUCED, log entry 11). -/
def Obligations.ResetAbandonsTheCommandInFlight : Prop :=
  ∀ (s t : State) (c : InFlight) (i : Instr) (v : BWord), s.inflight = some c → decode c.word = .ok i →
    v.getLsbD 2 = true → t = hardwareReset s ∨ t = busTransfer (.write 0x004 0xF v) s →
    t.inflight = none ∧ t.status = Status.reset ∧ t.irq = false ∧ t.rng = [] ∧
    ∀ a : Nat,
      (a < s.params.fmDepth → (∃ r ∈ (footprint s i).writes, r.Has .fm a) → (t.fm.read? a).isSome = true) ∧
      ((∀ r ∈ (footprint s i).writes, ¬ r.Has .fm a) → t.fm.read? a = s.fm.read? a) ∧
      (a < s.params.bmWords → (∃ r ∈ (footprint s i).writes, r.Has .bm a) → (t.bm.read? a).isSome = true) ∧
      ((∀ r ∈ (footprint s i).writes, ¬ r.Has .bm a) → t.bm.read? a = s.bm.read? a)

/-- R51: what the window returns after reset, register by register. -/
def Obligations.ResetValuesInTheWindow : Prop :=
  ∀ x ∈ ([(0x000, 0x47464501), (0x004, 0), (0x008, 0), (0x010, 0), (0x014, 0), (0x018, 0), (0x01C, 0),
      (0x020, 0x00200040), (0x024, 0x00001000), (0x02C, 0), (0x030, 0), (0x034, 0), (0x038, 0), (0x03C, 0), (0x040, 0),
      (0x050, 0), (0x054, 0), (0x058, 0), (0x05C, 0), (0x060, 0), (0x064, 0), (0x068, 0)] ++
     [(0x070, 0), (0x074, 0), (0x078, 0), (0x07C, 0), (0x080, 0), (0x090, 0), (0x098, 0), (0x100, 0), (0x104, 0),
      (0x108, 0), (0x10C, 0), (0x110, 0), (0x114, 0), (0x118, 0), (0x11C, 0), (0x120, 0), (0x124, 0), (0x128, 0),
      (0x12C, 0), (0x130, 0), (0x134, 0), (0x138, 0), (0x13C, 0)] : List (BitVec 12 × BWord)),
    (busTransfer (.read x.1 0xF) State.reset).busResp = some (.readOk x.2)

/-- The state after reset meets the invariant, at every legal choice of the build parameters. -/
def Obligations.ResetStateMeetsTheInvariant : Prop :=
  ∀ p : BuildParams, p.Legal → (State.resetWith p).Inv

/-- From every state that meets the invariant, a step gives a state that meets it: the memories stay canonical and inside
their depths, the FIFO inside its own, RESULT agrees with ERRCODE, DONE and ERR are clear while BUSY, RNG_WAIT only
while BUSY with an empty FIFO, and a SAMPLE's progress stays sound. -/
def Obligations.StepKeepsTheInvariant : Prop :=
  ∀ s t : State, s.Inv → step s = .next t → t.Inv
end

