-- ==== Sys2Proof/Laws/Memory.lean ====
section
/-! SUPPORT. The laws of the memories: read after write, and the canonical form, for every memory operation. -/

namespace Sys2Proof.Machine

variable {w : Nat}

/-! ### Reading after writing -/

theorem Mem.read?_write (m : Mem w) (a b : Nat) (v : BitVec w) :
    (m.write a v).read? b = if b = a then some v else m.read? b := by
  induction m with
  | nil =>
    by_cases h : b = a
    · simp [Mem.write, Mem.read?, h]
    · have h' : ¬ a = b := fun e => h e.symm
      simp [Mem.write, Mem.read?, h, h']
  | cons x m ih =>
    obtain ⟨k, y⟩ := x
    by_cases hlt : a < k
    · by_cases h : b = a
      · simp [Mem.write, hlt, Mem.read?, h]
      · have h' : ¬ a = b := fun e => h e.symm
        simp [Mem.write, hlt, Mem.read?, h, h']
    · by_cases heq : a = k
      · subst heq
        by_cases h : b = a
        · simp [Mem.write, Mem.read?, h]
        · have h' : ¬ a = b := fun e => h e.symm
          simp [Mem.write, Mem.read?, h, h']
      · by_cases hk : k = b
        · subst hk
          have h' : ¬ k = a := fun e => heq e.symm
          simp [Mem.write, hlt, heq, Mem.read?, h']
        · simp [Mem.write, hlt, heq, Mem.read?, hk, ih]

@[simp] theorem Mem.read?_write_self (m : Mem w) (a : Nat) (v : BitVec w) : (m.write a v).read? a = some v := by
  simp [Mem.read?_write]

theorem Mem.read?_write_other (m : Mem w) {a b : Nat} (v : BitVec w) (h : b ≠ a) :
    (m.write a v).read? b = m.read? b := by
  simp [Mem.read?_write, h]

/-- A run of words written reads back as written, and every other word as before. -/
theorem Mem.read?_writeN (m : Mem w) (a : Nat) (vs : List (BitVec w)) (b : Nat) :
    (m.writeN a vs).read? b = if a ≤ b ∧ b < a + vs.length then vs[b - a]? else m.read? b := by
  induction vs generalizing m a with
  | nil => simp [Mem.writeN]
  | cons v vs ih =>
    rw [Mem.writeN, ih, Mem.read?_write]
    by_cases hb : b = a
    · subst hb; simp
    · by_cases h : a + 1 ≤ b ∧ b < a + 1 + vs.length
      · have h' : a ≤ b ∧ b < a + (v :: vs).length := by simp; omega
        rw [if_pos h, if_pos h', show b - a = (b - (a + 1)) + 1 by omega]
        simp
      · have h' : ¬ (a ≤ b ∧ b < a + (v :: vs).length) := by simp; omega
        rw [if_neg h, if_neg h', if_neg hb]

theorem Mem.read?_writeN_outside (m : Mem w) (a : Nat) (vs : List (BitVec w)) (b : Nat)
    (h : b < a ∨ a + vs.length ≤ b) : (m.writeN a vs).read? b = m.read? b := by
  rw [Mem.read?_writeN, if_neg (by omega)]

/-- What a run of words read says of each of them. -/
theorem Mem.readN?_eq_some {m : Mem w} {a len : Nat} {vs : List (BitVec w)} :
    m.readN? a len = some vs ↔ vs.length = len ∧ ∀ k < len, m.read? (a + k) = vs[k]? := by
  induction len generalizing a vs with
  | zero =>
    cases vs <;> simp [Mem.readN?]
  | succ len ih =>
    rw [Mem.readN?]
    constructor
    · intro h
      split at h
      · next v vs' hv hvs =>
        obtain ⟨hl, hk⟩ := ih.mp hvs
        simp only [Option.some.injEq] at h
        subst h
        refine ⟨by simp [hl], fun k hk' => ?_⟩
        cases k with
        | zero => simpa using hv
        | succ k => simpa [Nat.add_assoc, Nat.add_comm 1] using hk k (by omega)
      · simp at h
    · rintro ⟨hl, hk⟩
      cases vs with
      | nil => simp at hl
      | cons v vs =>
        have h0 : m.read? a = some v := by simpa using hk 0 (by omega)
        have h1 : m.readN? (a + 1) len = some vs :=
          ih.mpr ⟨by simpa using hl, fun k hk' => by
            simpa [Nat.add_assoc, Nat.add_comm 1] using hk (k + 1) (by omega)⟩
        simp [h0, h1]

/-- A run of words reads if each of them has been written. -/
theorem Mem.readN?_isSome (m : Mem w) (a len : Nat) :
    (m.readN? a len).isSome = true ↔ ∀ k < len, (m.read? (a + k)).isSome = true := by
  induction len generalizing a with
  | zero => simp [Mem.readN?]
  | succ len ih =>
    rw [Mem.readN?, Nat.forall_lt_succ_left]
    have ih' := ih (a + 1)
    simp only [Nat.add_assoc, Nat.add_comm 1] at ih'
    rw [← ih']
    cases m.read? a <;> cases m.readN? (a + 1) len <;> simp

theorem Mem.readN?_congr {m m' : Mem w} {a len : Nat} (h : ∀ k < len, m.read? (a + k) = m'.read? (a + k)) :
    m.readN? a len = m'.readN? a len := by
  induction len generalizing a with
  | zero => rfl
  | succ len ih =>
    have h0 := h 0 (by omega)
    simp only [Nat.add_zero] at h0
    rw [Mem.readN?, Mem.readN?, h0, ih fun k hk => by simpa [Nat.add_assoc, Nat.add_comm 1] using h (k + 1) (by omega)]

/-! ### The addresses a memory lists -/

theorem Mem.keys_write (m : Mem w) (a : Nat) (v : BitVec w) (k : Nat) :
    k ∈ (m.write a v).map Prod.fst ↔ k = a ∨ k ∈ m.map Prod.fst := by
  induction m with
  | nil => simp [Mem.write]
  | cons x m ih =>
    obtain ⟨j, y⟩ := x
    by_cases hlt : a < j
    · simp [Mem.write, hlt]
    · by_cases heq : a = j
      · subst heq; simp [Mem.write]
      · simp only [Mem.write, hlt, heq, if_false, List.map_cons, List.mem_cons, ih]
        tauto

theorem Mem.write_wf {m : Mem w} (h : m.wf) (a : Nat) (v : BitVec w) : (m.write a v).wf := by
  induction m with
  | nil => simp [Mem.wf, Mem.write]
  | cons x m ih =>
    obtain ⟨k, y⟩ := x
    simp only [Mem.wf, List.map_cons, List.pairwise_cons] at h
    by_cases hlt : a < k
    · simp only [Mem.wf, Mem.write, hlt, if_true, List.map_cons, List.pairwise_cons, List.mem_cons]
      refine ⟨?_, h⟩
      rintro b (rfl | hb)
      · exact hlt
      · exact lt_trans hlt (h.1 b hb)
    · by_cases heq : a = k
      · subst heq
        simpa [Mem.wf, Mem.write] using h
      · simp only [Mem.wf, Mem.write, hlt, heq, if_false, List.map_cons, List.pairwise_cons]
        refine ⟨fun b hb => ?_, ih h.2⟩
        rcases (Mem.keys_write m a v b).mp hb with rfl | hb
        · omega
        · exact h.1 b hb

/-- Every address a memory lists is below a bound. -/
abbrev Mem.Below (m : Mem w) (depth : Nat) : Prop := ∀ k ∈ m.map Prod.fst, k < depth

theorem Mem.write_below {m : Mem w} {d : Nat} (h : m.Below d) {a : Nat} (ha : a < d) (v : BitVec w) :
    (m.write a v).Below d := by
  intro k hk
  rcases (Mem.keys_write m a v k).mp hk with rfl | hk
  · exact ha
  · exact h k hk

/-- An address a memory reads at is listed. -/
theorem Mem.read?_isSome_iff (m : Mem w) (a : Nat) : (m.read? a).isSome = true ↔ a ∈ m.map Prod.fst := by
  induction m with
  | nil => simp [Mem.read?]
  | cons x m ih =>
    obtain ⟨k, y⟩ := x
    by_cases h : k = a
    · simp [Mem.read?, h]
    · have h' : ¬ a = k := fun e => h e.symm
      simp only [Mem.read?, if_neg h, List.map_cons, List.mem_cons, h', false_or]
      exact ih

/-! ### Every memory operation keeps the form -/

/-- The canonical form together with a bound on the addresses: what every memory operation keeps. -/
abbrev Mem.Good (m : Mem w) (depth : Nat) : Prop := m.wf ∧ m.Below depth

theorem Mem.write_good {m : Mem w} {d : Nat} (h : m.Good d) {a : Nat} (ha : a < d) (v : BitVec w) :
    (m.write a v).Good d :=
  ⟨Mem.write_wf h.1 a v, Mem.write_below h.2 ha v⟩

theorem Mem.writeN_wf {m : Mem w} (h : m.wf) (a : Nat) (vs : List (BitVec w)) : (m.writeN a vs).wf := by
  induction vs generalizing m a with
  | nil => exact h
  | cons v vs ih => exact ih (Mem.write_wf h a v) (a + 1)

theorem Mem.writeN_good {m : Mem w} {d : Nat} (h : m.Good d) {a : Nat} {vs : List (BitVec w)}
    (ha : vs = [] ∨ a + vs.length ≤ d) : (m.writeN a vs).Good d := by
  induction vs generalizing m a with
  | nil => exact h
  | cons v vs ih =>
    have hl : a + vs.length + 1 ≤ d := by
      rcases ha with ha | ha
      · simp at ha
      · simpa [Nat.add_assoc] using ha
    exact ih (Mem.write_good h (by omega) v) (Or.inr (by omega))

theorem Mem.putVec_wf {m : Mem 32} (h : m.wf) (b n v : Nat) : (m.putVec b n v).wf := Mem.writeN_wf h _ _

theorem Mem.putRows_wf {m : Mem 32} (h : m.wf) (st n b : Nat) (rows : List Nat) : (m.putRows st n b rows).wf := by
  induction rows generalizing m b with
  | nil => exact h
  | cons v vs ih => exact ih (Mem.writeN_wf h _ _) (b + st)

@[simp] theorem length_vecWords (count v : Nat) : (vecWords count v).length = count := by simp [vecWords]

theorem Mem.putVec_good {m : Mem 32} {d : Nat} (h : m.Good d) {b n : Nat} (v : Nat)
    (hb : wordsFor n = 0 ∨ b + wordsFor n ≤ d) : (m.putVec b n v).Good d := by
  refine Mem.writeN_good h ?_
  rcases hb with hb | hb
  · exact Or.inl (List.eq_nil_of_length_eq_zero (by simpa using hb))
  · exact Or.inr (by simpa using hb)

theorem Mem.putRows_good {m : Mem 32} {d : Nat} (h : m.Good d) {st n b : Nat} {rows : List Nat}
    (hb : rows.length * st = 0 ∨ b + rows.length * st ≤ d) : (m.putRows st n b rows).Good d := by
  induction rows generalizing m b with
  | nil => exact h
  | cons v vs ih =>
    simp only [List.length_cons, Nat.add_mul, Nat.one_mul] at hb
    refine ih (Mem.writeN_good h ?_) ?_
    · by_cases hst : st = 0
      · exact Or.inl (List.eq_nil_of_length_eq_zero (by simpa using hst))
      · exact Or.inr (by simp; omega)
    · by_cases hst : st = 0
      · exact Or.inl (by simp [hst])
      · exact Or.inr (by omega)

/-- A word inside a run just written is written. -/
theorem Mem.writeN_isSome {w : Nat} (m : Mem w) (a : Nat) (vs : List (BitVec w)) {b : Nat} (h : a ≤ b ∧ b < a + vs.length) :
    ((m.writeN a vs).read? b).isSome = true := by
  rw [Mem.read?_writeN, if_pos h, List.getElem?_eq_getElem (by omega)]
  rfl

/-- `putvec` writes every word of its vector (R87). -/
theorem Mem.putVec_isSome (m : Mem 32) (b n v : Nat) {a : Nat} (h : b ≤ a ∧ a < b + wordsFor n) :
    ((m.putVec b n v).read? a).isSome = true :=
  Mem.writeN_isSome _ _ _ (by simpa using h)

/-- `putrow` leaves written words written. -/
theorem Mem.putRows_keeps_isSome (st n : Nat) (rows : List Nat) {m : Mem 32} (b : Nat) {a : Nat}
    (h : (m.read? a).isSome = true) : ((m.putRows st n b rows).read? a).isSome = true := by
  induction rows generalizing m b with
  | nil => exact h
  | cons v vs ih =>
    refine ih (b + st) ?_
    by_cases ha : b ≤ a ∧ a < b + (vecWords st (v % 2 ^ n)).length
    · exact Mem.writeN_isSome _ _ _ ha
    · rw [Mem.read?_writeN, if_neg ha]
      exact h

/-- `putrow` writes every word of its rows' strides (R87). -/
theorem Mem.putRows_isSome (m : Mem 32) (st n b : Nat) (rows : List Nat) {a : Nat} (h : b ≤ a ∧ a < b + rows.length * st) :
    ((m.putRows st n b rows).read? a).isSome = true := by
  induction rows generalizing m b with
  | nil => simp at h; omega
  | cons v vs ih =>
    by_cases ha : a < b + st
    · exact Mem.putRows_keeps_isSome st n vs (b + st) (Mem.writeN_isSome _ _ _ (by simp; omega))
    · simp only [List.length_cons, Nat.add_mul, Nat.one_mul] at h
      exact ih _ _ (by omega)

/-- The memories after reset are in canonical form and list nothing. -/
theorem State.resetWith_wf (p : BuildParams) : (State.resetWith p).fm.wf ∧ (State.resetWith p).bm.wf :=
  ⟨List.Pairwise.nil, List.Pairwise.nil⟩

theorem State.drawFm_fm_good {d : Nat} {addrs : List Nat} {s : State} (h : s.fm.Good d) (ha : ∀ a ∈ addrs, a < d) :
    (s.drawFm addrs).fm.Good d := by
  induction addrs generalizing s with
  | nil => exact h
  | cons a as ih => exact ih (Mem.write_good h (ha a (by simp)) _) fun b hb => ha b (by simp [hb])

theorem State.drawBm_bm_good {d : Nat} {addrs : List Nat} {s : State} (h : s.bm.Good d) (ha : ∀ a ∈ addrs, a < d) :
    (s.drawBm addrs).bm.Good d := by
  induction addrs generalizing s with
  | nil => exact h
  | cons a as ih => exact ih (Mem.write_good h (ha a (by simp)) _) fun b hb => ha b (by simp [hb])

/-! ### Bit vectors -/

/-- Bit `j` of a vector made of BM words is bit `j mod 32` of word `j/32` (R11). -/
theorem testBit_packWords (ws : List BWord) (j : Nat) :
    (packWords ws).testBit j = (ws.getD (j / 32) 0).getLsbD (j % 32) := by
  induction ws generalizing j with
  | nil => simp [packWords]
  | cons x ws ih =>
    simp only [packWords, Nat.testBit_or, Nat.testBit_shiftLeft]
    by_cases h : j < 32
    · have : j / 32 = 0 := by omega
      have hm : j % 32 = j := by omega
      simp [this, hm, Nat.not_le.mpr h, BitVec.getLsbD]
    · have h1 : j / 32 = (j - 32) / 32 + 1 := by omega
      have h2 : j % 32 = (j - 32) % 32 := by omega
      have hx : x.toNat.testBit j = false := by
        apply Nat.testBit_lt_two_pow
        exact lt_of_lt_of_le x.isLt (Nat.pow_le_pow_right (by norm_num) (by omega))
      simp [hx, ih, h1, h2, Nat.le_of_not_lt h]

/-- Bit `k` of word `i` of a vector is its position `32·i + k` (R11). -/
theorem getLsbD_vecWords (count v i k : Nat) (hi : i < count) (hk : k < 32) :
    ((vecWords count v).getD i 0).getLsbD k = v.testBit (32 * i + k) := by
  have hi' : i < (vecWords count v).length := by simpa using hi
  rw [List.getD_eq_getElem _ _ hi']
  simp [vecWords, -BitVec.getLsbD_eq_getElem, BitVec.getLsbD_ofNat, hk, Nat.testBit_shiftRight]

/-- Bit `j` of a vector packed from bits. -/
theorem testBit_packBits (bs : List Bool) (j : Nat) : (packBits bs).testBit j = bs.getD j false := by
  induction bs generalizing j with
  | nil => simp [packBits]
  | cons b bs ih =>
    cases j with
    | zero => cases b <;> simp [packBits, Nat.testBit_zero]
    | succ j =>
      rw [packBits, Nat.testBit_succ]
      have : (b.toNat + 2 * packBits bs) / 2 = packBits bs := by cases b <;> simp [Bool.toNat]; omega
      rw [this, ih]; simp

end Sys2Proof.Machine
end

