-- ==== Sys2Proof/Laws/State.lean ====
section
/-! SUPPORT. What each named update of the state does to each field: one lemma a field, true by definition, so that
no proof unfolds a record update. -/

namespace Sys2Proof.Machine

/-! ### `setF` -/

@[simp] theorem setF_params (s : State) (r : FReg) (v : FWord) : (s.setF r v).params = s.params := rfl
@[simp] theorem setF_f (s : State) (r : FReg) (v : FWord) : (s.setF r v).f = s.f.set r v := rfl
@[simp] theorem setF_cfg (s : State) (r : FReg) (v : FWord) : (s.setF r v).cfg = s.cfg := rfl
@[simp] theorem setF_irqEn (s : State) (r : FReg) (v : FWord) : (s.setF r v).irqEn = s.irqEn := rfl
@[simp] theorem setF_status (s : State) (r : FReg) (v : FWord) : (s.setF r v).status = s.status := rfl
@[simp] theorem setF_chk (s : State) (r : FReg) (v : FWord) : (s.setF r v).chk = s.chk := rfl
@[simp] theorem setF_mask (s : State) (r : FReg) (v : FWord) : (s.setF r v).mask = s.mask := rfl
@[simp] theorem setF_permCnt (s : State) (r : FReg) (v : FWord) : (s.setF r v).permCnt = s.permCnt := rfl
@[simp] theorem setF_bmL (s : State) (r : FReg) (v : FWord) : (s.setF r v).bmL = s.bmL := rfl
@[simp] theorem setF_draws (s : State) (r : FReg) (v : FWord) : (s.setF r v).draws = s.draws := rfl
@[simp] theorem setF_fmAddr (s : State) (r : FReg) (v : FWord) : (s.setF r v).fmAddr = s.fmAddr := rfl
@[simp] theorem setF_bmAddr (s : State) (r : FReg) (v : FWord) : (s.setF r v).bmAddr = s.bmAddr := rfl
@[simp] theorem setF_fm (s : State) (r : FReg) (v : FWord) : (s.setF r v).fm = s.fm := rfl
@[simp] theorem setF_bm (s : State) (r : FReg) (v : FWord) : (s.setF r v).bm = s.bm := rfl
@[simp] theorem setF_rng (s : State) (r : FReg) (v : FWord) : (s.setF r v).rng = s.rng := rfl
@[simp] theorem setF_inflight (s : State) (r : FReg) (v : FWord) : (s.setF r v).inflight = s.inflight := rfl
@[simp] theorem setF_busResp (s : State) (r : FReg) (v : FWord) : (s.setF r v).busResp = s.busResp := rfl
@[simp] theorem setF_inputs (s : State) (r : FReg) (v : FWord) : (s.setF r v).inputs = s.inputs := rfl
@[simp] theorem setF_quota (s : State) (r : FReg) (v : FWord) : (s.setF r v).quota = s.quota := rfl
@[simp] theorem setF_drawNo (s : State) (r : FReg) (v : FWord) : (s.setF r v).drawNo = s.drawNo := rfl

/-! ### `drew` -/

@[simp] theorem drew_params (s : State) : (s.drew).params = s.params := rfl
@[simp] theorem drew_f (s : State) : (s.drew).f = s.f := rfl
@[simp] theorem drew_cfg (s : State) : (s.drew).cfg = s.cfg := rfl
@[simp] theorem drew_irqEn (s : State) : (s.drew).irqEn = s.irqEn := rfl
@[simp] theorem drew_status (s : State) : (s.drew).status = s.status := rfl
@[simp] theorem drew_chk (s : State) : (s.drew).chk = s.chk := rfl
@[simp] theorem drew_mask (s : State) : (s.drew).mask = s.mask := rfl
@[simp] theorem drew_permCnt (s : State) : (s.drew).permCnt = s.permCnt := rfl
@[simp] theorem drew_bmL (s : State) : (s.drew).bmL = s.bmL := rfl
@[simp] theorem drew_draws (s : State) : (s.drew).draws = s.draws := rfl
@[simp] theorem drew_fmAddr (s : State) : (s.drew).fmAddr = s.fmAddr := rfl
@[simp] theorem drew_bmAddr (s : State) : (s.drew).bmAddr = s.bmAddr := rfl
@[simp] theorem drew_fm (s : State) : (s.drew).fm = s.fm := rfl
@[simp] theorem drew_bm (s : State) : (s.drew).bm = s.bm := rfl
@[simp] theorem drew_rng (s : State) : (s.drew).rng = s.rng := rfl
@[simp] theorem drew_inflight (s : State) : (s.drew).inflight = s.inflight := rfl
@[simp] theorem drew_busResp (s : State) : (s.drew).busResp = s.busResp := rfl
@[simp] theorem drew_inputs (s : State) : (s.drew).inputs = s.inputs := rfl
@[simp] theorem drew_quota (s : State) : (s.drew).quota = s.quota := rfl
@[simp] theorem drew_drawNo (s : State) : (s.drew).drawNo = s.drawNo + 1 := rfl

/-! ### `putFm` -/

@[simp] theorem putFm_params (s : State) (b : Nat) (vs : List Nat) : (s.putFm b vs).params = s.params := rfl
@[simp] theorem putFm_f (s : State) (b : Nat) (vs : List Nat) : (s.putFm b vs).f = s.f := rfl
@[simp] theorem putFm_cfg (s : State) (b : Nat) (vs : List Nat) : (s.putFm b vs).cfg = s.cfg := rfl
@[simp] theorem putFm_irqEn (s : State) (b : Nat) (vs : List Nat) : (s.putFm b vs).irqEn = s.irqEn := rfl
@[simp] theorem putFm_status (s : State) (b : Nat) (vs : List Nat) : (s.putFm b vs).status = s.status := rfl
@[simp] theorem putFm_chk (s : State) (b : Nat) (vs : List Nat) : (s.putFm b vs).chk = s.chk := rfl
@[simp] theorem putFm_mask (s : State) (b : Nat) (vs : List Nat) : (s.putFm b vs).mask = s.mask := rfl
@[simp] theorem putFm_permCnt (s : State) (b : Nat) (vs : List Nat) : (s.putFm b vs).permCnt = s.permCnt := rfl
@[simp] theorem putFm_bmL (s : State) (b : Nat) (vs : List Nat) : (s.putFm b vs).bmL = s.bmL := rfl
@[simp] theorem putFm_draws (s : State) (b : Nat) (vs : List Nat) : (s.putFm b vs).draws = s.draws := rfl
@[simp] theorem putFm_fmAddr (s : State) (b : Nat) (vs : List Nat) : (s.putFm b vs).fmAddr = s.fmAddr := rfl
@[simp] theorem putFm_bmAddr (s : State) (b : Nat) (vs : List Nat) : (s.putFm b vs).bmAddr = s.bmAddr := rfl
@[simp] theorem putFm_fm (s : State) (b : Nat) (vs : List Nat) :
    (s.putFm b vs).fm = s.fm.writeN b (vs.map zext16) := rfl
@[simp] theorem putFm_bm (s : State) (b : Nat) (vs : List Nat) : (s.putFm b vs).bm = s.bm := rfl
@[simp] theorem putFm_rng (s : State) (b : Nat) (vs : List Nat) : (s.putFm b vs).rng = s.rng := rfl
@[simp] theorem putFm_inflight (s : State) (b : Nat) (vs : List Nat) : (s.putFm b vs).inflight = s.inflight := rfl
@[simp] theorem putFm_busResp (s : State) (b : Nat) (vs : List Nat) : (s.putFm b vs).busResp = s.busResp := rfl
@[simp] theorem putFm_inputs (s : State) (b : Nat) (vs : List Nat) : (s.putFm b vs).inputs = s.inputs := rfl
@[simp] theorem putFm_quota (s : State) (b : Nat) (vs : List Nat) : (s.putFm b vs).quota = s.quota := rfl
@[simp] theorem putFm_drawNo (s : State) (b : Nat) (vs : List Nat) : (s.putFm b vs).drawNo = s.drawNo := rfl

/-! ### `putH` -/

@[simp] theorem putH_params (s : State) (rows : List Nat) : (s.putH rows).params = s.params := rfl
@[simp] theorem putH_f (s : State) (rows : List Nat) : (s.putH rows).f = s.f := rfl
@[simp] theorem putH_cfg (s : State) (rows : List Nat) : (s.putH rows).cfg = s.cfg := rfl
@[simp] theorem putH_irqEn (s : State) (rows : List Nat) : (s.putH rows).irqEn = s.irqEn := rfl
@[simp] theorem putH_status (s : State) (rows : List Nat) : (s.putH rows).status = s.status := rfl
@[simp] theorem putH_chk (s : State) (rows : List Nat) : (s.putH rows).chk = s.chk := rfl
@[simp] theorem putH_mask (s : State) (rows : List Nat) : (s.putH rows).mask = s.mask := rfl
@[simp] theorem putH_permCnt (s : State) (rows : List Nat) : (s.putH rows).permCnt = s.permCnt := rfl
@[simp] theorem putH_bmL (s : State) (rows : List Nat) : (s.putH rows).bmL = s.bmL := rfl
@[simp] theorem putH_draws (s : State) (rows : List Nat) : (s.putH rows).draws = s.draws := rfl
@[simp] theorem putH_fmAddr (s : State) (rows : List Nat) : (s.putH rows).fmAddr = s.fmAddr := rfl
@[simp] theorem putH_bmAddr (s : State) (rows : List Nat) : (s.putH rows).bmAddr = s.bmAddr := rfl
@[simp] theorem putH_fm (s : State) (rows : List Nat) : (s.putH rows).fm = s.fm := rfl
@[simp] theorem putH_bm (s : State) (rows : List Nat) :
    (s.putH rows).bm = s.bm.putRows s.cfg.hStride.toNat s.pN s.cfg.hBase.toNat rows := rfl
@[simp] theorem putH_rng (s : State) (rows : List Nat) : (s.putH rows).rng = s.rng := rfl
@[simp] theorem putH_inflight (s : State) (rows : List Nat) : (s.putH rows).inflight = s.inflight := rfl
@[simp] theorem putH_busResp (s : State) (rows : List Nat) : (s.putH rows).busResp = s.busResp := rfl
@[simp] theorem putH_inputs (s : State) (rows : List Nat) : (s.putH rows).inputs = s.inputs := rfl
@[simp] theorem putH_quota (s : State) (rows : List Nat) : (s.putH rows).quota = s.quota := rfl
@[simp] theorem putH_drawNo (s : State) (rows : List Nat) : (s.putH rows).drawNo = s.drawNo := rfl

/-! ### `withCfg` -/

@[simp] theorem withCfg_params (s : State) (cfg : ConfigRegs) : (s.withCfg cfg).params = s.params := rfl
@[simp] theorem withCfg_f (s : State) (cfg : ConfigRegs) : (s.withCfg cfg).f = s.f := rfl
@[simp] theorem withCfg_cfg (s : State) (cfg : ConfigRegs) : (s.withCfg cfg).cfg = cfg := rfl
@[simp] theorem withCfg_irqEn (s : State) (cfg : ConfigRegs) : (s.withCfg cfg).irqEn = s.irqEn := rfl
@[simp] theorem withCfg_status (s : State) (cfg : ConfigRegs) : (s.withCfg cfg).status = s.status := rfl
@[simp] theorem withCfg_chk (s : State) (cfg : ConfigRegs) : (s.withCfg cfg).chk = s.chk := rfl
@[simp] theorem withCfg_mask (s : State) (cfg : ConfigRegs) : (s.withCfg cfg).mask = s.mask := rfl
@[simp] theorem withCfg_permCnt (s : State) (cfg : ConfigRegs) : (s.withCfg cfg).permCnt = s.permCnt := rfl
@[simp] theorem withCfg_bmL (s : State) (cfg : ConfigRegs) : (s.withCfg cfg).bmL = s.bmL := rfl
@[simp] theorem withCfg_draws (s : State) (cfg : ConfigRegs) : (s.withCfg cfg).draws = s.draws := rfl
@[simp] theorem withCfg_fmAddr (s : State) (cfg : ConfigRegs) : (s.withCfg cfg).fmAddr = s.fmAddr := rfl
@[simp] theorem withCfg_bmAddr (s : State) (cfg : ConfigRegs) : (s.withCfg cfg).bmAddr = s.bmAddr := rfl
@[simp] theorem withCfg_fm (s : State) (cfg : ConfigRegs) : (s.withCfg cfg).fm = s.fm := rfl
@[simp] theorem withCfg_bm (s : State) (cfg : ConfigRegs) : (s.withCfg cfg).bm = s.bm := rfl
@[simp] theorem withCfg_rng (s : State) (cfg : ConfigRegs) : (s.withCfg cfg).rng = s.rng := rfl
@[simp] theorem withCfg_inflight (s : State) (cfg : ConfigRegs) : (s.withCfg cfg).inflight = s.inflight := rfl
@[simp] theorem withCfg_busResp (s : State) (cfg : ConfigRegs) : (s.withCfg cfg).busResp = s.busResp := rfl
@[simp] theorem withCfg_inputs (s : State) (cfg : ConfigRegs) : (s.withCfg cfg).inputs = s.inputs := rfl
@[simp] theorem withCfg_quota (s : State) (cfg : ConfigRegs) : (s.withCfg cfg).quota = s.quota := rfl
@[simp] theorem withCfg_drawNo (s : State) (cfg : ConfigRegs) : (s.withCfg cfg).drawNo = s.drawNo := rfl

/-! ### `accept` -/

@[simp] theorem accept_params (s : State) (w : BWord) : (accept w s).params = s.params := rfl
@[simp] theorem accept_f (s : State) (w : BWord) : (accept w s).f = s.f := rfl
@[simp] theorem accept_cfg (s : State) (w : BWord) : (accept w s).cfg = s.cfg := rfl
@[simp] theorem accept_irqEn (s : State) (w : BWord) : (accept w s).irqEn = s.irqEn := rfl
@[simp] theorem accept_status (s : State) (w : BWord) :
    (accept w s).status = { s.status with done := false, err := false, rngWait := false } := rfl
@[simp] theorem accept_chk (s : State) (w : BWord) : (accept w s).chk = s.chk := rfl
@[simp] theorem accept_mask (s : State) (w : BWord) : (accept w s).mask = s.mask := rfl
@[simp] theorem accept_permCnt (s : State) (w : BWord) : (accept w s).permCnt = s.permCnt := rfl
@[simp] theorem accept_bmL (s : State) (w : BWord) : (accept w s).bmL = s.bmL := rfl
@[simp] theorem accept_draws (s : State) (w : BWord) : (accept w s).draws = s.draws := rfl
@[simp] theorem accept_fmAddr (s : State) (w : BWord) : (accept w s).fmAddr = s.fmAddr := rfl
@[simp] theorem accept_bmAddr (s : State) (w : BWord) : (accept w s).bmAddr = s.bmAddr := rfl
@[simp] theorem accept_fm (s : State) (w : BWord) : (accept w s).fm = s.fm := rfl
@[simp] theorem accept_bm (s : State) (w : BWord) : (accept w s).bm = s.bm := rfl
@[simp] theorem accept_rng (s : State) (w : BWord) : (accept w s).rng = s.rng := rfl
@[simp] theorem accept_inflight (s : State) (w : BWord) :
    (accept w s).inflight = some { word := w, accepted := [], consumed := 0 } := rfl
@[simp] theorem accept_busResp (s : State) (w : BWord) : (accept w s).busResp = s.busResp := rfl
@[simp] theorem accept_inputs (s : State) (w : BWord) : (accept w s).inputs = s.inputs := rfl
@[simp] theorem accept_quota (s : State) (w : BWord) : (accept w s).quota = s.quota := rfl
@[simp] theorem accept_drawNo (s : State) (w : BWord) : (accept w s).drawNo = s.drawNo := rfl

/-! ### `complete` -/

@[simp] theorem complete_params (s : State) (res : CmdResult) : (complete res s).params = s.params := rfl
@[simp] theorem complete_f (s : State) (res : CmdResult) : (complete res s).f = s.f := rfl
@[simp] theorem complete_cfg (s : State) (res : CmdResult) : (complete res s).cfg = s.cfg := rfl
@[simp] theorem complete_irqEn (s : State) (res : CmdResult) : (complete res s).irqEn = s.irqEn := rfl
@[simp] theorem complete_status (s : State) (res : CmdResult) :
    (complete res s).status = { s.status with result := res, errCode := .none, done := true, err := false, rngWait := false } := rfl
@[simp] theorem complete_chk (s : State) (res : CmdResult) : (complete res s).chk = s.chk := rfl
@[simp] theorem complete_mask (s : State) (res : CmdResult) : (complete res s).mask = s.mask := rfl
@[simp] theorem complete_permCnt (s : State) (res : CmdResult) : (complete res s).permCnt = s.permCnt := rfl
@[simp] theorem complete_bmL (s : State) (res : CmdResult) : (complete res s).bmL = s.bmL := rfl
@[simp] theorem complete_draws (s : State) (res : CmdResult) : (complete res s).draws = s.draws := rfl
@[simp] theorem complete_fmAddr (s : State) (res : CmdResult) : (complete res s).fmAddr = s.fmAddr := rfl
@[simp] theorem complete_bmAddr (s : State) (res : CmdResult) : (complete res s).bmAddr = s.bmAddr := rfl
@[simp] theorem complete_fm (s : State) (res : CmdResult) : (complete res s).fm = s.fm := rfl
@[simp] theorem complete_bm (s : State) (res : CmdResult) : (complete res s).bm = s.bm := rfl
@[simp] theorem complete_rng (s : State) (res : CmdResult) : (complete res s).rng = s.rng := rfl
@[simp] theorem complete_inflight (s : State) (res : CmdResult) : (complete res s).inflight = none := rfl
@[simp] theorem complete_busResp (s : State) (res : CmdResult) : (complete res s).busResp = s.busResp := rfl
@[simp] theorem complete_inputs (s : State) (res : CmdResult) : (complete res s).inputs = s.inputs := rfl
@[simp] theorem complete_quota (s : State) (res : CmdResult) : (complete res s).quota = s.quota := rfl
@[simp] theorem complete_drawNo (s : State) (res : CmdResult) : (complete res s).drawNo = s.drawNo := rfl

/-! ### `raise` -/

@[simp] theorem raise_params (s : State) (code : ErrCode) : (raise code s).params = s.params := rfl
@[simp] theorem raise_f (s : State) (code : ErrCode) : (raise code s).f = s.f := rfl
@[simp] theorem raise_cfg (s : State) (code : ErrCode) : (raise code s).cfg = s.cfg := rfl
@[simp] theorem raise_irqEn (s : State) (code : ErrCode) : (raise code s).irqEn = s.irqEn := rfl
@[simp] theorem raise_status (s : State) (code : ErrCode) :
    (raise code s).status = { s.status with result := .error, errCode := code, done := true, err := code != .none, rngWait := false } := rfl
@[simp] theorem raise_chk (s : State) (code : ErrCode) : (raise code s).chk = s.chk := rfl
@[simp] theorem raise_mask (s : State) (code : ErrCode) : (raise code s).mask = s.mask := rfl
@[simp] theorem raise_permCnt (s : State) (code : ErrCode) : (raise code s).permCnt = s.permCnt := rfl
@[simp] theorem raise_bmL (s : State) (code : ErrCode) : (raise code s).bmL = s.bmL := rfl
@[simp] theorem raise_draws (s : State) (code : ErrCode) : (raise code s).draws = s.draws := rfl
@[simp] theorem raise_fmAddr (s : State) (code : ErrCode) : (raise code s).fmAddr = s.fmAddr := rfl
@[simp] theorem raise_bmAddr (s : State) (code : ErrCode) : (raise code s).bmAddr = s.bmAddr := rfl
@[simp] theorem raise_fm (s : State) (code : ErrCode) : (raise code s).fm = s.fm := rfl
@[simp] theorem raise_bm (s : State) (code : ErrCode) : (raise code s).bm = s.bm := rfl
@[simp] theorem raise_rng (s : State) (code : ErrCode) : (raise code s).rng = s.rng := rfl
@[simp] theorem raise_inflight (s : State) (code : ErrCode) : (raise code s).inflight = none := rfl
@[simp] theorem raise_busResp (s : State) (code : ErrCode) : (raise code s).busResp = s.busResp := rfl
@[simp] theorem raise_inputs (s : State) (code : ErrCode) : (raise code s).inputs = s.inputs := rfl
@[simp] theorem raise_quota (s : State) (code : ErrCode) : (raise code s).quota = s.quota := rfl
@[simp] theorem raise_drawNo (s : State) (code : ErrCode) : (raise code s).drawNo = s.drawNo := rfl

/-! ### `setHostConflict` -/

@[simp] theorem setHostConflict_params (s : State) : (setHostConflict s).params = s.params := rfl
@[simp] theorem setHostConflict_f (s : State) : (setHostConflict s).f = s.f := rfl
@[simp] theorem setHostConflict_cfg (s : State) : (setHostConflict s).cfg = s.cfg := rfl
@[simp] theorem setHostConflict_irqEn (s : State) : (setHostConflict s).irqEn = s.irqEn := rfl
@[simp] theorem setHostConflict_status (s : State) :
    (setHostConflict s).status = { s.status with hostConflict := true } := rfl
@[simp] theorem setHostConflict_chk (s : State) : (setHostConflict s).chk = s.chk := rfl
@[simp] theorem setHostConflict_mask (s : State) : (setHostConflict s).mask = s.mask := rfl
@[simp] theorem setHostConflict_permCnt (s : State) : (setHostConflict s).permCnt = s.permCnt := rfl
@[simp] theorem setHostConflict_bmL (s : State) : (setHostConflict s).bmL = s.bmL := rfl
@[simp] theorem setHostConflict_draws (s : State) : (setHostConflict s).draws = s.draws := rfl
@[simp] theorem setHostConflict_fmAddr (s : State) : (setHostConflict s).fmAddr = s.fmAddr := rfl
@[simp] theorem setHostConflict_bmAddr (s : State) : (setHostConflict s).bmAddr = s.bmAddr := rfl
@[simp] theorem setHostConflict_fm (s : State) : (setHostConflict s).fm = s.fm := rfl
@[simp] theorem setHostConflict_bm (s : State) : (setHostConflict s).bm = s.bm := rfl
@[simp] theorem setHostConflict_rng (s : State) : (setHostConflict s).rng = s.rng := rfl
@[simp] theorem setHostConflict_inflight (s : State) : (setHostConflict s).inflight = s.inflight := rfl
@[simp] theorem setHostConflict_busResp (s : State) : (setHostConflict s).busResp = s.busResp := rfl
@[simp] theorem setHostConflict_inputs (s : State) : (setHostConflict s).inputs = s.inputs := rfl
@[simp] theorem setHostConflict_quota (s : State) : (setHostConflict s).quota = s.quota := rfl
@[simp] theorem setHostConflict_drawNo (s : State) : (setHostConflict s).drawNo = s.drawNo := rfl

/-! ### `setCmdOvr` -/

@[simp] theorem setCmdOvr_params (s : State) : (setCmdOvr s).params = s.params := rfl
@[simp] theorem setCmdOvr_f (s : State) : (setCmdOvr s).f = s.f := rfl
@[simp] theorem setCmdOvr_cfg (s : State) : (setCmdOvr s).cfg = s.cfg := rfl
@[simp] theorem setCmdOvr_irqEn (s : State) : (setCmdOvr s).irqEn = s.irqEn := rfl
@[simp] theorem setCmdOvr_status (s : State) : (setCmdOvr s).status = { s.status with cmdOvr := true } := rfl
@[simp] theorem setCmdOvr_chk (s : State) : (setCmdOvr s).chk = s.chk := rfl
@[simp] theorem setCmdOvr_mask (s : State) : (setCmdOvr s).mask = s.mask := rfl
@[simp] theorem setCmdOvr_permCnt (s : State) : (setCmdOvr s).permCnt = s.permCnt := rfl
@[simp] theorem setCmdOvr_bmL (s : State) : (setCmdOvr s).bmL = s.bmL := rfl
@[simp] theorem setCmdOvr_draws (s : State) : (setCmdOvr s).draws = s.draws := rfl
@[simp] theorem setCmdOvr_fmAddr (s : State) : (setCmdOvr s).fmAddr = s.fmAddr := rfl
@[simp] theorem setCmdOvr_bmAddr (s : State) : (setCmdOvr s).bmAddr = s.bmAddr := rfl
@[simp] theorem setCmdOvr_fm (s : State) : (setCmdOvr s).fm = s.fm := rfl
@[simp] theorem setCmdOvr_bm (s : State) : (setCmdOvr s).bm = s.bm := rfl
@[simp] theorem setCmdOvr_rng (s : State) : (setCmdOvr s).rng = s.rng := rfl
@[simp] theorem setCmdOvr_inflight (s : State) : (setCmdOvr s).inflight = s.inflight := rfl
@[simp] theorem setCmdOvr_busResp (s : State) : (setCmdOvr s).busResp = s.busResp := rfl
@[simp] theorem setCmdOvr_inputs (s : State) : (setCmdOvr s).inputs = s.inputs := rfl
@[simp] theorem setCmdOvr_quota (s : State) : (setCmdOvr s).quota = s.quota := rfl
@[simp] theorem setCmdOvr_drawNo (s : State) : (setCmdOvr s).drawNo = s.drawNo := rfl

/-! ### `setRngOvf` -/

@[simp] theorem setRngOvf_params (s : State) : (setRngOvf s).params = s.params := rfl
@[simp] theorem setRngOvf_f (s : State) : (setRngOvf s).f = s.f := rfl
@[simp] theorem setRngOvf_cfg (s : State) : (setRngOvf s).cfg = s.cfg := rfl
@[simp] theorem setRngOvf_irqEn (s : State) : (setRngOvf s).irqEn = s.irqEn := rfl
@[simp] theorem setRngOvf_status (s : State) : (setRngOvf s).status = { s.status with rngOvf := true } := rfl
@[simp] theorem setRngOvf_chk (s : State) : (setRngOvf s).chk = s.chk := rfl
@[simp] theorem setRngOvf_mask (s : State) : (setRngOvf s).mask = s.mask := rfl
@[simp] theorem setRngOvf_permCnt (s : State) : (setRngOvf s).permCnt = s.permCnt := rfl
@[simp] theorem setRngOvf_bmL (s : State) : (setRngOvf s).bmL = s.bmL := rfl
@[simp] theorem setRngOvf_draws (s : State) : (setRngOvf s).draws = s.draws := rfl
@[simp] theorem setRngOvf_fmAddr (s : State) : (setRngOvf s).fmAddr = s.fmAddr := rfl
@[simp] theorem setRngOvf_bmAddr (s : State) : (setRngOvf s).bmAddr = s.bmAddr := rfl
@[simp] theorem setRngOvf_fm (s : State) : (setRngOvf s).fm = s.fm := rfl
@[simp] theorem setRngOvf_bm (s : State) : (setRngOvf s).bm = s.bm := rfl
@[simp] theorem setRngOvf_rng (s : State) : (setRngOvf s).rng = s.rng := rfl
@[simp] theorem setRngOvf_inflight (s : State) : (setRngOvf s).inflight = s.inflight := rfl
@[simp] theorem setRngOvf_busResp (s : State) : (setRngOvf s).busResp = s.busResp := rfl
@[simp] theorem setRngOvf_inputs (s : State) : (setRngOvf s).inputs = s.inputs := rfl
@[simp] theorem setRngOvf_quota (s : State) : (setRngOvf s).quota = s.quota := rfl
@[simp] theorem setRngOvf_drawNo (s : State) : (setRngOvf s).drawNo = s.drawNo := rfl

/-! ### `incFm` -/

@[simp] theorem incFm_params (s : State) : (incFm s).params = s.params := rfl
@[simp] theorem incFm_f (s : State) : (incFm s).f = s.f := rfl
@[simp] theorem incFm_cfg (s : State) : (incFm s).cfg = s.cfg := rfl
@[simp] theorem incFm_irqEn (s : State) : (incFm s).irqEn = s.irqEn := rfl
@[simp] theorem incFm_status (s : State) : (incFm s).status = s.status := rfl
@[simp] theorem incFm_chk (s : State) : (incFm s).chk = s.chk := rfl
@[simp] theorem incFm_mask (s : State) : (incFm s).mask = s.mask := rfl
@[simp] theorem incFm_permCnt (s : State) : (incFm s).permCnt = s.permCnt := rfl
@[simp] theorem incFm_bmL (s : State) : (incFm s).bmL = s.bmL := rfl
@[simp] theorem incFm_draws (s : State) : (incFm s).draws = s.draws := rfl
@[simp] theorem incFm_fmAddr (s : State) : (incFm s).fmAddr = s.fmAddr + 1 := rfl
@[simp] theorem incFm_bmAddr (s : State) : (incFm s).bmAddr = s.bmAddr := rfl
@[simp] theorem incFm_fm (s : State) : (incFm s).fm = s.fm := rfl
@[simp] theorem incFm_bm (s : State) : (incFm s).bm = s.bm := rfl
@[simp] theorem incFm_rng (s : State) : (incFm s).rng = s.rng := rfl
@[simp] theorem incFm_inflight (s : State) : (incFm s).inflight = s.inflight := rfl
@[simp] theorem incFm_busResp (s : State) : (incFm s).busResp = s.busResp := rfl
@[simp] theorem incFm_inputs (s : State) : (incFm s).inputs = s.inputs := rfl
@[simp] theorem incFm_quota (s : State) : (incFm s).quota = s.quota := rfl
@[simp] theorem incFm_drawNo (s : State) : (incFm s).drawNo = s.drawNo := rfl

/-! ### `incBm` -/

@[simp] theorem incBm_params (s : State) : (incBm s).params = s.params := rfl
@[simp] theorem incBm_f (s : State) : (incBm s).f = s.f := rfl
@[simp] theorem incBm_cfg (s : State) : (incBm s).cfg = s.cfg := rfl
@[simp] theorem incBm_irqEn (s : State) : (incBm s).irqEn = s.irqEn := rfl
@[simp] theorem incBm_status (s : State) : (incBm s).status = s.status := rfl
@[simp] theorem incBm_chk (s : State) : (incBm s).chk = s.chk := rfl
@[simp] theorem incBm_mask (s : State) : (incBm s).mask = s.mask := rfl
@[simp] theorem incBm_permCnt (s : State) : (incBm s).permCnt = s.permCnt := rfl
@[simp] theorem incBm_bmL (s : State) : (incBm s).bmL = s.bmL := rfl
@[simp] theorem incBm_draws (s : State) : (incBm s).draws = s.draws := rfl
@[simp] theorem incBm_fmAddr (s : State) : (incBm s).fmAddr = s.fmAddr := rfl
@[simp] theorem incBm_bmAddr (s : State) : (incBm s).bmAddr = s.bmAddr + 1 := rfl
@[simp] theorem incBm_fm (s : State) : (incBm s).fm = s.fm := rfl
@[simp] theorem incBm_bm (s : State) : (incBm s).bm = s.bm := rfl
@[simp] theorem incBm_rng (s : State) : (incBm s).rng = s.rng := rfl
@[simp] theorem incBm_inflight (s : State) : (incBm s).inflight = s.inflight := rfl
@[simp] theorem incBm_busResp (s : State) : (incBm s).busResp = s.busResp := rfl
@[simp] theorem incBm_inputs (s : State) : (incBm s).inputs = s.inputs := rfl
@[simp] theorem incBm_quota (s : State) : (incBm s).quota = s.quota := rfl
@[simp] theorem incBm_drawNo (s : State) : (incBm s).drawNo = s.drawNo := rfl

end Sys2Proof.Machine
end

