-- ==== Sys2Proof/Laws/Ops.lean ====
section
/-! SUPPORT. What the shared operations that make draws leave alone, field by field, and how many draws they make. -/

namespace Sys2Proof.Machine

/-! ### `drawFm` -/

@[simp] theorem State.drawFm_params (as : List Nat) (s : State) : (s.drawFm as).params = s.params := by
  induction as generalizing s with
  | nil => rfl
  | cons a as ih => exact (ih _).trans rfl

@[simp] theorem State.drawFm_f (as : List Nat) (s : State) : (s.drawFm as).f = s.f := by
  induction as generalizing s with
  | nil => rfl
  | cons a as ih => exact (ih _).trans rfl

@[simp] theorem State.drawFm_cfg (as : List Nat) (s : State) : (s.drawFm as).cfg = s.cfg := by
  induction as generalizing s with
  | nil => rfl
  | cons a as ih => exact (ih _).trans rfl

@[simp] theorem State.drawFm_irqEn (as : List Nat) (s : State) : (s.drawFm as).irqEn = s.irqEn := by
  induction as generalizing s with
  | nil => rfl
  | cons a as ih => exact (ih _).trans rfl

@[simp] theorem State.drawFm_status (as : List Nat) (s : State) : (s.drawFm as).status = s.status := by
  induction as generalizing s with
  | nil => rfl
  | cons a as ih => exact (ih _).trans rfl

@[simp] theorem State.drawFm_chk (as : List Nat) (s : State) : (s.drawFm as).chk = s.chk := by
  induction as generalizing s with
  | nil => rfl
  | cons a as ih => exact (ih _).trans rfl

@[simp] theorem State.drawFm_mask (as : List Nat) (s : State) : (s.drawFm as).mask = s.mask := by
  induction as generalizing s with
  | nil => rfl
  | cons a as ih => exact (ih _).trans rfl

@[simp] theorem State.drawFm_permCnt (as : List Nat) (s : State) : (s.drawFm as).permCnt = s.permCnt := by
  induction as generalizing s with
  | nil => rfl
  | cons a as ih => exact (ih _).trans rfl

@[simp] theorem State.drawFm_bmL (as : List Nat) (s : State) : (s.drawFm as).bmL = s.bmL := by
  induction as generalizing s with
  | nil => rfl
  | cons a as ih => exact (ih _).trans rfl

@[simp] theorem State.drawFm_draws (as : List Nat) (s : State) : (s.drawFm as).draws = s.draws := by
  induction as generalizing s with
  | nil => rfl
  | cons a as ih => exact (ih _).trans rfl

@[simp] theorem State.drawFm_fmAddr (as : List Nat) (s : State) : (s.drawFm as).fmAddr = s.fmAddr := by
  induction as generalizing s with
  | nil => rfl
  | cons a as ih => exact (ih _).trans rfl

@[simp] theorem State.drawFm_bmAddr (as : List Nat) (s : State) : (s.drawFm as).bmAddr = s.bmAddr := by
  induction as generalizing s with
  | nil => rfl
  | cons a as ih => exact (ih _).trans rfl

@[simp] theorem State.drawFm_bm (as : List Nat) (s : State) : (s.drawFm as).bm = s.bm := by
  induction as generalizing s with
  | nil => rfl
  | cons a as ih => exact (ih _).trans rfl

@[simp] theorem State.drawFm_rng (as : List Nat) (s : State) : (s.drawFm as).rng = s.rng := by
  induction as generalizing s with
  | nil => rfl
  | cons a as ih => exact (ih _).trans rfl

@[simp] theorem State.drawFm_inflight (as : List Nat) (s : State) : (s.drawFm as).inflight = s.inflight := by
  induction as generalizing s with
  | nil => rfl
  | cons a as ih => exact (ih _).trans rfl

@[simp] theorem State.drawFm_busResp (as : List Nat) (s : State) : (s.drawFm as).busResp = s.busResp := by
  induction as generalizing s with
  | nil => rfl
  | cons a as ih => exact (ih _).trans rfl

@[simp] theorem State.drawFm_inputs (as : List Nat) (s : State) : (s.drawFm as).inputs = s.inputs := by
  induction as generalizing s with
  | nil => rfl
  | cons a as ih => exact (ih _).trans rfl

@[simp] theorem State.drawFm_quota (as : List Nat) (s : State) : (s.drawFm as).quota = s.quota := by
  induction as generalizing s with
  | nil => rfl
  | cons a as ih => exact (ih _).trans rfl

@[simp] theorem State.drawFm_drawNo (as : List Nat) (s : State) : (s.drawFm as).drawNo = s.drawNo + as.length := by
  induction as generalizing s with
  | nil => rfl
  | cons a as ih => exact (ih _).trans (by simp; omega)

/-- A word that is not listed reads as before. -/
theorem State.drawFm_read?_other (as : List Nat) (s : State) (a : Nat) (h : a ∉ as) :
    (s.drawFm as).fm.read? a = s.fm.read? a := by
  induction as generalizing s with
  | nil => rfl
  | cons b as ih =>
    simp only [List.mem_cons, not_or] at h
    rw [State.drawFm, ih _ h.2]
    exact Mem.read?_write_other _ _ h.1

/-- A listed word is written. -/
theorem State.drawFm_read?_isSome (as : List Nat) (s : State) (a : Nat) (h : a ∈ as ∨ (s.fm.read? a).isSome = true) :
    ((s.drawFm as).fm.read? a).isSome = true := by
  induction as generalizing s with
  | nil => simpa [State.drawFm] using h
  | cons b as ih =>
    rw [State.drawFm]
    refine ih _ ?_
    by_cases hb : a = b
    · exact Or.inr (by simp [hb])
    · rcases h with h | h
      · exact Or.inl (by simpa [hb] using h)
      · exact Or.inr (by rw [Mem.read?_write_other _ _ hb]; exact h)

/-! ### `drawBm` -/

@[simp] theorem State.drawBm_params (as : List Nat) (s : State) : (s.drawBm as).params = s.params := by
  induction as generalizing s with
  | nil => rfl
  | cons a as ih => exact (ih _).trans rfl

@[simp] theorem State.drawBm_f (as : List Nat) (s : State) : (s.drawBm as).f = s.f := by
  induction as generalizing s with
  | nil => rfl
  | cons a as ih => exact (ih _).trans rfl

@[simp] theorem State.drawBm_cfg (as : List Nat) (s : State) : (s.drawBm as).cfg = s.cfg := by
  induction as generalizing s with
  | nil => rfl
  | cons a as ih => exact (ih _).trans rfl

@[simp] theorem State.drawBm_irqEn (as : List Nat) (s : State) : (s.drawBm as).irqEn = s.irqEn := by
  induction as generalizing s with
  | nil => rfl
  | cons a as ih => exact (ih _).trans rfl

@[simp] theorem State.drawBm_status (as : List Nat) (s : State) : (s.drawBm as).status = s.status := by
  induction as generalizing s with
  | nil => rfl
  | cons a as ih => exact (ih _).trans rfl

@[simp] theorem State.drawBm_chk (as : List Nat) (s : State) : (s.drawBm as).chk = s.chk := by
  induction as generalizing s with
  | nil => rfl
  | cons a as ih => exact (ih _).trans rfl

@[simp] theorem State.drawBm_mask (as : List Nat) (s : State) : (s.drawBm as).mask = s.mask := by
  induction as generalizing s with
  | nil => rfl
  | cons a as ih => exact (ih _).trans rfl

@[simp] theorem State.drawBm_permCnt (as : List Nat) (s : State) : (s.drawBm as).permCnt = s.permCnt := by
  induction as generalizing s with
  | nil => rfl
  | cons a as ih => exact (ih _).trans rfl

@[simp] theorem State.drawBm_bmL (as : List Nat) (s : State) : (s.drawBm as).bmL = s.bmL := by
  induction as generalizing s with
  | nil => rfl
  | cons a as ih => exact (ih _).trans rfl

@[simp] theorem State.drawBm_draws (as : List Nat) (s : State) : (s.drawBm as).draws = s.draws := by
  induction as generalizing s with
  | nil => rfl
  | cons a as ih => exact (ih _).trans rfl

@[simp] theorem State.drawBm_fmAddr (as : List Nat) (s : State) : (s.drawBm as).fmAddr = s.fmAddr := by
  induction as generalizing s with
  | nil => rfl
  | cons a as ih => exact (ih _).trans rfl

@[simp] theorem State.drawBm_bmAddr (as : List Nat) (s : State) : (s.drawBm as).bmAddr = s.bmAddr := by
  induction as generalizing s with
  | nil => rfl
  | cons a as ih => exact (ih _).trans rfl

@[simp] theorem State.drawBm_fm (as : List Nat) (s : State) : (s.drawBm as).fm = s.fm := by
  induction as generalizing s with
  | nil => rfl
  | cons a as ih => exact (ih _).trans rfl

@[simp] theorem State.drawBm_rng (as : List Nat) (s : State) : (s.drawBm as).rng = s.rng := by
  induction as generalizing s with
  | nil => rfl
  | cons a as ih => exact (ih _).trans rfl

@[simp] theorem State.drawBm_inflight (as : List Nat) (s : State) : (s.drawBm as).inflight = s.inflight := by
  induction as generalizing s with
  | nil => rfl
  | cons a as ih => exact (ih _).trans rfl

@[simp] theorem State.drawBm_busResp (as : List Nat) (s : State) : (s.drawBm as).busResp = s.busResp := by
  induction as generalizing s with
  | nil => rfl
  | cons a as ih => exact (ih _).trans rfl

@[simp] theorem State.drawBm_inputs (as : List Nat) (s : State) : (s.drawBm as).inputs = s.inputs := by
  induction as generalizing s with
  | nil => rfl
  | cons a as ih => exact (ih _).trans rfl

@[simp] theorem State.drawBm_quota (as : List Nat) (s : State) : (s.drawBm as).quota = s.quota := by
  induction as generalizing s with
  | nil => rfl
  | cons a as ih => exact (ih _).trans rfl

@[simp] theorem State.drawBm_drawNo (as : List Nat) (s : State) : (s.drawBm as).drawNo = s.drawNo + as.length := by
  induction as generalizing s with
  | nil => rfl
  | cons a as ih => exact (ih _).trans (by simp; omega)

/-- A word that is not listed reads as before. -/
theorem State.drawBm_read?_other (as : List Nat) (s : State) (a : Nat) (h : a ∉ as) :
    (s.drawBm as).bm.read? a = s.bm.read? a := by
  induction as generalizing s with
  | nil => rfl
  | cons b as ih =>
    simp only [List.mem_cons, not_or] at h
    rw [State.drawBm, ih _ h.2]
    exact Mem.read?_write_other _ _ h.1

/-- A listed word is written. -/
theorem State.drawBm_read?_isSome (as : List Nat) (s : State) (a : Nat) (h : a ∈ as ∨ (s.bm.read? a).isSome = true) :
    ((s.drawBm as).bm.read? a).isSome = true := by
  induction as generalizing s with
  | nil => simpa [State.drawBm] using h
  | cons b as ih =>
    rw [State.drawBm]
    refine ih _ ?_
    by_cases hb : a = b
    · exact Or.inr (by simp [hb])
    · rcases h with h | h
      · exact Or.inl (by simpa [hb] using h)
      · exact Or.inr (by rw [Mem.read?_write_other _ _ hb]; exact h)

/-! ### `setFOrDraw`, `completeDrawn`, `gaussFinish`, `gaussUndefined`, `sampleFinish`, `sampleHold` -/

@[simp] theorem setFOrDraw_params (s : State) (rd : FReg) (v : Option FWord) : (s.setFOrDraw rd v).params = s.params := by
  cases v <;> rfl

@[simp] theorem setFOrDraw_cfg (s : State) (rd : FReg) (v : Option FWord) : (s.setFOrDraw rd v).cfg = s.cfg := by
  cases v <;> rfl

@[simp] theorem setFOrDraw_irqEn (s : State) (rd : FReg) (v : Option FWord) : (s.setFOrDraw rd v).irqEn = s.irqEn := by
  cases v <;> rfl

@[simp] theorem setFOrDraw_status (s : State) (rd : FReg) (v : Option FWord) : (s.setFOrDraw rd v).status = s.status := by
  cases v <;> rfl

@[simp] theorem setFOrDraw_chk (s : State) (rd : FReg) (v : Option FWord) : (s.setFOrDraw rd v).chk = s.chk := by
  cases v <;> rfl

@[simp] theorem setFOrDraw_mask (s : State) (rd : FReg) (v : Option FWord) : (s.setFOrDraw rd v).mask = s.mask := by
  cases v <;> rfl

@[simp] theorem setFOrDraw_permCnt (s : State) (rd : FReg) (v : Option FWord) : (s.setFOrDraw rd v).permCnt = s.permCnt := by
  cases v <;> rfl

@[simp] theorem setFOrDraw_bmL (s : State) (rd : FReg) (v : Option FWord) : (s.setFOrDraw rd v).bmL = s.bmL := by
  cases v <;> rfl

@[simp] theorem setFOrDraw_draws (s : State) (rd : FReg) (v : Option FWord) : (s.setFOrDraw rd v).draws = s.draws := by
  cases v <;> rfl

@[simp] theorem setFOrDraw_fmAddr (s : State) (rd : FReg) (v : Option FWord) : (s.setFOrDraw rd v).fmAddr = s.fmAddr := by
  cases v <;> rfl

@[simp] theorem setFOrDraw_bmAddr (s : State) (rd : FReg) (v : Option FWord) : (s.setFOrDraw rd v).bmAddr = s.bmAddr := by
  cases v <;> rfl

@[simp] theorem setFOrDraw_fm (s : State) (rd : FReg) (v : Option FWord) : (s.setFOrDraw rd v).fm = s.fm := by
  cases v <;> rfl

@[simp] theorem setFOrDraw_bm (s : State) (rd : FReg) (v : Option FWord) : (s.setFOrDraw rd v).bm = s.bm := by
  cases v <;> rfl

@[simp] theorem setFOrDraw_rng (s : State) (rd : FReg) (v : Option FWord) : (s.setFOrDraw rd v).rng = s.rng := by
  cases v <;> rfl

@[simp] theorem setFOrDraw_inflight (s : State) (rd : FReg) (v : Option FWord) : (s.setFOrDraw rd v).inflight = s.inflight := by
  cases v <;> rfl

@[simp] theorem setFOrDraw_busResp (s : State) (rd : FReg) (v : Option FWord) : (s.setFOrDraw rd v).busResp = s.busResp := by
  cases v <;> rfl

@[simp] theorem setFOrDraw_inputs (s : State) (rd : FReg) (v : Option FWord) : (s.setFOrDraw rd v).inputs = s.inputs := by
  cases v <;> rfl

@[simp] theorem setFOrDraw_quota (s : State) (rd : FReg) (v : Option FWord) : (s.setFOrDraw rd v).quota = s.quota := by
  cases v <;> rfl

@[simp] theorem completeDrawn_params (s : State) : (completeDrawn s).params = s.params := rfl
@[simp] theorem completeDrawn_f (s : State) : (completeDrawn s).f = s.f := rfl
@[simp] theorem completeDrawn_cfg (s : State) : (completeDrawn s).cfg = s.cfg := rfl
@[simp] theorem completeDrawn_irqEn (s : State) : (completeDrawn s).irqEn = s.irqEn := rfl
@[simp] theorem completeDrawn_chk (s : State) : (completeDrawn s).chk = s.chk := rfl
@[simp] theorem completeDrawn_mask (s : State) : (completeDrawn s).mask = s.mask := rfl
@[simp] theorem completeDrawn_permCnt (s : State) : (completeDrawn s).permCnt = s.permCnt := rfl
@[simp] theorem completeDrawn_bmL (s : State) : (completeDrawn s).bmL = s.bmL := rfl
@[simp] theorem completeDrawn_draws (s : State) : (completeDrawn s).draws = s.draws := rfl
@[simp] theorem completeDrawn_fmAddr (s : State) : (completeDrawn s).fmAddr = s.fmAddr := rfl
@[simp] theorem completeDrawn_bmAddr (s : State) : (completeDrawn s).bmAddr = s.bmAddr := rfl
@[simp] theorem completeDrawn_fm (s : State) : (completeDrawn s).fm = s.fm := rfl
@[simp] theorem completeDrawn_bm (s : State) : (completeDrawn s).bm = s.bm := rfl
@[simp] theorem completeDrawn_rng (s : State) : (completeDrawn s).rng = s.rng := rfl
@[simp] theorem completeDrawn_busResp (s : State) : (completeDrawn s).busResp = s.busResp := rfl
@[simp] theorem completeDrawn_inputs (s : State) : (completeDrawn s).inputs = s.inputs := rfl
@[simp] theorem completeDrawn_quota (s : State) : (completeDrawn s).quota = s.quota := rfl
@[simp] theorem completeDrawn_inflight (s : State) : (completeDrawn s).inflight = none := rfl
@[simp] theorem completeDrawn_drawNo (s : State) : (completeDrawn s).drawNo = s.drawNo + 1 := rfl

@[simp] theorem gaussFinish_params (r : GaussEnd) (s : State) : (gaussFinish r s).params = s.params := by
  cases r <;> simp [gaussFinish]

@[simp] theorem gaussFinish_f (r : GaussEnd) (s : State) : (gaussFinish r s).f = s.f := by
  cases r <;> simp [gaussFinish]

@[simp] theorem gaussFinish_cfg (r : GaussEnd) (s : State) : (gaussFinish r s).cfg = s.cfg := by
  cases r <;> simp [gaussFinish]

@[simp] theorem gaussFinish_irqEn (r : GaussEnd) (s : State) : (gaussFinish r s).irqEn = s.irqEn := by
  cases r <;> simp [gaussFinish]

@[simp] theorem gaussFinish_chk (r : GaussEnd) (s : State) : (gaussFinish r s).chk = s.chk := by
  cases r <;> simp [gaussFinish]

@[simp] theorem gaussFinish_mask (r : GaussEnd) (s : State) : (gaussFinish r s).mask = s.mask := by
  cases r <;> simp [gaussFinish]

@[simp] theorem gaussFinish_bmL (r : GaussEnd) (s : State) : (gaussFinish r s).bmL = s.bmL := by
  cases r <;> simp [gaussFinish]

@[simp] theorem gaussFinish_draws (r : GaussEnd) (s : State) : (gaussFinish r s).draws = s.draws := by
  cases r <;> simp [gaussFinish]

@[simp] theorem gaussFinish_fmAddr (r : GaussEnd) (s : State) : (gaussFinish r s).fmAddr = s.fmAddr := by
  cases r <;> simp [gaussFinish]

@[simp] theorem gaussFinish_bmAddr (r : GaussEnd) (s : State) : (gaussFinish r s).bmAddr = s.bmAddr := by
  cases r <;> simp [gaussFinish]

@[simp] theorem gaussFinish_fm (r : GaussEnd) (s : State) : (gaussFinish r s).fm = s.fm := by
  cases r <;> simp [gaussFinish]

@[simp] theorem gaussFinish_rng (r : GaussEnd) (s : State) : (gaussFinish r s).rng = s.rng := by
  cases r <;> simp [gaussFinish]

@[simp] theorem gaussFinish_busResp (r : GaussEnd) (s : State) : (gaussFinish r s).busResp = s.busResp := by
  cases r <;> simp [gaussFinish]

@[simp] theorem gaussFinish_inputs (r : GaussEnd) (s : State) : (gaussFinish r s).inputs = s.inputs := by
  cases r <;> simp [gaussFinish]

@[simp] theorem gaussFinish_quota (r : GaussEnd) (s : State) : (gaussFinish r s).quota = s.quota := by
  cases r <;> simp [gaussFinish]

@[simp] theorem gaussFinish_inflight (r : GaussEnd) (s : State) : (gaussFinish r s).inflight = none := by
  cases r <;> rfl

@[simp] theorem gaussUndefined_params (as : List Nat) (s : State) : (gaussUndefined as s).params = s.params := by
  simp [gaussUndefined]

@[simp] theorem gaussUndefined_f (as : List Nat) (s : State) : (gaussUndefined as s).f = s.f := by
  simp [gaussUndefined]

@[simp] theorem gaussUndefined_cfg (as : List Nat) (s : State) : (gaussUndefined as s).cfg = s.cfg := by
  simp [gaussUndefined]

@[simp] theorem gaussUndefined_irqEn (as : List Nat) (s : State) : (gaussUndefined as s).irqEn = s.irqEn := by
  simp [gaussUndefined]

@[simp] theorem gaussUndefined_chk (as : List Nat) (s : State) : (gaussUndefined as s).chk = s.chk := by
  simp [gaussUndefined]

@[simp] theorem gaussUndefined_mask (as : List Nat) (s : State) : (gaussUndefined as s).mask = s.mask := by
  simp [gaussUndefined]

@[simp] theorem gaussUndefined_bmL (as : List Nat) (s : State) : (gaussUndefined as s).bmL = s.bmL := by
  simp [gaussUndefined]

@[simp] theorem gaussUndefined_draws (as : List Nat) (s : State) : (gaussUndefined as s).draws = s.draws := by
  simp [gaussUndefined]

@[simp] theorem gaussUndefined_fmAddr (as : List Nat) (s : State) : (gaussUndefined as s).fmAddr = s.fmAddr := by
  simp [gaussUndefined]

@[simp] theorem gaussUndefined_bmAddr (as : List Nat) (s : State) : (gaussUndefined as s).bmAddr = s.bmAddr := by
  simp [gaussUndefined]

@[simp] theorem gaussUndefined_rng (as : List Nat) (s : State) : (gaussUndefined as s).rng = s.rng := by
  simp [gaussUndefined]

@[simp] theorem gaussUndefined_busResp (as : List Nat) (s : State) : (gaussUndefined as s).busResp = s.busResp := by
  simp [gaussUndefined]

@[simp] theorem gaussUndefined_inputs (as : List Nat) (s : State) : (gaussUndefined as s).inputs = s.inputs := by
  simp [gaussUndefined]

@[simp] theorem gaussUndefined_quota (as : List Nat) (s : State) : (gaussUndefined as s).quota = s.quota := by
  simp [gaussUndefined]

@[simp] theorem gaussUndefined_inflight (as : List Nat) (s : State) : (gaussUndefined as s).inflight = none := rfl

@[simp] theorem gaussUndefined_fm (as : List Nat) (s : State) :
    (gaussUndefined as s).fm = ((s.drawBm s.hRegion.addrs).drawFm as).fm := by simp [gaussUndefined]

@[simp] theorem gaussUndefined_bm (as : List Nat) (s : State) :
    (gaussUndefined as s).bm = (s.drawBm s.hRegion.addrs).bm := by simp [gaussUndefined]

@[simp] theorem sampleFinish_params (res : CmdResult) (e d : Nat) (q : List FWord) (s : State) :
    (sampleFinish res e d q s).params = s.params := rfl
@[simp] theorem sampleFinish_f (res : CmdResult) (e d : Nat) (q : List FWord) (s : State) :
    (sampleFinish res e d q s).f = s.f := rfl
@[simp] theorem sampleFinish_cfg (res : CmdResult) (e d : Nat) (q : List FWord) (s : State) :
    (sampleFinish res e d q s).cfg = s.cfg := rfl
@[simp] theorem sampleFinish_irqEn (res : CmdResult) (e d : Nat) (q : List FWord) (s : State) :
    (sampleFinish res e d q s).irqEn = s.irqEn := rfl
@[simp] theorem sampleFinish_chk (res : CmdResult) (e d : Nat) (q : List FWord) (s : State) :
    (sampleFinish res e d q s).chk = s.chk := rfl
@[simp] theorem sampleFinish_mask (res : CmdResult) (e d : Nat) (q : List FWord) (s : State) :
    (sampleFinish res e d q s).mask = s.mask := rfl
@[simp] theorem sampleFinish_permCnt (res : CmdResult) (e d : Nat) (q : List FWord) (s : State) :
    (sampleFinish res e d q s).permCnt = s.permCnt := rfl
@[simp] theorem sampleFinish_bmL (res : CmdResult) (e d : Nat) (q : List FWord) (s : State) :
    (sampleFinish res e d q s).bmL = s.bmL := rfl
@[simp] theorem sampleFinish_fmAddr (res : CmdResult) (e d : Nat) (q : List FWord) (s : State) :
    (sampleFinish res e d q s).fmAddr = s.fmAddr := rfl
@[simp] theorem sampleFinish_bmAddr (res : CmdResult) (e d : Nat) (q : List FWord) (s : State) :
    (sampleFinish res e d q s).bmAddr = s.bmAddr := rfl
@[simp] theorem sampleFinish_fm (res : CmdResult) (e d : Nat) (q : List FWord) (s : State) :
    (sampleFinish res e d q s).fm = s.fm := rfl
@[simp] theorem sampleFinish_busResp (res : CmdResult) (e d : Nat) (q : List FWord) (s : State) :
    (sampleFinish res e d q s).busResp = s.busResp := rfl
@[simp] theorem sampleFinish_inputs (res : CmdResult) (e d : Nat) (q : List FWord) (s : State) :
    (sampleFinish res e d q s).inputs = s.inputs := rfl
@[simp] theorem sampleFinish_quota (res : CmdResult) (e d : Nat) (q : List FWord) (s : State) :
    (sampleFinish res e d q s).quota = s.quota := rfl
@[simp] theorem sampleFinish_drawNo (res : CmdResult) (e d : Nat) (q : List FWord) (s : State) :
    (sampleFinish res e d q s).drawNo = s.drawNo := rfl
@[simp] theorem sampleFinish_inflight (res : CmdResult) (e d : Nat) (q : List FWord) (s : State) :
    (sampleFinish res e d q s).inflight = none := rfl
@[simp] theorem sampleFinish_rng (res : CmdResult) (e d : Nat) (q : List FWord) (s : State) :
    (sampleFinish res e d q s).rng = q := rfl
@[simp] theorem sampleFinish_draws (res : CmdResult) (e d : Nat) (q : List FWord) (s : State) :
    (sampleFinish res e d q s).draws = BitVec.ofNat 32 d := rfl
@[simp] theorem sampleFinish_bm (res : CmdResult) (e d : Nat) (q : List FWord) (s : State) :
    (sampleFinish res e d q s).bm = s.bm.putVec s.cfg.eBase.toNat s.pN e := rfl

@[simp] theorem sampleHold_params (acc : List Nat) (d : Nat) (q : List FWord) (s : State) :
    (sampleHold acc d q s).params = s.params := rfl
@[simp] theorem sampleHold_f (acc : List Nat) (d : Nat) (q : List FWord) (s : State) :
    (sampleHold acc d q s).f = s.f := rfl
@[simp] theorem sampleHold_cfg (acc : List Nat) (d : Nat) (q : List FWord) (s : State) :
    (sampleHold acc d q s).cfg = s.cfg := rfl
@[simp] theorem sampleHold_irqEn (acc : List Nat) (d : Nat) (q : List FWord) (s : State) :
    (sampleHold acc d q s).irqEn = s.irqEn := rfl
@[simp] theorem sampleHold_chk (acc : List Nat) (d : Nat) (q : List FWord) (s : State) :
    (sampleHold acc d q s).chk = s.chk := rfl
@[simp] theorem sampleHold_mask (acc : List Nat) (d : Nat) (q : List FWord) (s : State) :
    (sampleHold acc d q s).mask = s.mask := rfl
@[simp] theorem sampleHold_permCnt (acc : List Nat) (d : Nat) (q : List FWord) (s : State) :
    (sampleHold acc d q s).permCnt = s.permCnt := rfl
@[simp] theorem sampleHold_bmL (acc : List Nat) (d : Nat) (q : List FWord) (s : State) :
    (sampleHold acc d q s).bmL = s.bmL := rfl
@[simp] theorem sampleHold_draws (acc : List Nat) (d : Nat) (q : List FWord) (s : State) :
    (sampleHold acc d q s).draws = s.draws := rfl
@[simp] theorem sampleHold_fmAddr (acc : List Nat) (d : Nat) (q : List FWord) (s : State) :
    (sampleHold acc d q s).fmAddr = s.fmAddr := rfl
@[simp] theorem sampleHold_bmAddr (acc : List Nat) (d : Nat) (q : List FWord) (s : State) :
    (sampleHold acc d q s).bmAddr = s.bmAddr := rfl
@[simp] theorem sampleHold_fm (acc : List Nat) (d : Nat) (q : List FWord) (s : State) :
    (sampleHold acc d q s).fm = s.fm := rfl
@[simp] theorem sampleHold_bm (acc : List Nat) (d : Nat) (q : List FWord) (s : State) :
    (sampleHold acc d q s).bm = s.bm := rfl
@[simp] theorem sampleHold_busResp (acc : List Nat) (d : Nat) (q : List FWord) (s : State) :
    (sampleHold acc d q s).busResp = s.busResp := rfl
@[simp] theorem sampleHold_inputs (acc : List Nat) (d : Nat) (q : List FWord) (s : State) :
    (sampleHold acc d q s).inputs = s.inputs := rfl
@[simp] theorem sampleHold_quota (acc : List Nat) (d : Nat) (q : List FWord) (s : State) :
    (sampleHold acc d q s).quota = s.quota := rfl
@[simp] theorem sampleHold_drawNo (acc : List Nat) (d : Nat) (q : List FWord) (s : State) :
    (sampleHold acc d q s).drawNo = s.drawNo := rfl
@[simp] theorem sampleHold_rng (acc : List Nat) (d : Nat) (q : List FWord) (s : State) :
    (sampleHold acc d q s).rng = q := rfl
@[simp] theorem sampleHold_inflight (acc : List Nat) (d : Nat) (q : List FWord) (s : State) :
    (sampleHold acc d q s).inflight = some { word := encode .sample, accepted := acc, consumed := d } := rfl
@[simp] theorem sampleHold_status (acc : List Nat) (d : Nat) (q : List FWord) (s : State) :
    (sampleHold acc d q s).status = { s.status with rngWait := q.isEmpty } := rfl

end Sys2Proof.Machine
end

