-- ==== Sys2Proof/Laws/Exec.lean ====
section
/-! SUPPORT. What executing a command and taking a step can do, each said once. -/

namespace Sys2Proof.Machine

/-- A command's effect once its checks have passed. -/
def effect : Instr → State → State
  | .nop => nopEffect
  | .fadd rd rs1 rs2 => faddEffect rd rs1 rs2
  | .fmul rd rs1 rs2 => fmulEffect rd rs1 rs2
  | .fsqr rd rs1 => fsqrEffect rd rs1
  | .finv rd rs1 => finvEffect rd rs1
  | .fpow rd rs1 rs2 => fpowEffect rd rs1 rs2
  | .ftr rd rs1 => ftrEffect rd rs1
  | .fmov rd rs1 => fmovEffect rd rs1
  | .fli rd imm => fliEffect rd imm
  | .fld rd addr => fldEffect rd addr
  | .fst rs addr => fstEffect rs addr
  | .peval rd rs1 sel => pevalEffect rd rs1 sel
  | .hbuild => hbuildEffect
  | .gauss => gaussEffect
  | .pkext => pkextEffect
  | .synd flags => syndEffect flags
  | .sample => sampleEffect
  | .dsynd flags => dsyndEffect flags
  | .bm => bmEffect
  | .roots => rootsEffect
  | .check flags => checkEffect flags

theorem exec_eq_checked (i : Instr) (s : State) : exec i s = checked i s (effect i) := by
  cases i <;> rfl

/-- A command whose checks pass has its effect. -/
theorem exec_of_ok {i : Instr} {s : State} (h : firstError s i = none) : exec i s = .next (effect i s) := by
  simp [exec_eq_checked, checked, h]

/-- A command that reports an error changes nothing but STATUS. -/
theorem exec_of_error {i : Instr} {s : State} {code : ErrCode} (h : firstError s i = some code) :
    exec i s = .next (raise code s) := by
  simp [exec_eq_checked, checked, h]

/-- Everything executing a command can do. -/
theorem exec_cases {i : Instr} {s t : State} (h : exec i s = .next t) :
    (∃ code, firstError s i = some code ∧ t = raise code s) ∨ (firstError s i = none ∧ t = effect i s) := by
  cases he : firstError s i with
  | none =>
    rw [exec_of_ok he] at h
    exact Or.inr ⟨rfl, by injection h with h; exact h.symm⟩
  | some code =>
    rw [exec_of_error he] at h
    exact Or.inl ⟨code, rfl, by injection h with h; exact h.symm⟩

/-- Everything an engine turn can do. -/
theorem engineTurn_cases {s t : State} (h : engineTurn s = .next t) :
    (s.inflight = none ∧ t = s) ∨
    (∃ c e, s.inflight = some c ∧ decode c.word = .error e ∧ t = raise .illegal s) ∨
    (∃ c i, s.inflight = some c ∧ decode c.word = .ok i ∧ exec i s = .next t) := by
  unfold engineTurn at h
  split at h
  · next hc => exact Or.inl ⟨hc, by injection h with h; exact h.symm⟩
  · next c hc =>
    split at h
    · next e he => exact Or.inr (Or.inl ⟨c, e, hc, he, by injection h with h; exact h.symm⟩)
    · next i hi => exact Or.inr (Or.inr ⟨c, i, hc, hi, h⟩)

/-- Everything a step can do: the engine's turn, a transfer, a reset, or a loss of power. -/
theorem step_cases {s t : State} (h : step s = .next t) :
    (s.inputs = [] ∧ engineTurn { s with quota := none } = .next t) ∨
    (∃ q rest, s.inputs = .engine q :: rest ∧ engineTurn { s with inputs := rest, quota := q } = .next t) ∨
    (∃ x rest, s.inputs = .bus x :: rest ∧ t = busTransfer x { s with inputs := rest }) ∨
    (∃ rest, s.inputs = .hwReset :: rest ∧ t = hardwareReset { s with inputs := rest }) ∨
    (∃ rest, s.inputs = .powerCycle :: rest ∧ t = powerCycle { s with inputs := rest }) := by
  unfold step at h
  split at h
  · next hi => exact Or.inl ⟨hi, h⟩
  · next e rest hi =>
    cases e with
    | bus x =>
      injection h with h
      exact Or.inr (Or.inr (Or.inl ⟨x, rest, hi, h.symm⟩))
    | engine q => exact Or.inr (Or.inl ⟨q, rest, hi, h⟩)
    | hwReset =>
      injection h with h
      exact Or.inr (Or.inr (Or.inr (Or.inl ⟨rest, hi, h.symm⟩)))
    | powerCycle =>
      injection h with h
      exact Or.inr (Or.inr (Or.inr (Or.inr ⟨rest, hi, h.symm⟩)))

/-- Everything a read of a register does to the state: nothing, a draw, a refused window read, or a pointer moved on. -/
theorem readReg_state (r : Reg) (s : State) :
    (readReg r s).2 = s ∨ (readReg r s).2 = s.drew ∨ (s.busy = true ∧ (readReg r s).2 = setHostConflict s.drew) ∨
    (readReg r s).2 = incFm s ∨ (readReg r s).2 = incFm s.drew ∨ (readReg r s).2 = incBm s ∨
    (readReg r s).2 = incBm s.drew := by
  cases r <;> simp only [readReg, readResult, readFmData, readBmData, readWindowBusy] <;> (repeat' split) <;> simp_all

end Sys2Proof.Machine
end

