-- ==== Sys2Proof/Laws/Bus.lean ====
section
/-! SUPPORT. The bus: which register an offset names, and everything one transfer can do. -/

namespace Sys2Proof.Machine

/-! ### Offsets -/

/-- Every row of the map is at an aligned offset, and `regAt` finds it there (R23). -/
theorem regAt_of_mem : ∀ x ∈ regMap, regAt (BitVec.ofNat 12 x.1) = x.2 ∧ served (BitVec.ofNat 12 x.1) 0xF = true := by
  decide +kernel

/-- What a lookup finds stands in the list. -/
theorem mem_of_lookup {m : List (Nat × Reg)} {a : Nat} {r : Reg} (h : m.lookup a = some r) : (a, r) ∈ m := by
  induction m with
  | nil => simp at h
  | cons x m ih =>
    obtain ⟨k, v⟩ := x
    by_cases hk : a = k
    · subst hk
      simp only [List.lookup, beq_self_eq_true, Option.some.injEq] at h
      simp [h]
    · simp only [List.lookup, beq_eq_false_iff_ne.mpr hk] at h
      exact List.mem_cons_of_mem _ (ih h)

/-- A lookup that finds nothing: no row has the offset. -/
theorem lookup_eq_none {m : List (Nat × Reg)} {a : Nat} : m.lookup a = none ↔ a ∉ m.map Prod.fst := by
  induction m with
  | nil => simp
  | cons x m ih =>
    obtain ⟨k, v⟩ := x
    by_cases hk : a = k
    · subst hk
      simp [List.lookup]
    · simp [List.lookup, beq_eq_false_iff_ne.mpr hk, ih, hk]

/-- A register of the map stands at one offset, and none of them is the reserved one. -/
theorem regMap_distinct : ∀ x ∈ regMap, x.2 ≠ .reserved ∧ ∀ y ∈ regMap, y.2 = x.2 → y.1 = x.1 := by
  decide +kernel

/-- A register other than the reserved one stands at one offset only (R23). -/
theorem regAt_injective : ∀ x ∈ regMap, ∀ a : BitVec 12, regAt a = x.2 → a = BitVec.ofNat 12 x.1 := by
  intro x hx a ha
  obtain ⟨hr, hd⟩ := regMap_distinct x hx
  unfold regAt at ha
  cases hl : regMap.lookup a.toNat with
  | none => rw [hl] at ha; exact absurd ha.symm hr
  | some r =>
    rw [hl] at ha
    rw [← hd _ (mem_of_lookup hl) ha]
    simp

/-- An offset is reserved exactly if no row of the map has it. -/
theorem regAt_eq_reserved (a : BitVec 12) : regAt a = .reserved ↔ a.toNat ∉ regMap.map Prod.fst := by
  rw [← lookup_eq_none]
  unfold regAt
  cases hl : regMap.lookup a.toNat with
  | none => simp
  | some r => simpa using (regMap_distinct _ (mem_of_lookup hl)).1

/-- The offsets of the map, in quarters, up to the last: the aligned offsets R23 does not leave reserved. -/
theorem regMap_offsets : ∀ k < 80, 4 * k ∉ regMap.map Prod.fst ↔ (0x044 ≤ 4 * k ∧ 4 * k ≤ 0x04C) ∨ 4 * k = 0x06C ∨
    (0x084 ≤ 4 * k ∧ 4 * k ≤ 0x08C) ∨ (0x0A0 ≤ 4 * k ∧ 4 * k ≤ 0x0FC) := by
  decide +kernel

theorem regMap_offsets_bounded : ∀ a ∈ regMap.map Prod.fst, a < 0x140 := by
  decide +kernel

/-- The offsets R23 leaves reserved (R45), among the aligned ones. -/
theorem regAt_reserved (a : BitVec 12) (h4 : a.toNat % 4 = 0) :
    regAt a = .reserved ↔ (0x044 ≤ a.toNat ∧ a.toNat ≤ 0x04C) ∨ a.toNat = 0x06C ∨
      (0x084 ≤ a.toNat ∧ a.toNat ≤ 0x08C) ∨ (0x0A0 ≤ a.toNat ∧ a.toNat ≤ 0x0FC) ∨
      (0x140 ≤ a.toNat ∧ a.toNat ≤ 0xFFC) := by
  rw [regAt_eq_reserved]
  by_cases ha : a.toNat < 0x140
  · have h := regMap_offsets (a.toNat / 4) (by omega)
    rw [show 4 * (a.toNat / 4) = a.toNat by omega] at h
    rw [h]
    omega
  · have hn : a.toNat ∉ regMap.map Prod.fst := fun hm => ha (regMap_offsets_bounded _ hm)
    simp only [hn, not_false_eq_true, true_iff]
    omega

/-! ### Transfers -/

/-- A served write is the write of the register at its offset. -/
theorem busTransfer_write {a : BitVec 12} {be : BitVec 4} {r : Reg} (hs : served a be = true) (hr : regAt a = r)
    (v : BWord) (s : State) :
    busTransfer (.write a be v) s = { (writeReg r v s).2 with busResp := some (writeReg r v s).1 } := by
  subst hr
  simp only [busTransfer, hs, if_true]

/-- A served read is the read of the register at its offset. -/
theorem busTransfer_read {a : BitVec 12} {be : BitVec 4} {r : Reg} (hs : served a be = true) (hr : regAt a = r)
    (s : State) :
    busTransfer (.read a be) s = { (readReg r s).2 with busResp := some (readReg r s).1 } := by
  subst hr
  simp only [busTransfer, hs, if_true]

/-- A transfer that is not served has no effect but a read's draw (R82). -/
theorem busTransfer_write_refused {a : BitVec 12} {be : BitVec 4} (hs : served a be = false) (v : BWord) (s : State) :
    busTransfer (.write a be v) s = { s with busResp := some .writeErr } := by
  simp [busTransfer, hs]

theorem busTransfer_read_refused {a : BitVec 12} {be : BitVec 4} (hs : served a be = false) (s : State) :
    busTransfer (.read a be) s = { s.drew with busResp := some (.readErr s.nextDraw) } := by
  simp [busTransfer, hs]

/-- What a write of a register can do to the state. -/
inductive WriteEffect (v : BWord) (s : State) : Reg → State → Prop where
  | dropped (r : Reg) (h : s.busy = true) : WriteEffect v s r (setHostConflict s)
  | ignored (r : Reg) : WriteEffect v s r s
  | ctrl : WriteEffect v s .ctrl (writeCtrl v s)
  | status : WriteEffect v s .status (writeStatus v s)
  | cmd : WriteEffect v s .cmd (writeCmd v s)
  | rngIn : WriteEffect v s .rngIn (pushRng v s)
  | config (r : Reg) (cfg : ConfigRegs) (h : s.busy = false) : WriteEffect v s r (s.withCfg cfg)
  | fmAddr : WriteEffect v s .fmAddr { s with fmAddr := v.setWidth 16 }
  | bmAddr : WriteEffect v s .bmAddr { s with bmAddr := v.setWidth 24 }
  | fmData (h : s.fmAddr.toNat < s.params.fmDepth) :
      WriteEffect v s .fmData (incFm { s with fm := s.fm.write s.fmAddr.toNat (v.setWidth 16) })
  | bmData (h : s.bmAddr.toNat < s.params.bmWords) :
      WriteEffect v s .bmData (incBm { s with bm := s.bm.write s.bmAddr.toNat v })
  | field (i : FReg) : WriteEffect v s (.f i) (s.setF i (v.setWidth 16))

/-- Everything a write of a register does to the state (R25 to R46). -/
theorem writeReg_effect (r : Reg) (v : BWord) (s : State) : WriteEffect v s r (writeReg r v s).2 := by
  unfold writeReg
  split
  · next h => exact .dropped r (by simp at h; exact h.2)
  · next h =>
    cases r
    case ctrl => exact .ctrl
    case status => exact .status
    case cmd => exact .cmd
    case rngIn => exact .rngIn
    case fmAddr => exact .fmAddr
    case bmAddr => exact .bmAddr
    case f i => exact .field i
    case fmData =>
      simp only [writeOpen, writeFmData]
      split
      · next hd => exact .fmData hd
      · exact .ignored _
    case bmData =>
      simp only [writeOpen, writeBmData]
      split
      · next hd => exact .bmData hd
      · exact .ignored _
    case id | rngLevel | chk | mask | permCnt | bmL | draws | reserved => exact .ignored _
    all_goals exact .config _ _ (by simpa [Reg.guarded] using h)

end Sys2Proof.Machine
end

