-- ==== Sys2Proof/Laws/Encoding.lean ====
section
/-! SUPPORT. The three formats as numbers, and the fields read back from each (rules R111 to R114). -/

namespace Sys2Proof

open Decode Encode

/-- Concatenation as a number. -/
theorem toNat_append_eq {v w : Nat} (x : BitVec v) (y : BitVec w) : (x ++ y).toNat = x.toNat * 2 ^ w + y.toNat := by
  rw [BitVec.toNat_append, ← Nat.shiftLeft_add_eq_or_of_lt y.isLt, Nat.shiftLeft_eq]

@[simp] theorem toNat_reg (r : FReg) : (reg r).toNat = r.val := rfl

theorem toNat_formatFR (op : BitVec 8) (a b : FReg) (c : BitVec 4) :
    (formatFR op a b c).toNat = op.toNat + 256 * a.val + 4096 * b.val + 65536 * c.toNat := by
  show BitVec.toNat (0#12 ++ c ++ reg b ++ reg a ++ op) = _
  simp only [toNat_append_eq, toNat_reg, BitVec.toNat_zero]
  omega

theorem toNat_formatFI (op : BitVec 8) (a : FReg) (imm : BitVec 16) :
    (formatFI op a imm).toNat = op.toNat + 256 * a.val + 65536 * imm.toNat := by
  show BitVec.toNat (imm ++ 0#4 ++ reg a ++ op) = _
  simp only [toNat_append_eq, toNat_reg, BitVec.toNat_zero]
  omega

theorem toNat_formatB (op : BitVec 8) (flags : BitVec 4) : (formatB op flags).toNat = op.toNat + 256 * flags.toNat := by
  show BitVec.toNat (0#20 ++ flags ++ op) = _
  simp only [toNat_append_eq, BitVec.toNat_zero]
  omega

/-! ### The fields of a word, as numbers (R114) -/

theorem toNat_opcode (w : BWord) : (opcode w).toNat = w.toNat % 256 := by simp [opcode]
theorem val_rd (w : BWord) : (Decode.rd w).val = w.toNat / 256 % 16 := by
  simp [Decode.rd, Nat.shiftRight_eq_div_pow]
theorem val_rs1 (w : BWord) : (Decode.rs1 w).val = w.toNat / 4096 % 16 := by
  simp [Decode.rs1, Nat.shiftRight_eq_div_pow]
theorem val_rs2 (w : BWord) : (Decode.rs2 w).val = w.toNat / 65536 % 16 := by
  simp [Decode.rs2, Nat.shiftRight_eq_div_pow]
theorem toNat_sel (w : BWord) : (sel w).toNat = w.toNat / 65536 % 16 := by
  simp [sel, Nat.shiftRight_eq_div_pow]
theorem toNat_imm (w : BWord) : (imm w).toNat = w.toNat / 65536 := by
  have := w.isLt
  simp [imm, Nat.shiftRight_eq_div_pow]
  omega
theorem toNat_flags (w : BWord) : (Decode.flags w).toNat = w.toNat / 256 % 16 := by
  simp [Decode.flags, Nat.shiftRight_eq_div_pow]

/-! ### The fields of each format -/

@[simp] theorem opcode_formatFR (op : BitVec 8) (a b : FReg) (c : BitVec 4) : opcode (formatFR op a b c) = op :=
  BitVec.eq_of_toNat_eq (by rw [toNat_opcode, toNat_formatFR]; omega)
@[simp] theorem rd_formatFR (op : BitVec 8) (a b : FReg) (c : BitVec 4) : Decode.rd (formatFR op a b c) = a :=
  Fin.ext (by rw [val_rd, toNat_formatFR]; omega)
@[simp] theorem rs1_formatFR (op : BitVec 8) (a b : FReg) (c : BitVec 4) : Decode.rs1 (formatFR op a b c) = b :=
  Fin.ext (by rw [val_rs1, toNat_formatFR]; omega)
@[simp] theorem rs2_formatFR (op : BitVec 8) (a b c : FReg) : Decode.rs2 (formatFR op a b (reg c)) = c :=
  Fin.ext (by rw [val_rs2, toNat_formatFR, toNat_reg]; omega)
@[simp] theorem sel_formatFR (op : BitVec 8) (a b : FReg) (c : BitVec 4) : sel (formatFR op a b c) = c :=
  BitVec.eq_of_toNat_eq (by rw [toNat_sel, toNat_formatFR]; omega)
@[simp] theorem opcode_formatFI (op : BitVec 8) (a : FReg) (i : BitVec 16) : opcode (formatFI op a i) = op :=
  BitVec.eq_of_toNat_eq (by rw [toNat_opcode, toNat_formatFI]; omega)
@[simp] theorem rd_formatFI (op : BitVec 8) (a : FReg) (i : BitVec 16) : Decode.rd (formatFI op a i) = a :=
  Fin.ext (by rw [val_rd, toNat_formatFI]; omega)
@[simp] theorem imm_formatFI (op : BitVec 8) (a : FReg) (i : BitVec 16) : imm (formatFI op a i) = i :=
  BitVec.eq_of_toNat_eq (by rw [toNat_imm, toNat_formatFI]; omega)
@[simp] theorem opcode_formatB (op : BitVec 8) (x : BitVec 4) : opcode (formatB op x) = op :=
  BitVec.eq_of_toNat_eq (by rw [toNat_opcode, toNat_formatB]; omega)
@[simp] theorem flags_formatB (op : BitVec 8) (x : BitVec 4) : Decode.flags (formatB op x) = x :=
  BitVec.eq_of_toNat_eq (by rw [toNat_flags, toNat_formatB]; omega)

end Sys2Proof
end

