-- ==== Sys2Proof/Laws/Checks.lean ====
section
/-! SUPPORT. The checks of a command as propositions: the executable checks of Machine/Checks.lean say what R86, R149 and
R257 say. -/

namespace Sys2Proof.Machine

theorem fieldCfgOk_iff (s : State) : s.fieldCfgOk = true ↔ FieldConfigured s :=
  decide_eq_true_iff

theorem codeCfgOk_iff (s : State) : s.codeCfgOk = true ↔ CodeConfigured s := by
  rw [State.codeCfgOk, Bool.and_eq_true, fieldCfgOk_iff, decide_eq_true_iff]
  exact Iff.rfl

theorem Region.inside_iff (p : BuildParams) (r : Region) : r.inside p = true ↔ r.Fits p := by
  simp [Region.inside, Region.Fits]

/-- Two regions overlap exactly if they share a word (R86). -/
theorem Region.overlaps_iff (a b : Region) : a.overlaps b = false ↔ a.Apart b := by
  unfold Region.overlaps Region.Apart Region.Has
  rw [decide_eq_false_iff_not]
  constructor
  · rintro h space x ⟨⟨h1, h2, h3⟩, ⟨h4, h5, h6⟩⟩
    exact h ⟨h1.trans h4.symm, by omega, by omega, by omega, by omega⟩
  · rintro h ⟨h1, h2, h3, h4, h5⟩
    exact h a.space (max a.first b.first) ⟨⟨rfl, by omega, by omega⟩, ⟨h1.symm, by omega, by omega⟩⟩

/-- The addresses of a region. -/
theorem Region.mem_addrs (r : Region) (a : Nat) : a ∈ r.addrs ↔ r.first ≤ a ∧ a < r.first + r.len := by
  simp [Region.addrs, List.mem_range'_1]

theorem writesDisjoint_iff (reads writes : List Region) : writesDisjoint reads writes = true ↔
    (∀ w ∈ writes, ∀ r ∈ reads, w.Apart r) ∧ writes.Pairwise Region.Apart := by
  induction writes with
  | nil => simp [writesDisjoint]
  | cons w ws ih =>
    simp only [writesDisjoint, Bool.and_eq_true, ih, List.all_eq_true, List.mem_append, Bool.not_eq_true',
      Region.overlaps_iff, List.mem_cons, List.pairwise_cons, forall_eq_or_imp]
    constructor
    · rintro ⟨h1, h2, h3⟩
      exact ⟨⟨fun r hr => h1 r (.inl hr), h2⟩, fun r hr => h1 r (.inr hr), h3⟩
    · rintro ⟨⟨h1, h2⟩, h3, h4⟩
      exact ⟨fun r hr => hr.elim (h1 r) (h3 r), h2, h4⟩

/-- The executable region checks are the three checks of R86. -/
theorem Footprint.ok_iff (p : BuildParams) (fp : Footprint) :
    fp.ok p = true ↔ RegionsAccepted p fp.reads fp.writes fp.strides := by
  simp only [Footprint.ok, Bool.and_eq_true, List.all_eq_true, Region.inside_iff, decide_eq_true_eq, writesDisjoint_iff,
    RegionsAccepted, and_assoc]

/-- The opcode of every constructor (R115). -/
theorem opcodeOf_eq (i : Instr) : opcodeOf i = match i with
    | .nop => 0x00 | .fadd _ _ _ => 0x01 | .fmul _ _ _ => 0x02 | .fsqr _ _ => 0x03 | .finv _ _ => 0x04
    | .fpow _ _ _ => 0x05 | .ftr _ _ => 0x06 | .fmov _ _ => 0x07 | .fli _ _ => 0x08 | .fld _ _ => 0x09
    | .fst _ _ => 0x0A | .peval _ _ _ => 0x0B | .hbuild => 0x10 | .gauss => 0x11 | .pkext => 0x12 | .synd _ => 0x13
    | .sample => 0x14 | .dsynd _ => 0x15 | .bm => 0x16 | .roots => 0x17 | .check _ => 0x18 := by
  cases i <;> simp only [opcodeOf, encode, toNat_formatB, toNat_formatFI, toNat_formatFR] <;> simp <;> omega

/-- A block command passes its checks if the code and its regions do (R257, R258). -/
theorem blockError_eq_none (s : State) (i : Instr) : blockError s i = none ↔
    CodeConfigured s ∧ RegionsAccepted s.params (footprint s i).reads (footprint s i).writes (footprint s i).strides := by
  unfold blockError
  rw [← codeCfgOk_iff, ← Footprint.ok_iff]
  cases s.codeCfgOk <;> cases (footprint s i).ok s.params <;> simp

/-- No check reports "no error". -/
theorem firstError_ne (s : State) (i : Instr) : firstError s i ≠ some .none := by
  unfold firstError
  cases i <;> simp only [fieldError, rangeError, blockError] <;> (repeat' split) <;> simp

end Sys2Proof.Machine
end

