-- ==== Sys2Proof/Laws/Columns.lean ====
section
/-! SUPPORT. Small lemmas of the words that the statements about GAUSS are written in: sums over a row, and columns under
a list of exchanges. -/

namespace Sys2Proof.Machine

theorem xorBits_congr {f g : Nat → Bool} {n : Nat} (h : ∀ c < n, f c = g c) : xorBits f n = xorBits g n := by
  induction n with
  | zero => rfl
  | succ n ih => rw [xorBits, xorBits, ih fun c hc => h c (by omega), h n (by omega)]

/-- A row of the identity takes one bit. -/
theorem xorBits_identityRow (v : Nat → Bool) (r n : Nat) :
    xorBits (fun c => decide (r = c) && v c) n = (decide (r < n) && v r) := by
  induction n with
  | zero => rfl
  | succ n ih =>
    rw [xorBits, ih]
    rcases Nat.lt_trichotomy r n with h | rfl | h
    · simp [h, Nat.ne_of_lt h, Nat.lt_succ_of_lt h]
    · simp
    · simp [Nat.not_lt.mpr h.le, (Nat.ne_of_lt h).symm, Nat.not_lt.mpr h]

@[simp] theorem sourceColumn_nil (i : Nat) : sourceColumn [] i = i := rfl

/-- A further exchange acts first on the position. -/
theorem sourceColumn_concat (swaps : List (Nat × Nat)) (x : Nat × Nat) (i : Nat) :
    sourceColumn (swaps ++ [x]) i = sourceColumn swaps (swapIndex x i) := by simp [sourceColumn]

@[simp] theorem State.permutedBit_nil (s : State) (r k : Nat) :
    s.permutedBit [] r k = s.bm.bitOf (s.cfg.hBase.toNat + r * s.cfg.hStride.toNat) k := rfl

@[simp] theorem swapsBefore_nil (c : Nat) : swapsBefore [] c = [] := rfl

/-- All of the swaps lie before a step behind the last of them. -/
theorem swapsBefore_eq_self {swaps : List (Nat × Nat)} {c : Nat} (h : ∀ x ∈ swaps, x.1 < c) : swapsBefore swaps c = swaps := by
  simpa [swapsBefore] using h

/-- A later swap does not count among those before a step. -/
theorem swapsBefore_concat_of_le {x : Nat × Nat} {c : Nat} (swaps : List (Nat × Nat)) (h : c ≤ x.1) :
    swapsBefore (swaps ++ [x]) c = swapsBefore swaps c := by simp [swapsBefore, h]

end Sys2Proof.Machine
end

