-- ==== Sys2Proof/Laws/Gf.lean ====
section
/-! SUPPORT. The field primitives: integers as polynomials over GF(2), the carry-less product, one turn and the whole
of the reduction, and the mask. -/

namespace Sys2Proof.Machine

open Polynomial

/-- The bits of a value may be summed over any range that holds them all. -/
theorem polyOf_eq (v n : Nat) (h : v < 2 ^ n) :
    polyOf v = ∑ i ∈ Finset.range n, if v.testBit i then (X : Polynomial (ZMod 2)) ^ i else 0 := by
  have key : ∀ m n, v < 2 ^ m → m ≤ n →
      (∑ i ∈ Finset.range n, if v.testBit i then (X : Polynomial (ZMod 2)) ^ i else 0) =
      ∑ i ∈ Finset.range m, if v.testBit i then (X : Polynomial (ZMod 2)) ^ i else 0 := by
    intro m n hm hmn
    symm
    apply Finset.sum_subset (Finset.range_mono hmn)
    intro i _ hi
    have : m ≤ i := by simpa using hi
    rw [Nat.testBit_lt_two_pow (lt_of_lt_of_le hm (Nat.pow_le_pow_right (by norm_num) this))]; simp
  unfold polyOf
  rcases le_total v n with hv | hv
  · exact (key v n Nat.lt_two_pow_self hv).symm
  · exact key n v h hv

/-- Bit `i` is the coefficient of `z^i` (R140). -/
theorem polyOf_coeff (v i : Nat) : (polyOf v).coeff i = if v.testBit i then 1 else 0 := by
  rw [polyOf_eq v (v + i + 1) (lt_of_lt_of_le Nat.lt_two_pow_self (Nat.pow_le_pow_right (by norm_num) (by omega)))]
  rw [finsetSum_coeff]
  rw [Finset.sum_eq_single i]
  · split <;> simp
  · intro b _ hb; split <;> simp [coeff_X_pow, hb.symm]
  · intro h; simp at h

/-- Exclusive or is addition of polynomials. -/
theorem polyOf_xor (a b : Nat) : polyOf (a ^^^ b) = polyOf a + polyOf b := by
  ext i
  simp only [polyOf_coeff, coeff_add, Nat.testBit_xor]
  cases a.testBit i <;> cases b.testBit i <;> simp
  decide

/-- A left shift is multiplication by a power of `z`. -/
theorem polyOf_shift (a k : Nat) : polyOf (a <<< k) = polyOf a * X ^ k := by
  ext i
  simp only [polyOf_coeff, coeff_mul_X_pow', Nat.testBit_shiftLeft]
  by_cases h : k ≤ i <;> simp [h]

/-- A value is known by its polynomial. -/
theorem polyOf_inj {a b : Nat} (h : polyOf a = polyOf b) : a = b := by
  apply Nat.eq_of_testBit_eq
  intro i
  have := congrArg (fun p => p.coeff i) h
  simp only [polyOf_coeff] at this
  cases ha : a.testBit i <;> cases hb : b.testBit i <;> simp [ha, hb] at this ⊢

/-- The first `n` turns of the carry-less product. -/
theorem polyOf_clmul_range (a b n : Nat) : polyOf ((List.range n).foldl (clmulBit a b) 0)
   = polyOf a * ∑ i ∈ Finset.range n, if b.testBit i then (X : Polynomial (ZMod 2)) ^ i else 0 := by
  induction n with
  | zero => simp [polyOf]
  | succ n ih =>
    rw [List.range_succ, List.foldl_append, Finset.sum_range_succ, mul_add, ← ih]
    simp only [List.foldl_cons, List.foldl_nil, clmulBit]
    split
    · rw [polyOf_xor, polyOf_shift]
    · simp

/-- The carry-less product is the product of the polynomials (R142). -/
theorem polyOf_clmul (m a b : Nat) (hb : b < 2 ^ m) : polyOf (clmul m a b) = polyOf a * polyOf b := by
  rw [clmul, polyOf_clmul_range, ← polyOf_eq b m hb]

/-- `p < 2^(2M−1)` (R142). -/
theorem clmul_lt (m a b : Nat) (hm : 1 ≤ m) (ha : a < 2 ^ m) : clmul m a b < 2 ^ (2*m-1) := by
  have key : ∀ n ≤ m, (List.range n).foldl (clmulBit a b) 0 < 2 ^ (2*m-1) := by
    intro n hn
    induction n with
    | zero => simp
    | succ n ih =>
      rw [List.range_succ, List.foldl_append]
      simp only [List.foldl_cons, List.foldl_nil]
      rw [clmulBit]
      split
      · apply Nat.xor_lt_two_pow (ih (by omega))
        rw [Nat.shiftLeft_eq]
        calc a * 2^n < 2^m * 2^n := by apply Nat.mul_lt_mul_of_pos_right ha (by positivity)
          _ = 2^(m+n) := by rw [pow_add]
          _ ≤ _ := Nat.pow_le_pow_right (by norm_num) (by omega)
      · exact ih (by omega)
  exact key m le_rfl

/-- A legal field polynomial has bit `M` set and no bit above it (R30). -/
theorem poly_bits {F : GField} (h : F.Legal) : F.poly.testBit F.m = true ∧ F.poly < 2 ^ (F.m + 1) := by
  obtain ⟨_, _, h⟩ := h
  rw [Nat.shiftRight_eq_div_pow] at h
  constructor
  · rw [Nat.testBit, Nat.shiftRight_eq_div_pow, h]; rfl
  · rw [pow_succ]
    have h1 := Nat.lt_mul_div_succ F.poly (show 0 < 2 ^ F.m by positivity)
    rw [h] at h1; omega

/-- One turn of the reduction clears its bit (R142). -/
theorem reduceBit_lt {F : GField} (h : F.Legal) (n p : Nat) (hp : p < 2 ^ (F.m + (n + 1))) :
    reduceBit F n p < 2 ^ (F.m + n) := by
  have hb := poly_bits h
  rw [reduceBit]
  split
  · next hbit =>
    apply Nat.lt_pow_two_of_testBit
    intro i hi
    rw [Nat.testBit_xor, Nat.testBit_shiftLeft]
    rcases Nat.eq_or_lt_of_le hi with rfl | hi
    · simp [hbit, hb.1]
    · rw [Nat.testBit_lt_two_pow (lt_of_lt_of_le hp (Nat.pow_le_pow_right (by norm_num) (by omega)))]
      rw [Nat.testBit_lt_two_pow (x := F.poly) (lt_of_lt_of_le hb.2 (Nat.pow_le_pow_right (by norm_num) (by omega)))]
      simp
  · next hbit =>
    apply Nat.lt_pow_two_of_testBit
    intro i hi
    rcases Nat.eq_or_lt_of_le hi with rfl | hi
    · simpa using hbit
    · exact Nat.testBit_lt_two_pow (lt_of_lt_of_le hp (Nat.pow_le_pow_right (by norm_num) (by omega)))

/-- One turn of the reduction adds a multiple of the field polynomial. -/
theorem reduceBit_poly (F : GField) (n p : Nat) : ∃ q, polyOf (reduceBit F n p) = polyOf p + q * polyOf F.poly := by
  rw [reduceBit]; split
  · exact ⟨X ^ n, by rw [polyOf_xor, polyOf_shift]; ring⟩
  · exact ⟨0, by ring⟩

/-- Everything the first `n` turns of the reduction do. -/
theorem reduceBits_spec {F : GField} (h : F.Legal) (n p : Nat) (hp : p < 2 ^ (F.m + n)) :
    (List.range n).foldr (reduceBit F) p < 2 ^ F.m ∧
    ∃ q, polyOf ((List.range n).foldr (reduceBit F) p) = polyOf p + q * polyOf F.poly := by
  induction n generalizing p with
  | zero => exact ⟨by simpa using hp, 0, by simp⟩
  | succ n ih =>
    simp only [List.range_succ, List.foldr_append, List.foldr_cons, List.foldr_nil]
    obtain ⟨h1, q, h2⟩ := ih _ (reduceBit_lt h n p hp)
    obtain ⟨q', h3⟩ := reduceBit_poly F n p
    exact ⟨h1, q + q', by rw [h2, h3]; ring⟩

/-- A masked value is a field element. -/
theorem maskM_lt (F : GField) (v : Nat) : maskM F v < 2 ^ F.m := by
  rw [maskM, Nat.and_two_pow_sub_one_eq_mod]; exact Nat.mod_lt _ (by positivity)

/-- A field element masks to itself. -/
theorem maskM_id (F : GField) {v : Nat} (h : v < 2 ^ F.m) : maskM F v = v := by
  rw [maskM, Nat.and_two_pow_sub_one_eq_mod]; exact Nat.mod_eq_of_lt h

/-- The mask is the remainder modulo `2^M` (R140). -/
theorem maskM_eq_mod (F : GField) (v : Nat) : maskM F v = v % 2 ^ F.m := Nat.and_two_pow_sub_one_eq_mod v F.m

/-- A sum of field elements is a field element. -/
theorem gfAdd_lt (F : GField) (a b : Nat) : gfAdd F a b < 2 ^ F.m := Nat.xor_lt_two_pow (maskM_lt F a) (maskM_lt F b)

end Sys2Proof.Machine
end

