-- ==== Sys2Proof/Laws/PerInstr.lean ====
section
/-! SUPPORT. One fact of every command's encoding, a lemma a constructor: the row its opcode selects builds the command
back from its word (rules R110, R115). -/

namespace Sys2Proof.Laws.RowOf

/-- The opcode of the command's word selects a row, and that row reads the command's operands out of the word. -/
def Statement (i : Instr) : Prop :=
  ∃ r, opcodeRow? (Decode.opcode (encode i)) = some r ∧ r.build (encode i) = i

theorem nop : Statement .nop := ⟨_, rfl, rfl⟩
theorem fadd (rd rs1 rs2 : FReg) : Statement (.fadd rd rs1 rs2) := by
  refine ⟨_, by simp only [encode, opcode_formatFR]; rfl, ?_⟩
  simp [encode]
theorem fmul (rd rs1 rs2 : FReg) : Statement (.fmul rd rs1 rs2) := by
  refine ⟨_, by simp only [encode, opcode_formatFR]; rfl, ?_⟩
  simp [encode]
theorem fsqr (rd rs1 : FReg) : Statement (.fsqr rd rs1) := by
  refine ⟨_, by simp only [encode, opcode_formatFR]; rfl, ?_⟩
  simp [encode]
theorem finv (rd rs1 : FReg) : Statement (.finv rd rs1) := by
  refine ⟨_, by simp only [encode, opcode_formatFR]; rfl, ?_⟩
  simp [encode]
theorem fpow (rd rs1 rs2 : FReg) : Statement (.fpow rd rs1 rs2) := by
  refine ⟨_, by simp only [encode, opcode_formatFR]; rfl, ?_⟩
  simp [encode]
theorem ftr (rd rs1 : FReg) : Statement (.ftr rd rs1) := by
  refine ⟨_, by simp only [encode, opcode_formatFR]; rfl, ?_⟩
  simp [encode]
theorem fmov (rd rs1 : FReg) : Statement (.fmov rd rs1) := by
  refine ⟨_, by simp only [encode, opcode_formatFR]; rfl, ?_⟩
  simp [encode]
theorem fli (rd : FReg) (imm : BitVec 16) : Statement (.fli rd imm) := by
  refine ⟨_, by simp only [encode, opcode_formatFI]; rfl, ?_⟩
  simp [encode]
theorem fld (rd : FReg) (addr : BitVec 16) : Statement (.fld rd addr) := by
  refine ⟨_, by simp only [encode, opcode_formatFI]; rfl, ?_⟩
  simp [encode]
theorem fst (rs : FReg) (addr : BitVec 16) : Statement (.fst rs addr) := by
  refine ⟨_, by simp only [encode, opcode_formatFI]; rfl, ?_⟩
  simp [encode]
theorem peval (rd rs1 : FReg) (sel : BitVec 4) : Statement (.peval rd rs1 sel) := by
  refine ⟨_, by simp only [encode, opcode_formatFR]; rfl, ?_⟩
  simp [encode]
theorem hbuild : Statement .hbuild := ⟨_, rfl, rfl⟩
theorem gauss : Statement .gauss := ⟨_, rfl, rfl⟩
theorem pkext : Statement .pkext := ⟨_, rfl, rfl⟩
theorem synd (flags : BitVec 4) : Statement (.synd flags) := by
  refine ⟨_, by simp only [encode, opcode_formatB]; rfl, ?_⟩
  simp [encode]
theorem sample : Statement .sample := ⟨_, rfl, rfl⟩
theorem dsynd (flags : BitVec 4) : Statement (.dsynd flags) := by
  refine ⟨_, by simp only [encode, opcode_formatB]; rfl, ?_⟩
  simp [encode]
theorem bm : Statement .bm := ⟨_, rfl, rfl⟩
theorem roots : Statement .roots := ⟨_, rfl, rfl⟩
theorem check (flags : BitVec 4) : Statement (.check flags) := by
  refine ⟨_, by simp only [encode, opcode_formatB]; rfl, ?_⟩
  simp [encode]

end Sys2Proof.Laws.RowOf
end

