-- ==== Sys2Proof/Laws/Results.lean ====
section
/-! SUPPORT. The sizes of what the block commands compute, the swaps of a GAUSS, and the loop of SAMPLE. -/

namespace Sys2Proof.Machine

/-! ### HBUILD, DSYND, BM -/

@[simp] theorem length_hbuildPowerRows (m : Nat) (vs : List Nat) : (hbuildPowerRows m vs).length = m := by
  simp [hbuildPowerRows]

@[simp] theorem length_hbuildRows (fd : GField) (alphas : List Nat) (powers : Nat) (vs : List Nat) :
    (hbuildRows fd alphas powers vs).length = powers * fd.m := by
  induction powers generalizing vs with
  | zero => simp [hbuildRows]
  | succ n ih => simp [hbuildRows, ih, Nat.succ_mul, Nat.add_comm]

@[simp] theorem length_gfPowers (fd : GField) (a c len : Nat) : (gfPowers fd a c len).length = len := by
  induction len generalizing c with
  | zero => rfl
  | succ n ih => simp [gfPowers, ih]

@[simp] theorem length_dsyndTerm (fd : GField) (g : List Nat) (len a : Nat) (v : Bool) :
    (dsyndTerm fd g len a v).length = len := by simp [dsyndTerm]

@[simp] theorem length_dsyndSum (fd : GField) (g : List Nat) (len : Nat) (alphas : List Nat) (v : Nat) :
    (dsyndSum fd g len alphas v).length = len := by
  have key : ∀ (xs : List (Nat × Nat)) (acc : List Nat), acc.length = len →
      (xs.foldl (fun acc (x : Nat × Nat) =>
        List.zipWith (gfAdd fd) acc (dsyndTerm fd g len x.1 (v.testBit x.2))) acc).length = len := by
    intro xs
    induction xs with
    | nil => exact fun acc h => h
    | cons x xs ih => exact fun acc h => ih _ (by simp [h])
  exact key _ _ (by simp)

theorem length_bmStep {fd : GField} {t : Nat} {syn : List Nat} {st : BmState} (n : Nat)
    (h : st.c.length = t + 1 ∧ st.b.length = t + 1) :
    (bmStep fd t syn st n).c.length = t + 1 ∧ (bmStep fd t syn st n).b.length = t + 1 := by
  obtain ⟨hc, hb⟩ := h
  refine ⟨by simp [bmStep, hc, hb], ?_⟩
  simp only [bmStep, List.length_cons, List.length_take]
  split <;> omega

theorem length_bmRun (fd : GField) (t : Nat) (syn : List Nat) :
    (bmRun fd t syn).c.length = t + 1 ∧ (bmRun fd t syn).b.length = t + 1 := by
  have key : ∀ (ns : List Nat) (st : BmState), st.c.length = t + 1 ∧ st.b.length = t + 1 →
      (ns.foldl (bmStep fd t syn) st).c.length = t + 1 ∧ (ns.foldl (bmStep fd t syn) st).b.length = t + 1 := by
    intro ns
    induction ns with
    | nil => exact fun st h => h
    | cons n ns ih => exact fun st h => ih _ (length_bmStep n h)
  exact key _ _ (by simp [BmState.start])

/-! ### Matrices in BM -/

theorem length_of_readRows? {m : Mem 32} {st n b rows : Nat} {vs : List Nat}
    (h : m.readRows? st n b rows = some vs) : vs.length = rows := by
  induction rows generalizing b vs with
  | zero => simp only [Mem.readRows?, Option.some.injEq] at h; subst h; rfl
  | succ rows ih =>
    rw [Mem.readRows?] at h
    split at h
    · next v vs' _ hvs => simp only [Option.some.injEq] at h; subst h; simp [ih hvs]
    · simp at h

theorem State.length_publicKey? {s : State} {rows : List Nat} (h : s.publicKey? = some rows) : rows.length = s.pR := by
  simp only [State.publicKey?, Option.map_eq_some_iff] at h
  obtain ⟨vs, hvs, rfl⟩ := h
  simpa using length_of_readRows? hvs

theorem State.length_hbuild? {s : State} {rows : List Nat} {retry : Bool} (h : s.hbuild? = some (rows, retry)) :
    rows.length = s.pR := by
  unfold State.hbuild? at h
  split at h
  · simp only [Option.some.injEq, Prod.mk.injEq] at h
    rw [← h.1, length_hbuildRows]; exact Nat.mul_comm _ _
  · simp at h

theorem State.length_dsynd? {s : State} {src : DsyndSrc} {syn : List Nat} (h : s.dsynd? src = some syn) :
    syn.length = 2 * s.pT := by
  unfold State.dsynd? at h
  split at h
  · simp only [Option.some.injEq] at h; rw [← h, length_dsyndSum]
  · simp at h

/-! ### GAUSS -/

/-- The swaps of an elimination: within the columns, at most PIV_MAX of them, none with pivoting off (R184). -/
abbrev Elimination.SwapsOk (pv : Pivoting) (e : Elimination) : Prop :=
  (∀ x ∈ e.swaps, x.1 < pv.columns ∧ x.2 < pv.columns) ∧ e.swaps.length ≤ pv.maxSwaps ∧
  (pv.enabled = false → e.swaps = [])

theorem length_swapRows (rows : List Nat) (c p : Nat) : (swapRows rows c p).length = rows.length := by
  simp [swapRows]

theorem length_clearColumn (rows : List Nat) (c : Nat) : (clearColumn rows c).length = rows.length := by
  simp [clearColumn]

/-- Everything a successful pivot search does (R184): one swap with a later column inside the window. -/
theorem pivotSearch_cases {pv : Pivoting} {c : Nat} {e e' : Elimination} (h : pivotSearch pv c e = some e') :
    ∃ j, pv.enabled = true ∧ e.swaps.length ≠ pv.maxSwaps ∧ c < j ∧ j ≤ c + pv.window ∧ j < pv.columns ∧
      (pivotRow? e.rows c j).isSome = true ∧
      e' = { rows := e.rows.map (swapColumns c j), swaps := e.swaps ++ [(c, j)] } := by
  unfold pivotSearch at h
  split at h
  · simp at h
  · next hen =>
    split at h
    · simp at h
    · next j hj =>
      have hmem := List.mem_of_find?_eq_some hj
      have hp := List.find?_some hj
      simp only [List.mem_range'_1] at hmem
      simp only [Option.some.injEq] at h
      simp only [Bool.or_eq_true, Bool.not_eq_true', beq_iff_eq, not_or, Bool.not_eq_false] at hen
      exact ⟨j, hen.1, hen.2, by omega, by omega, by omega, hp, h.symm⟩

theorem pivotSearch_swapsOk {pv : Pivoting} {c : Nat} {e e' : Elimination} (hc : c < pv.columns)
    (hs : e.SwapsOk pv) (h : pivotSearch pv c e = some e') : e'.SwapsOk pv := by
  obtain ⟨j, hen, hmax, _, _, hj, _, rfl⟩ := pivotSearch_cases h
  refine ⟨?_, ?_, by simp [hen]⟩
  · intro x hx
    simp only [List.mem_append, List.mem_singleton] at hx
    rcases hx with hx | rfl
    · exact hs.1 x hx
    · exact ⟨hc, hj⟩
  · have := hs.2.1
    simp; omega

/-- Everything one column's turn keeps (R183). -/
theorem eliminateColumn_keeps {pv : Pivoting} {c : Nat} {e e' : Elimination} (hc : c < pv.columns)
    (hs : e.SwapsOk pv) (h : eliminateColumn pv c e = some e') :
    e'.rows.length = e.rows.length ∧ e'.SwapsOk pv := by
  obtain ⟨e1, he1, h⟩ := Option.bind_eq_some_iff.mp h
  obtain ⟨p, _, rfl⟩ := Option.map_eq_some_iff.mp h
  have h1 : e1.rows.length = e.rows.length ∧ e1.SwapsOk pv := by
    unfold findPivot at he1
    split at he1
    · simp only [Option.some.injEq] at he1; subst he1; exact ⟨rfl, hs⟩
    · refine ⟨?_, pivotSearch_swapsOk hc hs he1⟩
      obtain ⟨j, _, _, _, _, _, _, rfl⟩ := pivotSearch_cases he1
      simp
  exact ⟨by simp [length_clearColumn, length_swapRows, h1.1], h1.2⟩

theorem eliminate_keeps (pv : Pivoting) (count c : Nat) (e : Elimination) (hc : c + count ≤ pv.columns)
    (hs : e.SwapsOk pv) :
    (eliminate pv count c e).elimination.rows.length = e.rows.length ∧
    (eliminate pv count c e).elimination.SwapsOk pv := by
  induction count generalizing c e with
  | zero => exact ⟨rfl, hs⟩
  | succ count ih =>
    rw [eliminate]
    split
    · exact ⟨rfl, hs⟩
    · next e' he' =>
      have h1 := eliminateColumn_keeps (by omega) hs he'
      have h2 := ih (c + 1) e' (by omega) h1.2
      exact ⟨h2.1.trans h1.1, h2.2⟩

theorem applySwaps_good {supp perm n d : Nat} {swaps : List (Nat × Nat)} {fm fm' : Mem 16} (hg : fm.Good d)
    (hsupp : ∀ x ∈ swaps, supp + x.1 < d ∧ supp + x.2 < d)
    (hperm : swaps = [] ∨ perm + 2 * (n + swaps.length) ≤ d)
    (h : applySwaps supp perm n swaps fm = some fm') : fm'.Good d := by
  induction swaps generalizing n fm with
  | nil => simp only [applySwaps, Option.some.injEq] at h; exact h ▸ hg
  | cons x rest ih =>
    obtain ⟨c, j⟩ := x
    rw [applySwaps] at h
    split at h
    · next a b _ _ =>
      have hs := hsupp (c, j) (by simp)
      have hp : perm + 2 * (n + (rest.length + 1)) ≤ d := by simpa using hperm
      refine ih ?_ (fun x hx => hsupp x (by simp [hx])) (Or.inr (by omega)) h
      exact Mem.write_good (Mem.write_good (Mem.write_good (Mem.write_good hg hs.1 _) hs.2 _) (by omega) _) (by omega) _
    · simp at h

/-! ### SAMPLE -/

/-- The accepted indices so far: distinct, below N, and no more of them than the words consumed. -/
abbrev AcceptedOk (n t : Nat) (acc : List Nat) (d : Nat) : Prop :=
  acc.Nodup ∧ (∀ i ∈ acc, i < n) ∧ acc.length ≤ t ∧ acc.length ≤ d

/-- What holds where SAMPLE's loop stops: of the indices, of the words consumed, and of the words left (R200). -/
def SampleEnd.Ok (n t max : Nat) (fifo : List FWord) : SampleEnd → Prop
  | .accepted acc d rest => AcceptedOk n t acc d ∧ acc.length = t ∧ d ≤ max ∧ rest.length ≤ fifo.length
  | .exhausted d rest => d = max ∧ rest.length ≤ fifo.length
  | .starved acc d => AcceptedOk n t acc d ∧ acc.length < t ∧ d < max

theorem SampleEnd.Ok.mono {n t max : Nat} {w : FWord} {ws : List FWord} {r : SampleEnd} (h : r.Ok n t max ws) :
    r.Ok n t max (w :: ws) := by
  cases r with
  | accepted acc d rest => exact ⟨h.1, h.2.1, h.2.2.1, by have := h.2.2.2; simp; omega⟩
  | exhausted d rest => exact ⟨h.1, by have := h.2; simp; omega⟩
  | starved acc d => exact h

/-- One more word keeps the accepted indices in order. -/
theorem sampleNext_ok (fd : GField) {n t d : Nat} {acc : List Nat} (w : FWord) (h : AcceptedOk n t acc d)
    (ht : acc.length < t) : AcceptedOk n t (sampleNext fd n acc w) (d + 1) := by
  obtain ⟨h1, h2, h3, h4⟩ := h
  unfold sampleNext
  split
  · exact ⟨h1, h2, h3, by omega⟩
  · next hi =>
    push Not at hi
    refine ⟨?_, ?_, by simp; omega, by simp; omega⟩
    · rw [List.nodup_append]
      refine ⟨h1, by simp, ?_⟩
      rintro a ha' b hb rfl
      simp only [List.mem_singleton] at hb
      exact hi.2 (hb ▸ ha')
    · intro i hmem
      simp only [List.mem_append, List.mem_singleton] at hmem
      rcases hmem with hmem | rfl
      · exact h2 i hmem
      · exact hi.1

/-- Everything that can be said of where SAMPLE's loop stops. -/
theorem sampleLoop_ok (fd : GField) (n t max : Nat) (fifo : List FWord) (acc : List Nat) (d : Nat)
    (ha : AcceptedOk n t acc d) (hd : d ≤ max) : (sampleLoop fd n t max fifo acc d).Ok n t max fifo := by
  induction fifo generalizing acc d with
  | nil =>
    rw [sampleLoop]
    split
    · next h => exact ⟨ha, le_antisymm ha.2.2.1 h, hd, le_rfl⟩
    · next h =>
      split
      · next he => exact ⟨he, le_rfl⟩
      · next he => exact ⟨ha, by omega, by omega⟩
  | cons w ws ih =>
    rw [sampleLoop]
    split
    · next h => exact ⟨ha, le_antisymm ha.2.2.1 h, hd, le_rfl⟩
    · next h =>
      split
      · next he => exact ⟨he, le_rfl⟩
      · next he => exact (ih _ _ (sampleNext_ok fd w ha (by omega)) (by omega)).mono

end Sys2Proof.Machine
end

