-- ==== Sys2Proof/Tests/Slice0.lean ====
section
/-! SUPPORT. The model's own tests. Expected values come from the spec: the encodings of 30_encoding.md, the vectors of
95_test_vectors.md, or the rule a test names. The last part has, for each statement with hypotheses, states that meet them. -/

namespace Sys2Proof.Machine

-- one theorem at a time: many kernel evaluations at once need more threads than the memory limit allows
set_option Elab.async false

/-! ## Helpers -/

/-- The next state of an outcome. -/
def after : Host.Outcome State Fault Refusal → Option State
  | .next t => some t
  | .fault _ => none
  | .refused _ => none

/-- The configuration of the toy code (95_test_vectors.md section 3.1). -/
def toyCfg : ConfigRegs :=
  { ConfigRegs.reset with
    paramM := 4, paramN := 16, paramT := 2, fpoly := 0x13
    suppBase := 0x00, polyBase := 0x20, locBase := 0x28, scrBase := 0x30, permBase := 0x40
    hBase := 0x00, hStride := 1, pkBase := 0x10, pkStride := 1, eBase := 0x20, sBase := 0x21, s2Base := 0x22 }

/-- Its FM after program 2 (section 5.2): support, g, locator, both doubled-syndrome sets. -/
def toyFm : Mem 16 :=
  let supp := Mem.writeN (w := 16) [] 0x00 [0, 1, 2, 3, 4, 5, 6, 7, 8, 9, 10, 11, 12, 13, 14, 15]
  (((supp.writeN 0x20 [1, 2, 1]).writeN 0x28 [9, 9, 1]).writeN 0x30 [13, 1, 6, 10]).writeN 0x34 [13, 1, 6, 10]

/-- H as HBUILD leaves it, and as GAUSS leaves it (section 3.2). -/
def toyHBuilt : List BWord := [0xF50F, 0xF5A0, 0xAA50, 0x505A, 0xB512, 0x8BE4, 0x34D0, 0xDDEA]
def toyHReduced : List BWord := [0xA301, 0xCD02, 0xAC04, 0x3708, 0x7810, 0x6B20, 0xD240, 0x9E80]

/-- BM with a given H, and PK, E, S, S2 after program 2. -/
def toyBm (h : List BWord) : Mem 32 :=
  ((Mem.writeN (w := 32) [] 0x00 h).writeN 0x10 [0xA3, 0xCD, 0xAC, 0x37, 0x78, 0x6B, 0xD2, 0x9E]).writeN
    0x20 [0x1020, 0xF8, 0xF8]

/-- The toy code with H as GAUSS leaves it. -/
def toy : State := { State.reset with cfg := toyCfg, fm := toyFm, bm := toyBm toyHReduced }

/-- The toy code with H as HBUILD leaves it. -/
def toyUnreduced : State := { toy with bm := toyBm toyHBuilt }

/-- The toy code on the support of section 3.6, whose GAUSS needs a pivot. -/
def toyPivot (pivotEn : Bool) : State :=
  { toy with
    cfg := { toyCfg with pivotEn := pivotEn }
    fm := toyFm.writeN 0x00 [2, 3, 11, 10, 8, 1, 5, 4, 7, 15, 9, 12, 6, 13, 14, 0]
    bm := toyBm [0xEA3B, 0x6B58, 0x3684, 0x58A2, 0x2AB8, 0x1755, 0x3988, 0x5B7E] }

/-- A state that only the field commands need: a field and some registers. -/
def fieldState (m : BitVec 5) (poly : BitVec 17) (f : List (FReg × FWord)) : State :=
  f.foldl (fun s x => s.setF x.1 x.2) { State.reset with cfg := { ConfigRegs.reset with paramM := m, fpoly := poly } }

/-- A state with a command in flight. -/
def State.running (s : State) (w : BWord) : State := { s with inflight := some { word := w, accepted := [], consumed := 0 } }

/-- `F[rd]` and `STATUS` after a command. -/
def regAfter (i : Instr) (rd : FReg) (s : State) : Option (FWord × BWord) :=
  (after (exec i s)).map fun t => (t.getF rd, statusWord t)

/-- Some BM words and `STATUS` after a command. -/
def bmAfter (i : Instr) (a n : Nat) (s : State) : Option (Option (List BWord) × BWord) :=
  (after (exec i s)).map fun t => (t.bm.readN? a n, statusWord t)

/-- Some FM words and `STATUS` after a command. -/
def fmAfter (i : Instr) (a n : Nat) (s : State) : Option (Option (List FWord) × BWord) :=
  (after (exec i s)).map fun t => (t.fm.readN? a n, statusWord t)

/-- `STATUS` after the engine runs a command word. -/
def statusAfter (w : BWord) (s : State) : Option BWord := (after (engineTurn (s.running w))).map statusWord

/-! ## WellFormed refuses each ill-formed operand (R115, R116) -/

theorem test_illformed_peval_selector : (Instr.peval 1 2 2).wellFormed = false := by decide
theorem test_illformed_synd_flags : (Instr.synd 4).wellFormed = false := by decide
theorem test_illformed_dsynd_flags : (Instr.dsynd 2).wellFormed = false := by decide
theorem test_illformed_check_flags : (Instr.check 2).wellFormed = false := by decide
theorem test_wellformed_limits : (Instr.peval 15 15 1).wellFormed ∧ (Instr.synd 3).wellFormed ∧
    (Instr.dsynd 1).wellFormed ∧ (Instr.check 1).wellFormed := by decide

/-! ## Decoding: every word is written field by field from the formats of R111 to R113 and the opcodes of R115 -/

theorem test_decode_nop : decode (0b00000000000000000000#20 ++ 0b0000#4 ++ 0b00000000#8) = .ok .nop := by rfl
theorem test_decode_fadd :
    decode (0b000000000000#12 ++ 0b0011#4 ++ 0b0010#4 ++ 0b0001#4 ++ 0b00000001#8) = .ok (.fadd 1 2 3) := by rfl
theorem test_decode_fmul :
    decode (0b000000000000#12 ++ 0b1000#4 ++ 0b0100#4 ++ 0b1111#4 ++ 0b00000010#8) = .ok (.fmul 15 4 8) := by rfl
theorem test_decode_fsqr :
    decode (0b000000000000#12 ++ 0b0000#4 ++ 0b1010#4 ++ 0b0101#4 ++ 0b00000011#8) = .ok (.fsqr 5 10) := by rfl
theorem test_decode_finv :
    decode (0b000000000000#12 ++ 0b0000#4 ++ 0b0011#4 ++ 0b0100#4 ++ 0b00000100#8) = .ok (.finv 4 3) := by rfl
theorem test_decode_fpow :
    decode (0b000000000000#12 ++ 0b0110#4 ++ 0b0101#4 ++ 0b0111#4 ++ 0b00000101#8) = .ok (.fpow 7 5 6) := by rfl
theorem test_decode_ftr :
    decode (0b000000000000#12 ++ 0b0000#4 ++ 0b1001#4 ++ 0b0110#4 ++ 0b00000110#8) = .ok (.ftr 6 9) := by rfl
theorem test_decode_fmov :
    decode (0b000000000000#12 ++ 0b0000#4 ++ 0b0001#4 ++ 0b0010#4 ++ 0b00000111#8) = .ok (.fmov 2 1) := by rfl
theorem test_decode_fli :
    decode (0b1111000100100011#16 ++ 0b0000#4 ++ 0b0010#4 ++ 0b00001000#8) = .ok (.fli 2 0xF123) := by rfl
theorem test_decode_fld :
    decode (0b0011111111111111#16 ++ 0b0000#4 ++ 0b0001#4 ++ 0b00001001#8) = .ok (.fld 1 0x3FFF) := by rfl
theorem test_decode_fst :
    decode (0b0000000100000000#16 ++ 0b0000#4 ++ 0b0011#4 ++ 0b00001010#8) = .ok (.fst 3 0x0100) := by rfl
theorem test_decode_peval :
    decode (0b000000000000#12 ++ 0b0001#4 ++ 0b0001#4 ++ 0b0010#4 ++ 0b00001011#8) = .ok (.peval 2 1 1) := by rfl
theorem test_decode_hbuild : decode (0b00000000000000000000#20 ++ 0b0000#4 ++ 0b00010000#8) = .ok .hbuild := by rfl
theorem test_decode_gauss : decode (0b00000000000000000000#20 ++ 0b0000#4 ++ 0b00010001#8) = .ok .gauss := by rfl
theorem test_decode_pkext : decode (0b00000000000000000000#20 ++ 0b0000#4 ++ 0b00010010#8) = .ok .pkext := by rfl
theorem test_decode_synd : decode (0b00000000000000000000#20 ++ 0b0010#4 ++ 0b00010011#8) = .ok (.synd 2) := by rfl
theorem test_decode_sample : decode (0b00000000000000000000#20 ++ 0b0000#4 ++ 0b00010100#8) = .ok .sample := by rfl
theorem test_decode_dsynd : decode (0b00000000000000000000#20 ++ 0b0001#4 ++ 0b00010101#8) = .ok (.dsynd 1) := by rfl
theorem test_decode_bm : decode (0b00000000000000000000#20 ++ 0b0000#4 ++ 0b00010110#8) = .ok .bm := by rfl
theorem test_decode_roots : decode (0b00000000000000000000#20 ++ 0b0000#4 ++ 0b00010111#8) = .ok .roots := by rfl
theorem test_decode_check : decode (0b00000000000000000000#20 ++ 0b0001#4 ++ 0b00011000#8) = .ok (.check 1) := by rfl

/-- The host's view of the same decoder (section 5.1: `fmul f3, f1, f2`). -/
theorem test_decode_table_word : decodeTableWord 32 0x00021302 = some (.fmul 3 1 2) ∧ decodeTableWord 32 0x19 = none := by
  decide

/-! ## Field commands (95_test_vectors.md section 2) -/

theorem test_nop : (after (exec .nop State.reset)).map statusWord = some 2 := by decide +kernel
theorem test_fadd : regAfter (.fadd 3 1 2) 3 (fieldState 12 0x1009 [(1, 0xABC), (2, 0xDEF)]) = some (0x753, 2) := by
  decide +kernel
theorem test_fadd_source_is_destination :
    regAfter (.fadd 1 1 1) 1 (fieldState 4 0x13 [(1, 0xFFFF)]) = some (0, 2) := by decide +kernel
theorem test_fmul : regAfter (.fmul 3 1 2) 3 (fieldState 12 0x1009 [(1, 0x123), (2, 0x456)]) = some (0x21F, 2) := by
  decide +kernel
theorem test_fmul_masks_operands : regAfter (.fmul 3 1 2) 3 (fieldState 13 0x201B [(1, 0xFFFF), (2, 1)]) =
    some (0x1FFF, 2) := by decide +kernel
theorem test_fsqr : regAfter (.fsqr 3 1) 3 (fieldState 13 0x201B [(1, 0x1234)]) = some (0x1E2A, 2) := by decide +kernel
theorem test_finv : regAfter (.finv 3 1) 3 (fieldState 13 0x201B [(1, 0x1234)]) = some (0x0704, 2) := by decide +kernel
theorem test_finv_zero : regAfter (.finv 4 3) 4 (fieldState 12 0x1009 [(4, 7)]) = some (0, 2) := by decide +kernel
theorem test_fpow_full_exponent : regAfter (.fpow 3 1 2) 3 (fieldState 12 0x1009 [(1, 0x123), (2, 0xFFFF)]) =
    some (0x63E, 2) := by decide +kernel
theorem test_fpow_zero_to_zero : regAfter (.fpow 7 5 6) 7 (fieldState 4 0x13 []) = some (1, 2) := by decide +kernel
theorem test_ftr : regAfter (.ftr 3 1) 3 (fieldState 12 0x1009 [(1, 0xABC)]) = some (1, 2) := by decide +kernel
theorem test_ftr_zero : regAfter (.ftr 3 1) 3 (fieldState 13 0x201B [(1, 0x1FFF), (3, 9)]) = some (0, 2) := by
  decide +kernel
theorem test_fmov_unmasked : regAfter (.fmov 2 1) 2 (fieldState 4 0x13 [(1, 0xF123)]) = some (0xF123, 2) := by
  decide +kernel
theorem test_fli_masked : regAfter (.fli 2 0xF123) 2 (fieldState 4 0x13 []) = some (3, 2) := by decide +kernel
theorem test_fld_last_word : regAfter (.fld 1 0x3FFF) 1 { fieldState 4 0x13 [] with fm := [(0x3FFF, 0xBEEF)] } =
    some (0xBEEF, 2) := by decide +kernel
theorem test_fld_range : regAfter (.fld 1 0x4000) 1 (fieldState 4 0x13 [(1, 0x1234)]) = some (0x1234, 0x386) := by
  decide +kernel
theorem test_fst : fmAfter (.fst 3 0x100) 0x100 1 (fieldState 12 0x1009 [(3, 0xF21F)]) = some (some [0xF21F], 2) := by
  decide +kernel
theorem test_fst_range : fmAfter (.fst 1 0x4000) 0x4000 1 (fieldState 4 0x13 [(1, 0x1234)]) = some (none, 0x386) := by
  decide +kernel
theorem test_peval_generator : regAfter (.peval 3 1 0) 3 (toy.setF 1 0x00F5) = some (9, 2) := by decide +kernel
theorem test_peval_locator : regAfter (.peval 3 1 1) 3 (toy.setF 1 0x000E) = some (5, 2) := by decide +kernel

/-! ## Block commands on the toy code (section 3) -/

theorem test_hbuild : bmAfter .hbuild 0 8 toy = some (some toyHBuilt, 2) := by decide +kernel
theorem test_hbuild_retry : bmAfter .hbuild 0 8 { toy with fm := toyFm.writeN 0x20 [0, 1, 1] } =
    some (some [0xCFCC, 0xF03C, 0x333C, 0xFF00, 0x86B8, 0xA3D4, 0x1EE4, 0x6A3C], 0x42) := by decide +kernel
theorem test_gauss : bmAfter .gauss 0 8 toyUnreduced = some (some toyHReduced, 2) := by decide +kernel
theorem test_gauss_pivot : (after (exec .gauss (toyPivot true))).map (fun t =>
      (t.bm.readN? 0 8, t.fm.readN? 0x40 2, t.fm.readN? 5 5, t.permCnt, statusWord t)) =
    some (some [0x2D01, 0xEF02, 0x6A04, 0x3B08, 0xF810, 0xB520, 0xF640, 0x5C80], some [7, 9], some [1, 5, 15, 7, 4], 1, 2) := by
  decide +kernel
theorem test_pkext : bmAfter .pkext 0x10 8 { toy with bm := toy.bm.writeN 0x10 [1, 2, 3, 4, 5, 6, 7, 8] } =
    some (some [0xA3, 0xCD, 0xAC, 0x37, 0x78, 0x6B, 0xD2, 0x9E], 2) := by decide +kernel
theorem test_pkext_overlap : bmAfter .pkext 4 4 { toy with cfg := { toyCfg with pkBase := 4 } } =
    some (some [0x7810, 0x6B20, 0xD240, 0x9E80], 0x286) := by decide +kernel
theorem test_synd_full : bmAfter (.synd 0) 0x21 1 toyUnreduced = some (some [0x79], 2) := by decide +kernel
theorem test_synd_systematic : bmAfter (.synd 3) 0x22 1 { toy with bm := toy.bm.write 0x22 0 } = some (some [0xF8], 2) := by
  decide +kernel
/-- Section 3.3: the second and third 5 are duplicates. -/
theorem test_sample : (after (exec .sample { toy with rng := [0x0035, 0xFFF5, 0x0005, 0x000C] })).map (fun t =>
    (t.bm.read? 0x20, t.draws, t.rng, statusWord t)) = some (some 0x1020, 4, [], 2) := by decide +kernel
theorem test_sample_retry : (after (exec .sample { toy with
      cfg := { toyCfg with sampleMax := 3 }, rng := [3, 3, 3, 7] })).map (fun t =>
    (t.bm.read? 0x20, t.draws, t.rng, statusWord t)) = some (some 0, 3, [7], 0x42) := by decide +kernel
/-- Section 3.4: the tampered ciphertext 0xF9. -/
theorem test_dsynd_ciphertext : fmAfter (.dsynd 0) 0x30 4 { toy with bm := toy.bm.write 0x21 0xF9 } =
    some (some [12, 1, 6, 10], 2) := by decide +kernel
theorem test_dsynd_error_vector : fmAfter (.dsynd 1) 0x34 4 { toy with fm := toyFm.writeN 0x34 [0, 0, 0, 0] } =
    some (some [13, 1, 6, 10], 2) := by decide +kernel
theorem test_bm : (after (exec .bm { toy with fm := toyFm.writeN 0x30 [12, 1, 6, 10] })).map (fun t =>
    (t.fm.readN? 0x28 3, t.bmL, statusWord t)) = some (some [2, 13, 1], 2, 2) := by decide +kernel
/-- Section 3.5, the weight-1 row. -/
theorem test_bm_short_locator : (after (exec .bm { toy with fm := toyFm.writeN 0x30 [13, 4, 12, 7] })).map (fun t =>
    (t.fm.readN? 0x28 3, t.bmL, statusWord t)) = some (some [0, 3, 1], 1, 2) := by decide +kernel
theorem test_roots : bmAfter .roots 0x20 1 { toy with bm := toy.bm.write 0x20 0xFFFFFFFF } = some (some [0x1020], 2) := by
  decide +kernel
theorem test_check_accepts : (after (exec (.check 1) toy)).map (fun t => (t.chk, t.mask, statusWord t)) =
    some (0xE0000002, 0xFFFFFFFF, 2) := by decide +kernel
/-- Section 3.5, the row of e = 0: the vector found has weight 1 and another syndrome. -/
theorem test_check_rejects : (after (exec (.check 0) { toy with bm := toy.bm.writeN 0x20 [1, 0, 1] })).map (fun t =>
    (t.chk, t.mask, statusWord t)) = some (1, 0, 2) := by decide +kernel

/-! ## Errors, control and the window (section 4) -/

theorem test_status_of_errors :
    statusAfter 0x0000000C State.reset = some 0x186 ∧ statusAfter 0x00000100 State.reset = some 0x186 ∧
    statusAfter 0x00100001 State.reset = some 0x186 ∧ statusAfter 0x0002100B State.reset = some 0x186 ∧
    statusAfter 0x00032101 State.reset = some 0x286 ∧ statusAfter 0xFFFF0109 State.reset = some 0x286 ∧
    statusAfter 0x00032101 (fieldState 4 0x33 []) = some 0x286 ∧ statusAfter 0x40000109 (fieldState 4 0x13 []) = some 0x386 := by
  decide +kernel

theorem test_status_of_bad_configurations :
    statusAfter 0x10 { toy with cfg := { toyCfg with paramT := 0 } } = some 0x286 ∧
    statusAfter 0x10 { toy with cfg := { toyCfg with paramT := 129 } } = some 0x286 ∧
    statusAfter 0x10 { toy with cfg := { toyCfg with paramN := 17 } } = some 0x286 ∧
    statusAfter 0x10 { toy with cfg := { toyCfg with paramN := 8 } } = some 0x286 ∧
    statusAfter 0x10 { toy with cfg := { toyCfg with hStride := 0 } } = some 0x286 ∧
    statusAfter 0x10 { toy with cfg := { toyCfg with hBase := 1048569 } } = some 0x286 ∧
    statusAfter 0x10 { toy with cfg := { toyCfg with hBase := 1048568 } } = some 2 := by
  decide +kernel

theorem test_sample_waits : (after (engineTurn (toy.running 0x14))).map statusWord = some 9 := by decide +kernel

theorem test_cmd_while_busy_is_dropped :
    statusWord (busTransfer (.write 0x00C 0xF 0) (toy.running 0x14)) = 0x00010001 := by decide +kernel

theorem test_param_write_while_busy_is_dropped :
    let t := busTransfer (.write 0x018 0xF 3) (toy.running 0x14)
    statusWord t = 0x00020001 ∧ t.cfg.paramT = 2 := by decide +kernel

theorem test_full_fifo_drops_the_word :
    let t := busTransfer (.write 0x028 0xF 256) { State.reset with rng := List.replicate 256 7 }
    statusWord t = 0x00040000 ∧ t.rng.length = 256 ∧ busTransfer (.read 0x02C 0xF) t = { t with busResp := some (.readOk 256) } := by
  decide +kernel

theorem test_done_is_cleared_by_one :
    statusWord (busTransfer (.write 0x008 0xF 2) (complete .ok State.reset)) = 0 := by decide +kernel

/-- R281: `PIVOT_CFG`'s fields after reset, PIV_W 64 and PIV_MAX 32. -/
theorem test_reset_pivoting : State.reset.pivW = 64 ∧ State.reset.pivMax = 32 := by decide

/-- R40: the pointer moves on after each access. -/
theorem test_fm_window :
    let s := busTransfer (.write 0x094 0xF 0x1BEEF) { State.reset with fmAddr := 0x3FFF }
    s.fm.read? 0x3FFF = some 0xBEEF ∧ s.fmAddr = 0x4000 ∧
    (busTransfer (.write 0x094 0xF 1) s).busResp = some .writeErr := by decide +kernel

/-- R46, R82: a window read while BUSY, the pointer at the last FM word and just past it. -/
theorem test_fm_window_busy :
    let read := fun (p : BitVec 16) => busTransfer (.read 0x094 0xF) { toy.running 0x14 with fmAddr := p }
    let isErr := fun (s : State) => match s.busResp with
      | some (.readErr _) => true
      | _ => false
    isErr (read 0x3FFF) = false ∧ isErr (read 0x4000) = true ∧ (read 0x4000).status.hostConflict = true ∧
    (read 0x4000).fmAddr = 0x4000 := by decide +kernel

/-- R182: with PIV_W = 0 GAUSS writes no FM word even where H has an undefined word. -/
theorem test_gauss_no_window :
    (after (exec .gauss { toyPivot true with
      cfg := { (toyPivot true).cfg with pivotCfg := 0x00200000 }, bm := [] })).map (·.fm) = some (toyPivot true).fm := by
  decide +kernel

/-- R121, R224, section 3.4: a host program, and the decapsulation sequence as command words. -/
theorem test_host_program : hostCommand (.fmul 3 1 2) = [.bus (.write 0x00C 0xF 0x00021302)] ∧
    (decapsulation .reencryption).map encode = [0x15, 0x16, 0x17, 0x313, 0x18] := by decide +kernel

/-- R119, R120: lines of section 2.4 and an expansion. -/
theorem test_assembler :
    (assemble "FMUL f3, f1, f2 ; product".toList).map (·.map encode) = some [0x00021302] ∧
    (assemble "fld f1, [0x3FFF]".toList).map (·.map encode) = some [0x3FFF0109] ∧
    (assemble "synd sys, s2".toList).map (·.map encode) = some [0x00000313] ∧
    (assemble "fdiv f1, f2, f3".toList).map (·.map encode) = some [0x00003104, 0x00012102] ∧
    assemble "fdiv f1, f1, f3".toList = none ∧ assemble "fli f16, 1".toList = none ∧ assemble "nop f1".toList = none := by
  decide +kernel

/-! ## Witnesses: for each statement with hypotheses, states and operands that meet them -/

/-- An outcome that is a next state with a decidable property. -/
theorem next_with {o : Host.Outcome State Fault Refusal} (P : State → Prop) [DecidablePred P]
    (h : (after o).any (fun t => decide (P t)) = true) : ∃ t, o = .next t ∧ P t := by
  cases o with
  | next t => exact ⟨t, rfl, by simpa [after] using h⟩
  | fault r => simp [after] at h
  | refused r => simp [after] at h

/-- Region checks that pass, from the executable ones. -/
theorem accepted {p : BuildParams} {reads writes : List Region} {strides : List (Nat × Nat)}
    (h : Footprint.ok p ⟨reads, writes, strides⟩ = true) : RegionsAccepted p reads writes strides :=
  (Footprint.ok_iff p ⟨reads, writes, strides⟩).mp h

/-! ### Encoding and steps -/

theorem witness_EncodeThenDecodeReturnsCommand : (Instr.fpow 15 0 9).wellFormed = true ∧
    (Instr.fst 15 0xFFFF).wellFormed = true ∧ (Instr.peval 0 15 1).wellFormed = true ∧ (Instr.synd 3).wellFormed = true := by
  decide

theorem witness_DecodeThenEncodeReturnsWord :
    decode 0xFFFF0F0A = .ok (.fst 15 0xFFFF) ∧ decode 0x0001F00B = .ok (.peval 0 15 1) := ⟨rfl, rfl⟩

theorem witness_LegalWordMatchesExactlyOneRow : decode 0x000FFF01 = .ok (.fadd 15 15 15) ∧
    ∃ r ∈ opcodeRows, (0x00000318 : BWord) &&& r.mask = 0x00000018 := ⟨rfl, by decide +kernel⟩

theorem witness_IllegalWordsCompleteWithErrIllegal :
    (toy.running 0x0C).inflight = some { word := 0x0C, accepted := [], consumed := 0 } ∧
    decode 0x0C = .error .reservedOpcode ∧ decode 0x19 = .error .reservedOpcode ∧ decode 0x00001008 = .error .mustBeZero :=
  ⟨rfl, rfl, rfl, rfl⟩

theorem witness_StepRunsTheDecodedCommand :
    (toy.running 0x10).inflight = some { word := 0x10, accepted := [], consumed := 0 } ∧ decode 0x10 = .ok .hbuild ∧
    (toy.running 0x10).inputs = [] ∧
    ({ toy.running 0x10 with inputs := [.engine (some 3)] } : State).inputs = .engine (some 3) :: [] ∧
    toy.inflight = none ∧ toy.inputs = [] ∧
    ({ toy with inputs := [.engine none] } : State).inputs = .engine none :: [] ∧
    ({ toy with inputs := [.bus (.read 0x008 0xF)] } : State).inputs = .bus (.read 0x008 0xF) :: [] ∧
    ({ toy with inputs := [.hwReset] } : State).inputs = .hwReset :: [] ∧
    ({ toy with inputs := [.powerCycle] } : State).inputs = .powerCycle :: [] ∧
    (toy.running 0x19).inflight = some { word := 0x19, accepted := [], consumed := 0 } ∧
    decode 0x19 = .error .reservedOpcode ∧ (toy.running 0x19).inputs = [] ∧
    ({ toy.running 0x19 with inputs := [.engine none] } : State).inputs = .engine none :: [] :=
  ⟨rfl, rfl, rfl, rfl, rfl, rfl, rfl, rfl, rfl, rfl, rfl, rfl, rfl, rfl⟩

theorem witness_CmdWriteIsAcceptedOrDropped : toy.busy = false ∧ (toy.running 0x14).busy = true := by decide +kernel

theorem witness_OnlyACmdWriteStartsACommand :
    let s := { toy with inputs := [.bus (.write 0x00C 0xF 0x14)] }
    ∃ t, step s = .next t ∧ s.inflight = none ∧ t.inflight = some { word := 0x14, accepted := [], consumed := 0 } := by
  obtain ⟨t, h1, h2⟩ := next_with (o := step { toy with inputs := [.bus (.write 0x00C 0xF 0x14)] })
    (fun t => t.inflight = some { word := 0x14, accepted := [], consumed := 0 }) (by decide +kernel)
  exact ⟨t, h1, rfl, h2⟩

theorem witness_EveryTurnAnswersAndOnlySampleMayHold : (∃ t, exec .nop toy = .next t ∧ t.inflight = none) ∧
    (∃ t, exec .sample toy = .next t ∧ t.inflight ≠ none) :=
  ⟨next_with (fun t => t.inflight = none) (by decide +kernel), next_with (fun t => t.inflight ≠ none) (by decide +kernel)⟩

theorem witness_NopOnlyCompletes : (0xFFFFFF00 : BWord).toNat % 256 = 0 ∧ (0 : BWord).toNat % 256 = 0 := by decide

/-! ### Field commands: M at both ends of its range, and each clause -/

/-- The premise of FADD, FMUL, FSQR, FPOW, FMOV, FLI and of the clauses without more. -/
theorem witness_FieldConfigured :
    FieldConfigured (fieldState 2 0x7 [(1, 3)]) ∧ FieldConfigured (fieldState 16 0x1002B [(1, 0xFFFF)]) := by decide +kernel

theorem witness_FaddWritesTheMaskedXor : FieldConfigured (fieldState 4 0x13 [(1, 0xFFF2), (2, 3)]) := by decide +kernel
theorem witness_FmulWritesTheReducedProduct : FieldConfigured (fieldState 12 0x1009 [(1, 0x123), (2, 0x456)]) := by
  decide +kernel
theorem witness_FsqrWritesTheReducedSquare : FieldConfigured (fieldState 13 0x201B [(1, 0x1234)]) := by decide +kernel
theorem witness_FpowFollowsTheRecurrence : FieldConfigured (fieldState 4 0x13 [(1, 3), (2, 0xFFFF)]) := by decide +kernel
theorem witness_FmovCopiesAndFliMasks : FieldConfigured (fieldState 2 0x7 [(1, 0xF123)]) := by decide +kernel

/-- 0x7 is `z^2 + z + 1`. -/
theorem polyOf_seven : polyOf 7 = (Polynomial.X ^ 2 + Polynomial.X + 1 : Polynomial (ZMod 2)) := by
  simp [polyOf, Finset.sum_range_succ, Nat.testBit, Nat.shiftRight_eq_div_pow]
  ring

/-- Degree 2 and no root. -/
theorem irreducible_seven : Irreducible (polyOf 7) := by
  rw [polyOf_seven]
  have hd : (Polynomial.X ^ 2 + Polynomial.X + 1 : Polynomial (ZMod 2)).natDegree = 2 := by compute_degree!
  refine Polynomial.irreducible_of_degree_le_three_of_not_isRoot (by rw [hd]; decide) fun x => ?_
  have hx : (Polynomial.X ^ 2 + Polynomial.X + 1 : Polynomial (ZMod 2)).eval x = x ^ 2 + x + 1 := by simp
  rw [Polynomial.IsRoot, hx]
  clear hx; revert x
  decide

theorem witness_FinvInvertsInAField :
    let s := fieldState 2 0x7 [(1, 0xFFF2), (2, 0xFFFC)]
    FieldConfigured s ∧ Irreducible (polyOf s.cfg.fpoly.toNat) ∧ s.f[(1 : FReg)].toNat % 2 ^ s.cfg.paramM.toNat ≠ 0 ∧
    s.f[(2 : FReg)].toNat % 2 ^ s.cfg.paramM.toNat = 0 :=
  ⟨by decide +kernel, irreducible_seven, by decide +kernel, by decide +kernel⟩

theorem witness_FtrWritesTheTrace :
    let s := fieldState 2 0x7 [(1, 2)]
    FieldConfigured s ∧ Irreducible (polyOf s.cfg.fpoly.toNat) := ⟨by decide +kernel, irreducible_seven⟩

theorem witness_FldCopiesTheFmWord :
    let s := { fieldState 4 0x13 [] with fm := [(0x3FFF, 0xBEEF)] }
    FieldConfigured s ∧ (0x3FFF : BitVec 16).toNat < s.params.fmDepth ∧
    s.fm.read? (0x3FFF : BitVec 16).toNat = some 0xBEEF ∧ (0 : BitVec 16).toNat < s.params.fmDepth ∧
    s.fm.read? (0 : BitVec 16).toNat = none ∧ s.params.fmDepth ≤ (0x4000 : BitVec 16).toNat := by decide +kernel

theorem witness_FstStoresOneFmWord :
    let s := fieldState 4 0x13 [(3, 0xFFFF)]
    FieldConfigured s ∧ (0x3FFF : BitVec 16).toNat < s.params.fmDepth ∧ s.params.fmDepth ≤ (0x4000 : BitVec 16).toNat := by
  decide +kernel

/-- Both selectors; coefficients written, one of them not written, and a region just past the end of FM. -/
theorem witness_PevalEvaluatesTheSelectedPolynomial :
    let far := { toy with cfg := { toyCfg with polyBase := 0x3FFE, locBase := 0x3FFE } }
    let unwritten := { toy with fm := [(0x20, 1), (0x28, 1)] }
    FieldConfigured toy ∧ toyCfg.polyBase.toNat + (toyCfg.paramT.toNat + 1) ≤ toy.params.fmDepth ∧
    toy.fm.Written toyCfg.polyBase.toNat (toyCfg.paramT.toNat + 1) ∧
    toy.fm.Written toyCfg.locBase.toNat (toyCfg.paramT.toNat + 1) ∧
    ¬ unwritten.fm.Written toyCfg.polyBase.toNat (toyCfg.paramT.toNat + 1) ∧
    ¬ unwritten.fm.Written toyCfg.locBase.toNat (toyCfg.paramT.toNat + 1) ∧
    far.params.fmDepth < far.cfg.polyBase.toNat + (far.cfg.paramT.toNat + 1) ∧
    far.params.fmDepth < far.cfg.locBase.toNat + (far.cfg.paramT.toNat + 1) := by decide +kernel

theorem witness_FieldPrimitivesFormARing :
    GField.Legal { m := 2, poly := 0x4 } ∧ GField.Legal { m := 16, poly := 0x1FFFF } := by decide

/-! ### Block commands -/

theorem toy_codeConfigured : CodeConfigured toy := by decide +kernel

theorem witness_HbuildWritesTheGoppaMatrix :
    let root := { toy with fm := toyFm.writeN 0x20 [0, 1, 1] }
    (∀ s ∈ [toy, root], CodeConfigured s ∧ s.fm.Written s.cfg.suppBase.toNat s.pN ∧
      s.fm.Written s.cfg.polyBase.toNat (s.pT + 1)) ∧
    RegionsAccepted toy.params
      [⟨.fm, toyCfg.suppBase.toNat, toy.pN⟩, ⟨.fm, toyCfg.polyBase.toNat, toy.pT + 1⟩]
      [⟨.bm, toyCfg.hBase.toNat, toy.pR * toyCfg.hStride.toNat⟩] [(toyCfg.hStride.toNat, toy.nw)] ∧
    (∀ j < toy.pN, toy.polyAt toyCfg.polyBase.toNat toy.pT (toy.elemAt (toyCfg.suppBase.toNat + j)) ≠ 0) ∧
    (∃ j < root.pN, root.polyAt root.cfg.polyBase.toNat root.pT (root.elemAt (root.cfg.suppBase.toNat + j)) = 0) :=
  ⟨by decide +kernel, accepted (by decide +kernel), by decide +kernel, ⟨1, by decide +kernel, by decide +kernel⟩⟩

/-- A matrix that reduces without a swap; one that is singular without pivoting, and needs one swap with it (section 3.6). -/
theorem witness_GaussReducesThePermutedMatrix :
    (∀ s ∈ [toyUnreduced, toyPivot false, toyPivot true], CodeConfigured s ∧
      s.bm.RowsWritten s.cfg.hBase.toNat s.cfg.hStride.toNat s.pR s.pN ∧ s.fm.Written s.cfg.suppBase.toNat s.pN) ∧
    RegionsAccepted (toyPivot false).params []
      (if (toyPivot false).cfg.pivotEn then
        [⟨.bm, toyCfg.hBase.toNat, toy.pR * toyCfg.hStride.toNat⟩, ⟨.fm, toyCfg.suppBase.toNat, toy.pN⟩,
         ⟨.fm, toyCfg.permBase.toNat, 2 * toy.pivMax⟩]
       else [⟨.bm, toyCfg.hBase.toNat, toy.pR * toyCfg.hStride.toNat⟩]) [(toyCfg.hStride.toNat, toy.nw)] ∧
    RegionsAccepted (toyPivot true).params []
      (if (toyPivot true).cfg.pivotEn then
        [⟨.bm, toyCfg.hBase.toNat, toy.pR * toyCfg.hStride.toNat⟩, ⟨.fm, toyCfg.suppBase.toNat, toy.pN⟩,
         ⟨.fm, toyCfg.permBase.toNat, 2 * toy.pivMax⟩]
       else [⟨.bm, toyCfg.hBase.toNat, toy.pR * toyCfg.hStride.toNat⟩]) [(toyCfg.hStride.toNat, toy.nw)] :=
  ⟨by decide +kernel, accepted (by decide +kernel), accepted (by decide +kernel)⟩

/-- Section 3.6's matrix with pivoting on, and a window and a bound of these sizes. -/
def toyBound (pivotCfg : BWord) : State :=
  { toyPivot true with cfg := { (toyPivot true).cfg with pivotCfg := pivotCfg } }

/-- The premise of the first clause and of the last: the left block is the identity, so its columns are independent. -/
theorem toy_leftBlock :
    (∀ r < toy.pR, ∀ c < toy.pR, toy.bm.bitOf (toyCfg.hBase.toNat + r * toyCfg.hStride.toNat) c = decide (r = c)) ∧
    ∀ v : Nat → Bool, (∀ r < toy.pR, xorBits (fun c =>
        toy.bm.bitOf (toyCfg.hBase.toNat + r * toyCfg.hStride.toNat) c && v c) toy.pR = false) →
      ∀ c < toy.pR, v c = false := by
  have hid : ∀ r < toy.pR, ∀ c < toy.pR,
      toy.bm.bitOf (toyCfg.hBase.toNat + r * toyCfg.hStride.toNat) c = decide (r = c) := by decide +kernel
  refine ⟨hid, fun v hv c hc => ?_⟩
  have h := hv c hc
  rw [xorBits_congr (g := fun k => decide (c = k) && v k) fun k hk => by rw [hid c hc k hk], xorBits_identityRow] at h
  simpa [hc] using h

/-- A left block that is the identity, with pivoting off and on; and section 3.6's, whose columns 1, 2, 3, 6 and 7 add up to
zero, with pivoting off, with PIV_W = 0 and with PIV_MAX = 0. -/
theorem witness_GaussWithoutPivotingReducesInvertibleBlocks :
    (∀ s ∈ [toy, toyUnreduced, toyPivot false, toyPivot true, toyBound 0x00200000, toyBound 0x00000040],
      CodeConfigured s ∧ s.bm.RowsWritten s.cfg.hBase.toNat s.cfg.hStride.toNat s.pR s.pN) ∧
    (∀ s ∈ [toyPivot false, toyBound 0x00200000, toyBound 0x00000040],
      (s.cfg.pivotEn = false ∨ s.pivW = 0 ∨ s.pivMax = 0) ∧
      (∀ r < s.pR, xorBits (fun c =>
        s.bm.bitOf (s.cfg.hBase.toNat + r * s.cfg.hStride.toNat) c && (0xCE#8).getLsbD c) s.pR = false) ∧
      1 < s.pR ∧ (0xCE#8).getLsbD 1 = true) ∧
    RegionsAccepted toy.params [] [⟨.bm, toyCfg.hBase.toNat, toy.pR * toyCfg.hStride.toNat⟩]
      [(toyCfg.hStride.toNat, toy.nw)] ∧
    (∃ t, exec .gauss { toyBound 0x00200000 with bm := [] } = .next t ∧ t.inflight = none) ∧
    (∀ s ∈ [toyPivot true, toyBound 0x00200000, toyBound 0x00000040],
      RegionsAccepted s.params []
        [⟨.bm, s.cfg.hBase.toNat, s.pR * s.cfg.hStride.toNat⟩, ⟨.fm, s.cfg.suppBase.toNat, s.pN⟩,
         ⟨.fm, s.cfg.permBase.toNat, 2 * s.pivMax⟩] [(s.cfg.hStride.toNat, s.nw)]) := by
  refine ⟨by decide +kernel, by decide +kernel, accepted (by decide +kernel),
    next_with (fun t => t.inflight = none) (by decide +kernel), ?_⟩
  intro s hs
  exact accepted ((by decide +kernel : ∀ s ∈ [toyPivot true, toyBound 0x00200000, toyBound 0x00000040],
    Footprint.ok s.params ⟨[], [⟨.bm, s.cfg.hBase.toNat, s.pR * s.cfg.hStride.toNat⟩,
      ⟨.fm, s.cfg.suppBase.toNat, s.pN⟩, ⟨.fm, s.cfg.permBase.toNat, 2 * s.pivMax⟩],
      [(s.cfg.hStride.toNat, s.nw)]⟩ = true) s hs)

theorem witness_PkextCopiesTheRightBlock :
    CodeConfigured toy ∧
    (∀ r < toy.pR, ∀ c < toy.pK,
      (toy.bm.bit? (toyCfg.hBase.toNat + r * toyCfg.hStride.toNat) (toy.pR + c)).isSome = true) ∧
    RegionsAccepted toy.params [⟨.bm, toyCfg.hBase.toNat, toy.pR * toyCfg.hStride.toNat⟩]
      [⟨.bm, toyCfg.pkBase.toNat, toy.pR * toyCfg.pkStride.toNat⟩]
      [(toyCfg.hStride.toNat, toy.nw), (toyCfg.pkStride.toNat, toy.kw)] :=
  ⟨toy_codeConfigured, by decide +kernel, accepted (by decide +kernel)⟩

theorem toy_syndFull (out : Nat) (h : out = toyCfg.sBase.toNat ∨ out = toyCfg.s2Base.toNat) :
    RegionsAccepted toy.params
      [⟨.bm, toyCfg.eBase.toNat, toy.nw⟩, ⟨.bm, toyCfg.hBase.toNat, toy.pR * toyCfg.hStride.toNat⟩]
      [⟨.bm, out, toy.rw⟩] [(toyCfg.hStride.toNat, toy.nw)] := by
  rcases h with rfl | rfl <;> exact accepted (by decide +kernel)

theorem toy_syndSystematic (out : Nat) (h : out = toyCfg.sBase.toNat ∨ out = toyCfg.s2Base.toNat) :
    RegionsAccepted toy.params
      [⟨.bm, toyCfg.eBase.toNat, toy.nw⟩, ⟨.bm, toyCfg.pkBase.toNat, toy.pR * toyCfg.pkStride.toNat⟩]
      [⟨.bm, out, toy.rw⟩] [(toyCfg.pkStride.toNat, toy.kw)] := by
  rcases h with rfl | rfl <;> exact accepted (by decide +kernel)

/-- The matrices and e are written; with `toy_syndFull` and `toy_syndSystematic`, all four flags values are met. -/
theorem witness_SyndWritesTheMatrixVectorProduct :
    (CodeConfigured toy ∧ toy.bm.Written toyCfg.eBase.toNat toy.nw) ∧
    toy.bm.RowsWritten toyCfg.hBase.toNat toyCfg.hStride.toNat toy.pR toy.pN ∧
    toy.bm.RowsWritten toyCfg.pkBase.toNat toyCfg.pkStride.toNat toy.pR toy.pK ∧
    (∀ out, out = toyCfg.sBase.toNat ∨ out = toyCfg.s2Base.toNat →
      RegionsAccepted toy.params
        [⟨.bm, toyCfg.eBase.toNat, toy.nw⟩, ⟨.bm, toyCfg.hBase.toNat, toy.pR * toyCfg.hStride.toNat⟩]
        [⟨.bm, out, toy.rw⟩] [(toyCfg.hStride.toNat, toy.nw)] ∧
      RegionsAccepted toy.params
        [⟨.bm, toyCfg.eBase.toNat, toy.nw⟩, ⟨.bm, toyCfg.pkBase.toNat, toy.pR * toyCfg.pkStride.toNat⟩]
        [⟨.bm, out, toy.rw⟩] [(toyCfg.pkStride.toNat, toy.kw)]) :=
  ⟨⟨toy_codeConfigured, by decide +kernel⟩, by decide +kernel, by decide +kernel,
   fun out h => ⟨toy_syndFull out h, toy_syndSystematic out h⟩⟩

/-- The toy code with another error vector. -/
def toyWithE (e : BWord) : State := { toy with bm := toy.bm.write 0x20 e }

/-- Both parts: H is `[I | T]` with T in PK; and three vectors, the third the sum of the first two. -/
theorem witness_SyndModesAgreeAndAreLinear :
    (∀ r < toy.pR, ∀ c < toy.pR,
      toy.bm.bitOf (toyCfg.hBase.toNat + r * toyCfg.hStride.toNat) c = decide (r = c)) ∧
    (∀ r < toy.pR, ∀ c < toy.pK,
      toy.bm.bitOf (toyCfg.hBase.toNat + r * toyCfg.hStride.toNat) (toy.pR + c) =
      toy.bm.bitOf (toyCfg.pkBase.toNat + r * toyCfg.pkStride.toNat) c) ∧
    (∀ u ∈ [toyWithE 0x1020, toyWithE 0x0021, toyWithE 0x1001],
      (u.params = toy.params ∧ u.cfg = toy.cfg) ∧ u.bm.Written toyCfg.eBase.toNat toy.nw ∧
      u.bm.Written 0 8 ∧ u.bm.Written 0x10 8 ∧
      (∀ k < 8, u.bm.read? k = toy.bm.read? k ∧ u.bm.read? (0x10 + k) = toy.bm.read? (0x10 + k))) ∧
    (∀ j < toy.pN, (toyWithE 0x1001).bm.bitOf toyCfg.eBase.toNat j =
      ((toyWithE 0x1020).bm.bitOf toyCfg.eBase.toNat j ^^ (toyWithE 0x0021).bm.bitOf toyCfg.eBase.toNat j)) := by
  refine ⟨by decide +kernel, by decide +kernel, by decide +kernel, by decide +kernel⟩

/-- SAMPLE just accepted, with these words in the FIFO and this SAMPLE_MAX. -/
def toySample (max : BWord) (words : List FWord) : State :=
  { toy.running 0x14 with cfg := { toyCfg with sampleMax := max }, rng := words }

theorem toySample_ready (max : BWord) (words : List FWord) :
    CodeConfigured (toySample max words) ∧
    RegionsAccepted (toySample max words).params [] [⟨.bm, (toySample max words).cfg.eBase.toNat, (toySample max words).nw⟩] [] ∧
    (toySample max words).inflight = some { word := 0x14, accepted := [], consumed := 0 } ∧
    (toySample max words).quota = none :=
  ⟨toy_codeConfigured, accepted (show Footprint.ok toy.params ⟨[], [⟨.bm, toyCfg.eBase.toNat, toy.nw⟩], []⟩ = true by
    decide +kernel), rfl, rfl⟩

/-- Section 3.3: the fourth word brings the second index, and it is the last that SAMPLE_MAX allows. -/
theorem witness_SampleWritesTheFirstTIndices :
    let s := toySample 4 [0x0035, 0xFFF5, 0x0005, 0x000C, 0x0001]
    4 ≤ s.rng.length ∧ 4 ≤ s.cfg.sampleMax.toNat ∧ (s.indicesAfter 4).card = s.pT ∧
    ∀ k' < 4, (s.indicesAfter k').card < s.pT := by decide +kernel

/-- Section 3.3: three equal words at SAMPLE_MAX 3; and SAMPLE_MAX 0. -/
theorem witness_SampleRetriesAtTheBound :
    ∀ s ∈ [toySample 3 [3, 3, 3, 7], toySample 0 [1, 2]],
      s.cfg.sampleMax.toNat ≤ s.rng.length ∧ (s.indicesAfter s.cfg.sampleMax.toNat).card < s.pT := by decide +kernel

theorem witness_SampleWaitsForWords :
    ∀ s ∈ [toySample 4 [3, 3, 3], toySample 0x1000 []],
      s.rng.length < s.cfg.sampleMax.toNat ∧ (s.indicesAfter s.rng.length).card < s.pT := by decide +kernel

/-- A turn bounded to two of four words waits. -/
theorem witness_SampleTurnsCompose :
    ∃ t, exec .sample { toySample 0x1000 [3, 3, 3, 7] with quota := some 2 } = .next t ∧ t.busy = true :=
  next_with (fun t => t.busy = true) (by decide +kernel)

theorem toySample_inv : (toySample 0x1000 [3, 3, 7]).Inv where
  legal := by decide
  fmWf := by decide +kernel
  bmWf := by decide +kernel
  fmInside := by decide +kernel
  bmInside := by decide +kernel
  rngFits := by decide
  errorCoded := by decide
  errExplained := by decide
  busyClear := by decide
  waitEmpty := by decide
  progress := by decide +kernel

theorem witness_SampledVectorHasWeightT :
    (toySample 0x1000 [3, 3, 7]).Inv ∧
    ∃ t, exec .sample (toySample 0x1000 [3, 3, 7]) = .next t ∧ t.inflight = none ∧ t.status.result = .ok :=
  ⟨toySample_inv, next_with (fun t => t.inflight = none ∧ t.status.result = .ok) (by decide +kernel)⟩

/-- Both sources. -/
theorem witness_DsyndWritesTheDoubledSyndrome :
    (toy.fm.Written toyCfg.suppBase.toNat toy.pN ∧ toy.fm.Written toyCfg.polyBase.toNat (toy.pT + 1) ∧
      toy.bm.Written toyCfg.sBase.toNat toy.rw ∧ toy.bm.Written toyCfg.eBase.toNat toy.nw) ∧
    CodeConfigured toy ∧
    RegionsAccepted toy.params
      [⟨.fm, toyCfg.suppBase.toNat, toy.pN⟩, ⟨.fm, toyCfg.polyBase.toNat, toy.pT + 1⟩,
       ⟨.bm, toyCfg.sBase.toNat, toy.rw⟩] [⟨.fm, toyCfg.scrBase.toNat, 2 * toy.pT⟩] [] ∧
    RegionsAccepted toy.params
      [⟨.fm, toyCfg.suppBase.toNat, toy.pN⟩, ⟨.fm, toyCfg.polyBase.toNat, toy.pT + 1⟩,
       ⟨.bm, toyCfg.eBase.toNat, toy.nw⟩] [⟨.fm, toyCfg.scrBase.toNat + 2 * toy.pT, 2 * toy.pT⟩] [] :=
  ⟨by decide +kernel, toy_codeConfigured, accepted (by decide +kernel), accepted (by decide +kernel)⟩

/-- A state with a doubled syndrome, and one whose doubled syndrome is zero. -/
theorem witness_BmRunsTheRecurrence :
    let zero := { toy with fm := toyFm.writeN 0x30 [0, 0, 0, 0] }
    (CodeConfigured toy ∧ CodeConfigured zero) ∧ toy.fm.Written toyCfg.scrBase.toNat (2 * toy.pT) ∧
    zero.fm.Written toyCfg.scrBase.toNat (2 * toy.pT) ∧
    (∀ j < 2 * toy.pT, zero.elemAt (toyCfg.scrBase.toNat + j) = 0) ∧
    RegionsAccepted toy.params [⟨.fm, toyCfg.scrBase.toNat, 2 * toy.pT⟩] [⟨.fm, toyCfg.locBase.toNat, toy.pT + 1⟩] [] :=
  ⟨by decide +kernel, by decide +kernel, by decide +kernel, by decide +kernel, accepted (by decide +kernel)⟩

theorem witness_RootsMarksTheLocatorsRoots :
    CodeConfigured toy ∧ toy.fm.Written toyCfg.suppBase.toNat toy.pN ∧
    toy.fm.Written toyCfg.locBase.toNat (toy.pT + 1) ∧
    RegionsAccepted toy.params
      [⟨.fm, toyCfg.suppBase.toNat, toy.pN⟩, ⟨.fm, toyCfg.locBase.toNat, toy.pT + 1⟩]
      [⟨.bm, toyCfg.eBase.toNat, toy.nw⟩] [] :=
  ⟨toy_codeConfigured, by decide +kernel, by decide +kernel, accepted (by decide +kernel)⟩

/-- Both comparisons. -/
theorem witness_CheckReportsWeightAndEquality :
    (CodeConfigured toy ∧ toy.bm.Written toyCfg.eBase.toNat toy.nw ∧ toy.bm.Written toyCfg.sBase.toNat toy.rw ∧
      toy.bm.Written toyCfg.s2Base.toNat toy.rw ∧ toy.fm.Written toyCfg.scrBase.toNat (4 * toy.pT)) ∧
    RegionsAccepted toy.params [⟨.bm, toyCfg.eBase.toNat, toy.nw⟩, ⟨.bm, toyCfg.sBase.toNat, toy.rw⟩,
      ⟨.bm, toyCfg.s2Base.toNat, toy.rw⟩] [] [] ∧
    RegionsAccepted toy.params [⟨.bm, toyCfg.eBase.toNat, toy.nw⟩, ⟨.fm, toyCfg.scrBase.toNat, 4 * toy.pT⟩] [] [] :=
  ⟨by decide +kernel, accepted (by decide +kernel), accepted (by decide +kernel)⟩

/-! ### Errors and frames -/

/-- The toy code with PARAM_T 0: every block command is refused. -/
def toyNoT : State := { toy with cfg := { toyCfg with paramT := 0 } }

theorem witness_ErrorsArePrecise :
    (∃ t, exec .hbuild toyNoT = .next t ∧ t.inflight = none ∧ t.status.result = .error) ∧
    (toyNoT.inflight = none ∧
      ∃ t, engineTurn (accept 0x10 toyNoT) = .next t ∧ t.inflight = none ∧ t.status.result = .error) :=
  ⟨next_with (fun t => t.inflight = none ∧ t.status.result = .error) (by decide +kernel),
   rfl, next_with (fun t => t.inflight = none ∧ t.status.result = .error) (by decide +kernel)⟩

/-- A completion with each error code, among them a stride too small for HBUILD's H and for PKEXT's T. -/
theorem witness_ErrorCodeFollowsTheChecks :
    ((Instr.check 1).wellFormed = true) ∧
    (∃ t, exec .hbuild { toy with cfg := { toyCfg with hStride := 0 } } = .next t ∧ t.inflight = none ∧
      t.status.errCode = .config) ∧
    (∃ t, exec .pkext { toy with cfg := { toyCfg with pkStride := 0 } } = .next t ∧ t.inflight = none ∧
      t.status.errCode = .config) ∧
    (∃ t, exec (.synd 4) toy = .next t ∧ t.inflight = none ∧ t.status.errCode = .illegal) ∧
    (∃ t, exec (.fadd 1 2 3) State.reset = .next t ∧ t.inflight = none ∧ t.status.errCode = .config) ∧
    (∃ t, exec .hbuild toyNoT = .next t ∧ t.inflight = none ∧ t.status.errCode = .config) ∧
    (∃ t, exec (.fst 1 0x4000) toy = .next t ∧ t.inflight = none ∧ t.status.errCode = .range) ∧
    (∃ t, exec .nop State.reset = .next t ∧ t.inflight = none ∧ t.status.errCode = .none) :=
  ⟨rfl, next_with (fun t => t.inflight = none ∧ t.status.errCode = .config) (by decide +kernel),
   next_with (fun t => t.inflight = none ∧ t.status.errCode = .config) (by decide +kernel),
   next_with (fun t => t.inflight = none ∧ t.status.errCode = .illegal) (by decide +kernel),
   next_with (fun t => t.inflight = none ∧ t.status.errCode = .config) (by decide +kernel),
   next_with (fun t => t.inflight = none ∧ t.status.errCode = .config) (by decide +kernel),
   next_with (fun t => t.inflight = none ∧ t.status.errCode = .range) (by decide +kernel),
   next_with (fun t => t.inflight = none ∧ t.status.errCode = .none) (by decide +kernel)⟩

theorem witness_OnlyKeyGenerationAndSamplingRetry :
    ∃ t, exec .gauss (toyPivot false) = .next t ∧ t.inflight = none ∧ t.status.result = .retry :=
  next_with (fun t => t.inflight = none ∧ t.status.result = .retry) (by decide +kernel)

/-- The one premise of `CommandsLeaveControlAlone`. -/
theorem witness_CommandsLeaveControlAlone : ∃ t, exec .hbuild toy = .next t ∧ t.bm ≠ toy.bm :=
  next_with (fun t => t.bm ≠ toy.bm) (by decide +kernel)

/-- Commands that change a field register, PERMCNT, BM_L, DRAWS and the FIFO, CHK and MASK. -/
theorem witness_RegistersHaveOnlyTheirWriters :
    (∃ t, exec (.fli 2 3) toy = .next t ∧ t.f[(2 : FReg)] ≠ toy.f[(2 : FReg)]) ∧
    (∃ t, exec .gauss (toyPivot true) = .next t ∧ t.permCnt ≠ toy.permCnt) ∧
    (∃ t, exec .bm toy = .next t ∧ t.bmL ≠ toy.bmL) ∧
    (∃ t, exec .sample (toySample 0x1000 [3, 3, 7]) = .next t ∧ t.draws ≠ toy.draws ∧ t.rng ≠ [3, 3, 7]) ∧
    (∃ t, exec (.check 0) toy = .next t ∧ t.chk ≠ toy.chk ∧ t.mask ≠ toy.mask) :=
  ⟨next_with (fun t => t.f[(2 : FReg)] ≠ toy.f[(2 : FReg)]) (by decide +kernel),
   next_with (fun t => t.permCnt ≠ toy.permCnt) (by decide +kernel),
   next_with (fun t => t.bmL ≠ toy.bmL) (by decide +kernel),
   next_with (fun t => t.draws ≠ toy.draws ∧ t.rng ≠ [3, 3, 7]) (by decide +kernel),
   next_with (fun t => t.chk ≠ toy.chk ∧ t.mask ≠ toy.mask) (by decide +kernel)⟩

/-- HBUILD writes BM words; word 8, just past H, is outside its region. -/
theorem witness_CommandsWriteOnlyTheirRegions :
    (∃ t, exec .hbuild toy = .next t ∧ t.bm ≠ toy.bm) ∧ (∀ r ∈ (footprint toy .hbuild).writes, ¬ r.Has .bm 8) ∧
    (∀ r ∈ (footprint toy .hbuild).writes, ¬ r.Has .fm 0) :=
  ⟨witness_CommandsLeaveControlAlone, by decide +kernel, by decide +kernel⟩

/-- A BM write, an FM write, GAUSS that ends RETRY, and a command whose input no one wrote. -/
theorem witness_CompletedCommandsWriteTheirWholeRegions :
    (∃ t, exec .hbuild toy = .next t ∧ t.inflight = none ∧ t.status.result ≠ .error) ∧
    (∃ r ∈ (footprint toy .hbuild).writes, r.Has .bm 7) ∧
    (∃ t, exec (.dsynd 1) toy = .next t ∧ t.inflight = none ∧ t.status.result ≠ .error) ∧
    (∃ r ∈ (footprint toy (.dsynd 1)).writes, r.Has .fm 0x37) ∧
    (∃ t, exec .gauss (toyPivot false) = .next t ∧ t.inflight = none ∧ t.status.result ≠ .error) ∧
    (∃ t, exec .roots { toy with fm := [] } = .next t ∧ t.inflight = none ∧ t.status.result ≠ .error) :=
  ⟨next_with (fun t => t.inflight = none ∧ t.status.result ≠ .error) (by decide +kernel), by decide +kernel,
   next_with (fun t => t.inflight = none ∧ t.status.result ≠ .error) (by decide +kernel), by decide +kernel,
   next_with (fun t => t.inflight = none ∧ t.status.result ≠ .error) (by decide +kernel),
   next_with (fun t => t.inflight = none ∧ t.status.result ≠ .error) (by decide +kernel)⟩

/-- Two states that differ outside HBUILD's regions: in E, in the FM pointer and in the interrupt enable. -/
theorem witness_CommandsReadOnlyTheirRegions :
    let s' := { toyWithE 0x0021 with fmAddr := 5, irqEn := true }
    (∃ t, exec .hbuild toy = .next t ∧ t.drawNo = toy.drawNo) ∧ (∃ t', exec .hbuild s' = .next t' ∧ t'.drawNo = s'.drawNo) ∧
    s' ≠ toy ∧ s'.f = toy.f ∧ s'.rng = toy.rng ∧ SameResults toy s' ∧ s'.fm = toy.fm ∧
    (∀ r ∈ (footprint toy .hbuild).reads ++ (footprint toy .hbuild).writes, ∀ a ∈ r.addrs,
      r.space = .bm → s'.bm.read? a = toy.bm.read? a) :=
  ⟨next_with (fun t => t.drawNo = toy.drawNo) (by decide +kernel), next_with (fun t => t.drawNo = 0) (by decide +kernel),
   by decide +kernel, rfl, rfl, ⟨rfl, rfl, rfl, rfl, rfl⟩, rfl, by decide +kernel⟩

/-! ### The window, resets and the invariant -/

/-- Idle; another register, a reserved offset and a misaligned one. -/
theorem witness_WindowRegistersReadBack : toy.busy = false ∧ (0x080 : BitVec 12).toNat % 4 = 0 ∧
    (0xFFC : BitVec 12).toNat % 4 = 0 ∧ (0x011 : BitVec 12).toNat % 4 ≠ 0 := by decide +kernel

/-- BUSY with the pointers in range, and with both just past the memories. -/
theorem witness_GuardedAccessWhileBusyOnlySetsHostConflict :
    let outside := { toy.running 0x14 with fmAddr := 0x4000, bmAddr := 0x100000 }
    ((toy.running 0x14).busy = true ∧ (toy.running 0x14).fmAddr.toNat < toy.params.fmDepth ∧
      (toy.running 0x14).bmAddr.toNat < toy.params.bmWords) ∧
    (outside.busy = true ∧ outside.params.fmDepth ≤ outside.fmAddr.toNat ∧
      outside.params.bmWords ≤ outside.bmAddr.toNat) ∧ (0xFFFFFFFB : BWord).getLsbD 2 = false := by decide +kernel

theorem witness_ReadsWhileBusy : (toy.running 0x14).busy = true := rfl

/-- The pointers at the last word, written and not, and just past it. -/
theorem witness_WindowsReadAndWriteThroughThePointer :
    let inside := { State.reset with fmAddr := 0x3FFF, bmAddr := 0x0FFFFF, fm := [(0x3FFF, 1)], bm := [(0x0FFFFF, 2)] }
    let unwritten := { State.reset with fmAddr := 0x3FFF, bmAddr := 0x0FFFFF }
    let outside := { State.reset with fmAddr := 0x4000, bmAddr := 0x100000 }
    (inside.busy = false ∧ inside.fmAddr.toNat < inside.params.fmDepth ∧ inside.bmAddr.toNat < inside.params.bmWords ∧
      inside.fm.read? inside.fmAddr.toNat = some 1 ∧ inside.bm.read? inside.bmAddr.toNat = some 2) ∧
    (unwritten.busy = false ∧ unwritten.fmAddr.toNat < unwritten.params.fmDepth ∧
      unwritten.bmAddr.toNat < unwritten.params.bmWords ∧ unwritten.fm.read? unwritten.fmAddr.toNat = none ∧
      unwritten.bm.read? unwritten.bmAddr.toNat = none) ∧
    (outside.busy = false ∧ outside.params.fmDepth ≤ outside.fmAddr.toNat ∧
      outside.params.bmWords ≤ outside.bmAddr.toNat) := by decide +kernel

/-- A FIFO one short of full, and a full one. -/
theorem witness_RngInAppendsOrOverflows :
    let short := { State.reset with rng := List.replicate 255 7 }
    let full := { State.reset with rng := List.replicate 256 7 }
    short.rng.length < short.params.rngDepth ∧ full.params.rngDepth ≤ full.rng.length ∧ full.params.Legal ∧
    full.rng.length ≤ full.params.rngDepth := by decide +kernel

/-- The ends of each reserved range. -/
theorem witness_ReservedOffsetsReadZeroAndIgnoreWrites :
    ∀ a ∈ ([0x044, 0x04C, 0x06C, 0x084, 0x08C, 0x0A0, 0x0FC, 0x140, 0xFFC] : List (BitVec 12)), a.toNat % 4 = 0 ∧
      ((0x044 ≤ a.toNat ∧ a.toNat ≤ 0x04C) ∨ a.toNat = 0x06C ∨ (0x084 ≤ a.toNat ∧ a.toNat ≤ 0x08C) ∨
        (0x0A0 ≤ a.toNat ∧ a.toNat ≤ 0x0FC) ∨ (0x140 ≤ a.toNat ∧ a.toNat ≤ 0xFFC)) := by decide +kernel

theorem witness_CtrlHoldsTheTwoEnables : (0x00000003 : BWord).getLsbD 2 = false := by decide

/-- Idle and BUSY; CTRL data without and with SOFT_RESET; a transfer to none of the three registers, and a narrow one to
STATUS; an engine turn that completes, one that holds, and one with nothing in flight. -/
theorem witness_IrqFollowsDoneAndEnable :
    (toy.busy = false ∧ (toy.running 0x14).busy = true) ∧
    ((0x00000001 : BWord).getLsbD 2 = false ∧ (0x00000006 : BWord).getLsbD 2 = true) ∧
    (∀ x ∈ ([.read 0x008 0xF, .write 0x028 0xF 1, .write 0x008 0x7 2] : List Transfer), ∀ v,
      x ≠ .write 0x008 0xF v ∧ x ≠ .write 0x00C 0xF v ∧ x ≠ .write 0x004 0xF v) ∧
    (∃ t, engineTurn (toy.running 0x10) = .next t ∧ t.busy = false) ∧
    (∃ t, engineTurn (toy.running 0x14) = .next t ∧ t.busy = true) ∧ engineTurn toy = .next toy :=
  ⟨by decide +kernel, by decide +kernel, by simp, next_with (fun t => t.busy = false) (by decide +kernel),
   next_with (fun t => t.busy = true) (by decide +kernel), rfl⟩

/-- Misaligned, narrow, out of range (the first address past each memory), and served transfers. -/
theorem witness_MisalignedAndNarrowTransfersAreRefused :
    let outside := { State.reset with fmAddr := 0x4000, bmAddr := 0x100000 }
    (0x00D : BitVec 12).toNat % 4 ≠ 0 ∧ (0x7 : BitVec 4) ≠ 0xF ∧ (0x094 : BitVec 12).toNat % 4 = 0 ∧
    (outside.busy = false ∧ outside.params.fmDepth ≤ outside.fmAddr.toNat ∧
      outside.params.bmWords ≤ outside.bmAddr.toNat) ∧
    (toy.busy = false ∧ toy.fmAddr.toNat < toy.params.fmDepth ∧ toy.bmAddr.toNat < toy.params.bmWords) ∧
    (let busy := outside.running 0x14
     busy.busy = true ∧ busy.params.fmDepth ≤ busy.fmAddr.toNat ∧ busy.params.bmWords ≤ busy.bmAddr.toNat) := by
  decide +kernel

theorem witness_HardwareResetRestoresEveryRegister : toy.inflight = none := rfl

theorem witness_SoftResetKeepsTheConfiguration : (0x00000006 : BWord).getLsbD 2 = true := by decide

/-- HBUILD and FST in flight; an FM word of FST's region and one outside it, a BM word of H and one outside it. -/
theorem witness_ResetAbandonsTheCommandInFlight :
    ((toy.running 0x10).inflight = some { word := 0x10, accepted := [], consumed := 0 } ∧ decode 0x10 = .ok .hbuild) ∧
    ((toy.running 0x0050030A).inflight = some { word := 0x0050030A, accepted := [], consumed := 0 } ∧
      decode 0x0050030A = .ok (.fst 3 0x50)) ∧
    (∃ r ∈ (footprint toy .hbuild).writes, r.Has .bm 7) ∧ (∀ r ∈ (footprint toy .hbuild).writes, ¬ r.Has .bm 8) ∧
    (∃ r ∈ (footprint toy (.fst 3 0x50)).writes, r.Has .fm 0x50) ∧
    (∀ r ∈ (footprint toy (.fst 3 0x50)).writes, ¬ r.Has .fm 0x51) ∧ (0x50 < toy.params.fmDepth ∧ 7 < toy.params.bmWords) ∧
    (0x00000004 : BWord).getLsbD 2 = true :=
  ⟨⟨rfl, rfl⟩, ⟨rfl, rfl⟩, by decide +kernel, by decide +kernel, by decide +kernel, by decide +kernel, by decide +kernel,
   by decide⟩

theorem witness_ResetStateMeetsTheInvariant : BuildParams.suggested.Legal ∧
    BuildParams.Legal { fmDepth := 65536, bmWords := 2 ^ 24, rngDepth := 65535, tMax := 65535 } ∧
    BuildParams.Legal { fmDepth := 1, bmWords := 1, rngDepth := 1, tMax := 1 } := by decide

theorem witness_StepKeepsTheInvariant : (toySample 0x1000 [3, 3, 7]).Inv ∧
    ∃ t, step (toySample 0x1000 [3, 3, 7]) = .next t ∧ t.status.done = true :=
  ⟨toySample_inv, next_with (fun t => t.status.done = true) (by decide +kernel)⟩

end Sys2Proof.Machine
end

section
/-! PROOFS. The invariant (`State.Inv`): what it says in two halves, that every kind of step keeps both, and with it that the
reset state has it and every step keeps it (O59, O60). -/

namespace Sys2Proof.Machine

/-! ### The two halves of the invariant -/

/-- The half of the invariant that says nothing of the command in flight: the build parameters (R7), both memories (R83,
R84), and the length of the FIFO (R42). -/
structure State.Storage (s : State) : Prop where
  legal   : s.params.Legal
  fm      : s.fm.Good s.params.fmDepth
  bm      : s.bm.Good s.params.bmWords
  rngFits : s.rng.length ≤ s.params.rngDepth

/-- RESULT, ERRCODE and ERR agree (R26, R252). -/
structure Status.Coherent (st : Status) : Prop where
  errorCoded   : st.result = .error ↔ st.errCode ≠ .none
  errExplained : st.err = true → st.errCode ≠ .none

/-- The invariant's bound on a memory is the one the memory laws speak of. -/
theorem Mem.inside_iff_below {w : Nat} (m : Mem w) (d : Nat) : m.Inside d ↔ m.Below d := by
  simp [Mem.Inside, Mem.Below]

section
variable {s : State}

theorem State.Inv.storage (h : s.Inv) : s.Storage where
  legal := h.legal
  fm := ⟨h.fmWf, (Mem.inside_iff_below _ _).mp h.fmInside⟩
  bm := ⟨h.bmWf, (Mem.inside_iff_below _ _).mp h.bmInside⟩
  rngFits := h.rngFits

theorem State.Inv.coherent (h : s.Inv) : s.status.Coherent where
  errorCoded := h.errorCoded
  errExplained := h.errExplained

theorem State.busy_eq_false_iff : s.busy = false ↔ s.inflight = none := by
  simp [State.busy]

/-- With nothing in flight there is no progress to speak of. -/
theorem State.progressOk_of_idle (h : s.inflight = none) : s.ProgressOk := by
  simp [State.ProgressOk, State.sampleAccepted, State.sampleConsumed, h]

/-- An idle engine waits for no word (R201). -/
theorem State.Inv.rngWait_of_idle (h : s.Inv) (hidle : s.inflight = none) : s.status.rngWait = false := by
  rw [← Bool.not_eq_true]
  intro hw
  have hbusy : s.busy = true := (h.waitEmpty hw).1
  simp [State.busy, hidle] at hbusy

/-- Of an idle state, only the half about storage and the status bits is left to ask. -/
theorem State.Storage.inv_of_idle (h : s.Storage) (hst : s.status.Coherent) (hidle : s.inflight = none)
    (hwait : s.status.rngWait = false) : s.Inv where
  legal := h.legal
  fmWf := h.fm.1
  bmWf := h.bm.1
  fmInside := (Mem.inside_iff_below _ _).mpr h.fm.2
  bmInside := (Mem.inside_iff_below _ _).mpr h.bm.2
  rngFits := h.rngFits
  errorCoded := hst.errorCoded
  errExplained := hst.errExplained
  busyClear := fun hb => by simp [State.busy, hidle] at hb
  waitEmpty := fun hw => by simp [hwait] at hw
  progress := State.progressOk_of_idle hidle

/-! ### Completion (R252) -/

theorem Status.coherent_reset : Status.reset.Coherent := ⟨by decide, by decide⟩

theorem complete_inv {res : CmdResult} (hres : res ≠ .error) (h : s.Storage) : (complete res s).Inv :=
  State.Storage.inv_of_idle (s := complete res s) { h with } ⟨by simp [hres], by simp⟩ rfl rfl

theorem complete_ok_inv (h : s.Storage) : (complete .ok s).Inv := complete_inv (by decide) h

theorem completeDrawn_inv (h : s.Storage) : (completeDrawn s).Inv :=
  complete_inv (s := s.drew) (by split <;> decide) { h with }

theorem raise_inv {code : ErrCode} (hcode : code ≠ .none) (h : s.Storage) : (raise code s).Inv :=
  State.Storage.inv_of_idle (s := raise code s) { h with } ⟨by simp [hcode], fun _ => hcode⟩ rfl rfl

/-! ### Storage under the writes of commands -/

theorem State.Storage.setFOrDraw (h : s.Storage) (rd : FReg) (v : Option FWord) : (s.setFOrDraw rd v).Storage := by
  cases v <;> exact { h with }

theorem State.Storage.withFm (h : s.Storage) {fm : Mem 16} (hfm : fm.Good s.params.fmDepth) :
    State.Storage { s with fm := fm } := { h with fm := hfm }

theorem State.Storage.withBm (h : s.Storage) {bm : Mem 32} (hbm : bm.Good s.params.bmWords) :
    State.Storage { s with bm := bm } := { h with bm := hbm }

theorem State.Storage.drawFm (h : s.Storage) {as : List Nat} (ha : ∀ a ∈ as, a < s.params.fmDepth) :
    (s.drawFm as).Storage where
  legal := by rw [State.drawFm_params]; exact h.legal
  fm := by rw [State.drawFm_params]; exact State.drawFm_fm_good h.fm ha
  bm := by rw [State.drawFm_params, State.drawFm_bm]; exact h.bm
  rngFits := by rw [State.drawFm_params, State.drawFm_rng]; exact h.rngFits

theorem State.Storage.drawBm (h : s.Storage) {as : List Nat} (ha : ∀ a ∈ as, a < s.params.bmWords) :
    (s.drawBm as).Storage where
  legal := by rw [State.drawBm_params]; exact h.legal
  fm := by rw [State.drawBm_params, State.drawBm_fm]; exact h.fm
  bm := by rw [State.drawBm_params]; exact State.drawBm_bm_good h.bm ha
  rngFits := by rw [State.drawBm_params, State.drawBm_rng]; exact h.rngFits

/-- A region inside its memory has its addresses there (R86). -/
theorem Region.Fits.lt_size {p : BuildParams} {r : Region} (h : r.Fits p) {a : Nat} (ha : a ∈ r.addrs) :
    a < r.space.size p := by
  obtain ⟨hle, hlt⟩ := (Region.mem_addrs r a).mp ha
  rcases h with h | h <;> omega

theorem State.Storage.putH (h : s.Storage) {rows : List Nat} (hrows : rows.length = s.pR)
    (hH : s.hRegion.Fits s.params) : (s.putH rows).Storage :=
  h.withBm (Mem.putRows_good h.bm (by rw [hrows]; exact hH))

/-- Draws in the H region. -/
theorem State.Storage.drawH (h : s.Storage) (hH : s.hRegion.Fits s.params) : (s.drawBm s.hRegion.addrs).Storage :=
  h.drawBm fun _ ha => hH.lt_size ha

/-! ### Every region a command writes lies inside its memory once its checks have passed (R86, R158, R159) -/

theorem fits_of_rangeError {addr : BitVec 16} (h : rangeError s addr = none) :
    Region.Fits s.params ⟨.fm, addr.toNat, 1⟩ := by
  unfold rangeError at h
  split at h
  · simp at h
  · split at h
    · simp at h
    · next hlt => exact Or.inr (by simp only [Space.size]; omega)

theorem writes_fit_of_blockError {i : Instr} (h : blockError s i = none) :
    ∀ r ∈ (footprint s i).writes, r.Fits s.params := by
  obtain ⟨_, hfits, _⟩ := (blockError_eq_none s i).mp h
  exact fun r hr => hfits r (List.mem_append_right _ hr)

/-- R257 makes the check matrix wider than high. -/
theorem pR_le_pN_of_blockError {i : Instr} (h : blockError s i = none) : s.pR ≤ s.pN := by
  obtain ⟨⟨_, _, _, hlt⟩, _⟩ := (blockError_eq_none s i).mp h
  exact Nat.le_of_lt hlt

/-! ### The commands that write one region -/

theorem fstEffect_inv (h : s.Storage) {rs : FReg} {addr : BitVec 16} (hc : rangeError s addr = none) :
    (fstEffect rs addr s).Inv := by
  have hlt : addr.toNat < s.params.fmDepth := (fits_of_rangeError hc).lt_size (by simp [Region.addrs])
  exact complete_ok_inv (h.withFm (Mem.write_good h.fm hlt _))

theorem hbuildEffect_inv (h : s.Storage) (hc : blockError s .hbuild = none) : (hbuildEffect s).Inv := by
  have hH : s.hRegion.Fits s.params := writes_fit_of_blockError hc _ (by simp [footprint])
  unfold hbuildEffect
  split
  · next rows retry hr => exact complete_inv (by split <;> decide) (h.putH (State.length_hbuild? hr) hH)
  · exact completeDrawn_inv (h.drawH hH)

theorem pkextEffect_inv (h : s.Storage) (hc : blockError s .pkext = none) : (pkextEffect s).Inv := by
  have hP : s.pkRegion.Fits s.params := writes_fit_of_blockError hc _ (by simp [footprint])
  refine complete_ok_inv ?_
  split
  · next rows hr => exact h.withBm (Mem.putRows_good h.bm (by rw [State.length_publicKey? hr]; exact hP))
  · exact h.drawBm fun _ ha => hP.lt_size ha

theorem syndEffect_inv (h : s.Storage) {flags : BitVec 4} (hc : blockError s (.synd flags) = none) :
    (syndEffect flags s).Inv := by
  have hS : Region.Fits s.params ⟨.bm, s.syndOut flags, s.rw⟩ :=
    writes_fit_of_blockError hc _ (by simp only [footprint]; split <;> simp)
  refine complete_ok_inv ?_
  split
  · exact h.withBm (Mem.putVec_good h.bm _ hS)
  · exact h.drawBm fun _ ha => hS.lt_size ha

theorem dsyndEffect_inv (h : s.Storage) {flags : BitVec 4} (hc : blockError s (.dsynd flags) = none) :
    (dsyndEffect flags s).Inv := by
  have hD : (s.synRegion (dsyndSrc flags).set).Fits s.params :=
    writes_fit_of_blockError hc _ (by simp only [footprint]; split <;> simp_all)
  refine complete_ok_inv ?_
  split
  · next syn hsyn =>
    have hlen : (syn.map zext16).length = 2 * s.pT := by simpa using State.length_dsynd? hsyn
    refine h.withFm (Mem.writeN_good h.fm ?_)
    rw [← List.length_eq_zero_iff, hlen]
    exact hD
  · exact h.drawFm fun _ ha => hD.lt_size ha

theorem bmEffect_inv (h : s.Storage) (hc : blockError s .bm = none) : (bmEffect s).Inv := by
  have hL : s.locRegion.Fits s.params := writes_fit_of_blockError hc _ (by simp [footprint])
  refine complete_ok_inv ?_
  split
  · next syn _ =>
    have hlen : ((bmRun s.field s.pT syn).c.reverse.map zext16).length = s.pT + 1 := by
      simpa using (length_bmRun s.field s.pT syn).1
    have hfm := Mem.writeN_good h.fm (a := s.cfg.locBase.toNat) (vs := (bmRun s.field s.pT syn).c.reverse.map zext16)
      (by rw [← List.length_eq_zero_iff, hlen]; exact hL)
    exact { h with fm := hfm }
  · exact { h.drawFm (fun _ ha => hL.lt_size ha) with }

theorem rootsEffect_inv (h : s.Storage) (hc : blockError s .roots = none) : (rootsEffect s).Inv := by
  have hE : s.eRegion.Fits s.params := writes_fit_of_blockError hc _ (by simp [footprint])
  refine complete_ok_inv ?_
  split
  · exact h.withBm (Mem.putVec_good h.bm _ hE)
  · exact h.drawBm fun _ ha => hE.lt_size ha

theorem checkEffect_inv (h : s.Storage) (flags : BitVec 4) : (checkEffect flags s).Inv := by
  refine complete_ok_inv ?_
  split <;> exact { h with }

/-! ### GAUSS (R182 to R184) -/

/-- With pivoting on, GAUSS writes the support and the swap log too (R182). -/
theorem pivot_regions_fit (hc : blockError s .gauss = none) (hp : s.cfg.pivotEn = true) :
    s.suppRegion.Fits s.params ∧ s.permRegion.Fits s.params := by
  have hw := writes_fit_of_blockError hc
  exact ⟨hw _ (by simp [footprint, hp]), hw _ (by simp [footprint, hp])⟩

/-- What is left of H has R rows still, and the swaps are among its columns, no more than PIV_MAX of them. -/
theorem gauss?_keeps (hc : blockError s .gauss = none) {r : GaussEnd} (hr : s.gauss? = some r) :
    r.elimination.rows.length = s.pR ∧ r.elimination.SwapsOk s.pivoting := by
  obtain ⟨rows, hrows, rfl⟩ := Option.map_eq_some_iff.mp hr
  have hpR : 0 + s.pR ≤ s.pivoting.columns := (Nat.zero_add _).trans_le (pR_le_pN_of_blockError hc)
  obtain ⟨hlen, hswaps⟩ := eliminate_keeps s.pivoting s.pR 0 ⟨rows, []⟩ hpR ⟨by simp, by simp, by simp⟩
  exact ⟨hlen.trans (length_of_readRows? hrows), hswaps⟩

/-- Where the swaps of a GAUSS write in FM: in the support and in the swap log, both inside FM. -/
theorem swaps_inside (hc : blockError s .gauss = none) {e : Elimination} (he : e.SwapsOk s.pivoting) :
    (∀ x ∈ e.swaps, s.cfg.suppBase.toNat + x.1 < s.params.fmDepth ∧ s.cfg.suppBase.toNat + x.2 < s.params.fmDepth) ∧
    (e.swaps = [] ∨ s.cfg.permBase.toNat + 2 * (0 + e.swaps.length) ≤ s.params.fmDepth) := by
  obtain ⟨hcols, hmax, hoff⟩ := he
  by_cases hnil : e.swaps = []
  · simp [hnil]
  · have hp : s.cfg.pivotEn = true := Bool.eq_true_of_not_eq_false (mt hoff hnil)
    obtain ⟨hsupp, hperm⟩ := pivot_regions_fit hc hp
    have hpos : 0 < e.swaps.length := List.length_pos_iff.mpr hnil
    simp only [State.pivoting, State.suppRegion, State.permRegion, Region.Fits, Space.size] at hcols hmax hsupp hperm
    refine ⟨fun x hx => ?_, Or.inr (by omega)⟩
    obtain ⟨h1, h2⟩ := hcols x hx
    omega

theorem gaussFmAddrs_inside (hc : blockError s .gauss = none) : ∀ a ∈ s.gaussFmAddrs, a < s.params.fmDepth := by
  intro a ha
  unfold State.gaussFmAddrs at ha
  split at ha
  · next hmay =>
    have hp : s.cfg.pivotEn = true := by simp_all [State.maySwap]
    obtain ⟨hsupp, hperm⟩ := pivot_regions_fit hc hp
    rcases List.mem_append.mp ha with ha | ha
    · exact hsupp.lt_size ha
    · exact hperm.lt_size ha
  · simp at ha

theorem swapAddrs_inside (hc : blockError s .gauss = none) {e : Elimination} (he : e.SwapsOk s.pivoting) :
    ∀ a ∈ swapAddrs s.cfg.suppBase.toNat s.cfg.permBase.toNat e.swaps, a < s.params.fmDepth := by
  obtain ⟨hsupp, hperm⟩ := swaps_inside hc he
  intro a ha
  simp only [swapAddrs, List.mem_append, List.mem_flatMap, List.mem_cons, List.not_mem_nil, or_false,
    List.mem_range'_1] at ha
  rcases ha with ⟨x, hx, rfl | rfl⟩ | ⟨hle, hlt⟩
  · exact (hsupp x hx).1
  · exact (hsupp x hx).2
  · rcases hperm with hnil | hperm
    · simp [hnil] at hlt; omega
    · omega

theorem gaussUndefined_inv (h : s.Storage) (hH : s.hRegion.Fits s.params) {as : List Nat}
    (ha : ∀ a ∈ as, a < s.params.fmDepth) : (gaussUndefined as s).Inv := by
  have hd := (h.drawH hH).drawFm (as := as) (by simpa using ha)
  exact completeDrawn_inv { hd with }

theorem gaussFinish_inv (h : s.Storage) (hH : s.hRegion.Fits s.params) {r : GaussEnd}
    (hr : r.elimination.rows.length = s.pR) : (gaussFinish r s).Inv := by
  cases r with
  | reduced e => exact complete_ok_inv { h.putH hr hH with }
  | singular e =>
    have hcnt : State.Storage { s with permCnt := BitVec.ofNat 16 e.swaps.length } := { h with }
    exact complete_inv (by decide) (hcnt.drawH hH)

theorem gaussEffect_inv (h : s.Storage) (hc : blockError s .gauss = none) : (gaussEffect s).Inv := by
  have hH : s.hRegion.Fits s.params := writes_fit_of_blockError hc _ (by simp only [footprint]; split <;> simp)
  unfold gaussEffect
  split
  · exact gaussUndefined_inv h hH (gaussFmAddrs_inside hc)
  · next r hr =>
    obtain ⟨hlen, hswaps⟩ := gauss?_keeps hc hr
    split
    · next fm hfm =>
      obtain ⟨hsupp, hperm⟩ := swaps_inside hc hswaps
      exact gaussFinish_inv (h.withFm (applySwaps_good h.fm hsupp hperm hfm)) hH hlen
    · exact gaussUndefined_inv h hH (swapAddrs_inside hc hswaps)

/-! ### SAMPLE (R200, R201) -/

/-- The bound of a turn only cuts the FIFO in two. -/
theorem rngAtHand_append_rngBehind (s : State) : s.rngAtHand ++ s.rngBehind = s.rng := by
  unfold State.rngAtHand State.rngBehind
  cases s.quota <;> simp

theorem sampleFinish_inv (h : s.Storage) (hE : s.eRegion.Fits s.params) {res : CmdResult} (hres : res ≠ .error)
    (e d : Nat) {rng : List FWord} (hrng : rng.length ≤ s.rng.length) : (sampleFinish res e d rng s).Inv :=
  complete_inv hres
    { h with bm := Mem.putVec_good h.bm e hE, rngFits := hrng.trans h.rngFits }

/-- SAMPLE goes on waiting only while it is in flight, and what it has accepted so far is sound. -/
theorem sampleHold_inv (h : s.Inv) (hbusy : s.busy = true) {acc : List Nat} {d : Nat} {rng : List FWord}
    (hacc : AcceptedOk s.pN s.pT acc d) (hd : d ≤ s.cfg.sampleMax.toNat) (hrng : rng.length ≤ s.rng.length) :
    (sampleHold acc d rng s).Inv :=
  { h with
    rngFits := hrng.trans h.rngFits
    busyClear := fun _ => h.busyClear hbusy
    waitEmpty := fun hw => ⟨rfl, List.isEmpty_iff.mp hw⟩
    progress := by
      obtain ⟨hnodup, hlt, hT, hle⟩ := hacc
      exact ⟨hnodup, hlt, hT, hle, hd⟩ }

theorem sampleEffect_inv (h : s.Inv) (hbusy : s.busy = true) (hc : blockError s .sample = none) :
    (sampleEffect s).Inv := by
  have hE : s.eRegion.Fits s.params := writes_fit_of_blockError hc _ (by simp [footprint])
  have hrng : s.rngAtHand.length + s.rngBehind.length = s.rng.length := by
    rw [← List.length_append, rngAtHand_append_rngBehind]
  obtain ⟨hnodup, hlt, hT, hle, hmax⟩ := h.progress
  have hend := sampleLoop_ok s.field s.pN s.pT s.cfg.sampleMax.toNat s.rngAtHand s.sampleAccepted s.sampleConsumed
    ⟨hnodup, hlt, hT, hle⟩ hmax
  unfold sampleEffect
  split
  · next acc d rest heq =>
    rw [heq] at hend
    obtain ⟨_, _, _, hrest⟩ := hend
    exact sampleFinish_inv h.storage hE (by decide) _ d (by simp; omega)
  · next d rest heq =>
    rw [heq] at hend
    obtain ⟨_, hrest⟩ := hend
    exact sampleFinish_inv h.storage hE (by decide) 0 d (by simp; omega)
  · next acc d heq =>
    rw [heq] at hend
    obtain ⟨hacc, _, hd⟩ := hend
    exact sampleHold_inv h hbusy hacc (Nat.le_of_lt hd) (by omega)

/-! ### Every command -/

theorem wellFormed_of_firstError {i : Instr} (h : firstError s i = none) : i.wellFormed = true := by
  unfold firstError at h
  split at h
  · simp at h
  · next hwf => simpa using hwf

/-- A command in flight whose checks pass leaves a sound state. -/
theorem effect_inv (h : s.Inv) (hbusy : s.busy = true) {i : Instr} (hc : firstError s i = none) :
    (effect i s).Inv := by
  have hst := h.storage
  have hwf := wellFormed_of_firstError hc
  simp only [firstError, hwf, Bool.not_true, Bool.false_eq_true, if_false] at hc
  cases i with
  | nop => exact complete_ok_inv hst
  | fadd | fmul | fsqr | finv | fpow | ftr | fmov | fli => exact complete_ok_inv { hst with }
  | fld | peval => exact complete_ok_inv (hst.setFOrDraw _ _)
  | fst => exact fstEffect_inv hst hc
  | hbuild => exact hbuildEffect_inv hst hc
  | gauss => exact gaussEffect_inv hst hc
  | pkext => exact pkextEffect_inv hst hc
  | synd => exact syndEffect_inv hst hc
  | sample => exact sampleEffect_inv h hbusy hc
  | dsynd => exact dsyndEffect_inv hst hc
  | bm => exact bmEffect_inv hst hc
  | roots => exact rootsEffect_inv hst hc
  | check => exact checkEffect_inv hst _

theorem exec_keeps_inv (h : s.Inv) (hbusy : s.busy = true) {i : Instr} {t : State} (ht : exec i s = .next t) :
    t.Inv := by
  rcases exec_cases ht with ⟨code, hc, rfl⟩ | ⟨hc, rfl⟩
  · exact raise_inv (fun hn => firstError_ne s i (hn ▸ hc)) h.storage
  · exact effect_inv h hbusy hc

theorem engineTurn_keeps_inv (h : s.Inv) {t : State} (ht : engineTurn s = .next t) : t.Inv := by
  rcases engineTurn_cases ht with ⟨_, rfl⟩ | ⟨_, _, _, _, rfl⟩ | ⟨c, i, hc, _, hx⟩
  · exact h
  · exact raise_inv (by decide) h.storage
  · exact exec_keeps_inv h (by simp [State.busy, hc]) hx

/-! ### The resets (R281 to R283, R269) -/

/-- A region cut to its memory lies in it. -/
theorem Region.clip_fits (p : BuildParams) (r : Region) : (r.clip p).Fits p := by
  simp only [Region.Fits, Region.clip]
  omega

theorem abandonedWrites_fit {r : Region} (hr : r ∈ s.abandonedWrites) : r.Fits s.params := by
  unfold State.abandonedWrites at hr
  split at hr
  · simp at hr
  · split at hr
    · simp at hr
    · obtain ⟨r, _, rfl⟩ := List.mem_map.mp hr
      exact Region.clip_fits s.params r

theorem regionAddrs_inside {p : BuildParams} {rs : List Region} (hfit : ∀ r ∈ rs, r.Fits p) {space : Space} {a : Nat}
    (ha : a ∈ regionAddrs space rs) : a < space.size p := by
  simp only [regionAddrs, List.mem_flatMap, List.mem_filter, beq_iff_eq] at ha
  obtain ⟨r, ⟨hr, rfl⟩, ha⟩ := ha
  exact (hfit r hr).lt_size ha

theorem abandonCommand_storage (h : s.Storage) : (abandonCommand s).Storage := by
  have hin : ∀ {space : Space} {a : Nat}, a ∈ regionAddrs space s.abandonedWrites → a < space.size s.params :=
    regionAddrs_inside fun _ hr => abandonedWrites_fit hr
  have hfm : (s.drawFm (regionAddrs .fm s.abandonedWrites)).Storage := h.drawFm fun _ ha => hin ha
  exact hfm.drawBm fun a ha => by rw [State.drawFm_params]; exact hin ha

theorem abandonCommand_params (s : State) : (abandonCommand s).params = s.params := by
  simp [abandonCommand]

theorem hardwareReset_storage (h : s.Storage) : (hardwareReset s).Storage := by
  have ha := abandonCommand_storage h
  have hp := abandonCommand_params s
  exact { legal := h.legal, fm := hp ▸ ha.fm, bm := hp ▸ ha.bm, rngFits := Nat.zero_le _ }

theorem hardwareReset_inv (h : s.Storage) : (hardwareReset s).Inv :=
  (hardwareReset_storage h).inv_of_idle Status.coherent_reset rfl rfl

theorem softReset_inv (h : s.Storage) : (softReset s).Inv :=
  State.Storage.inv_of_idle (s := softReset s) { hardwareReset_storage h with } Status.coherent_reset rfl rfl

theorem resetWith_inv {p : BuildParams} (hp : p.Legal) : (State.resetWith p).Inv :=
  State.Storage.inv_of_idle
    { legal := hp
      fm := ⟨(State.resetWith_wf p).1, fun _ hk => absurd hk List.not_mem_nil⟩
      bm := ⟨(State.resetWith_wf p).2, fun _ hk => absurd hk List.not_mem_nil⟩
      rngFits := Nat.zero_le _ }
    Status.coherent_reset rfl rfl

theorem powerCycle_inv (h : s.Storage) : (powerCycle s).Inv := { resetWith_inv h.legal with }

/-! ### Updates that leave every field the invariant reads, but for a sticky flag -/

theorem State.Inv.withQuota (h : s.Inv) (quota : Option Nat) : State.Inv { s with quota := quota } := { h with }

theorem State.Inv.withInputs (h : s.Inv) (inputs : List Event) : State.Inv { s with inputs := inputs } := { h with }

theorem State.Inv.withBusResp (h : s.Inv) (resp : Option BusResponse) : State.Inv { s with busResp := resp } := { h with }

theorem State.Inv.drew (h : s.Inv) : s.drew.Inv := { h with }

theorem State.Inv.incFm (h : s.Inv) : (incFm s).Inv := { h with }

theorem State.Inv.incBm (h : s.Inv) : (incBm s).Inv := { h with }

theorem State.Inv.setHostConflict (h : s.Inv) : (setHostConflict s).Inv := { h with }

/-! ### The bus (R23 to R47) -/

theorem readReg_keeps_inv (h : s.Inv) (r : Reg) : (readReg r s).2.Inv := by
  rcases readReg_state r s with heq | heq | ⟨_, heq⟩ | heq | heq | heq | heq <;> rw [heq]
  · exact h
  · exact h.drew
  · exact h.drew.setHostConflict
  · exact h.incFm
  · exact h.drew.incFm
  · exact h.incBm
  · exact h.drew.incBm

/-- Writing 1 to a W1C bit only clears it (R26). -/
theorem writeStatus_inv (h : s.Inv) (v : BWord) : (writeStatus v s).Inv :=
  { h with
    errExplained := fun he => h.errExplained (Bool.and_eq_true_iff.mp he).1
    busyClear := fun hb => by
      obtain ⟨hdone, herr⟩ := h.busyClear hb
      simp [writeStatus, hdone, herr] }

/-- Acceptance starts with no index accepted and no word consumed (R251). -/
theorem accept_inv (h : s.Inv) (v : BWord) : (accept v s).Inv :=
  { h with
    errExplained := fun he => by simp at he
    busyClear := fun _ => ⟨rfl, rfl⟩
    waitEmpty := fun hw => by simp at hw
    progress := by simp [State.ProgressOk, State.sampleAccepted, State.sampleConsumed] }

theorem writeCmd_inv (h : s.Inv) (v : BWord) : (writeCmd v s).Inv := by
  unfold writeCmd
  split
  · exact { h with }
  · exact accept_inv h v

/-- A word arrives only in a FIFO with room, and it ends RNG_WAIT (R42, R201). -/
theorem pushRng_inv (h : s.Inv) (v : BWord) : (pushRng v s).Inv := by
  unfold pushRng
  split
  · next hroom =>
    exact { h with
      rngFits := by simpa using hroom
      waitEmpty := fun hw => by simp at hw }
  · exact { h with }

/-- `CTRL` holds no register the progress of a SAMPLE is measured by (R25, R282). -/
theorem writeCtrl_inv (h : s.Inv) (v : BWord) : (writeCtrl v s).Inv := by
  unfold writeCtrl
  split
  · exact { softReset_inv h.storage with }
  · exact { h with }

/-- A configuration register is written while nothing is in flight (R46). -/
theorem withCfg_inv (h : s.Inv) (hidle : s.busy = false) (cfg : ConfigRegs) : (s.withCfg cfg).Inv := by
  have hnone : s.inflight = none := State.busy_eq_false_iff.mp hidle
  exact State.Storage.inv_of_idle (s := s.withCfg cfg) { h.storage with } h.coherent hnone (h.rngWait_of_idle hnone)

theorem State.Inv.withFm (h : s.Inv) {fm : Mem 16} (hfm : fm.Good s.params.fmDepth) : State.Inv { s with fm := fm } :=
  { h with fmWf := hfm.1, fmInside := (Mem.inside_iff_below _ _).mpr hfm.2 }

theorem State.Inv.withBm (h : s.Inv) {bm : Mem 32} (hbm : bm.Good s.params.bmWords) : State.Inv { s with bm := bm } :=
  { h with bmWf := hbm.1, bmInside := (Mem.inside_iff_below _ _).mpr hbm.2 }

theorem WriteEffect.keeps_inv (h : s.Inv) {v : BWord} {r : Reg} {t : State} (ht : WriteEffect v s r t) : t.Inv := by
  cases ht with
  | dropped => exact h.setHostConflict
  | ignored => exact h
  | ctrl => exact writeCtrl_inv h v
  | status => exact writeStatus_inv h v
  | cmd => exact writeCmd_inv h v
  | rngIn => exact pushRng_inv h v
  | config _ cfg hidle => exact withCfg_inv h hidle cfg
  | fmAddr | bmAddr | field => exact { h with }
  | fmData hlt => exact (h.withFm (Mem.write_good h.storage.fm hlt _)).incFm
  | bmData hlt => exact (h.withBm (Mem.write_good h.storage.bm hlt _)).incBm

theorem busTransfer_keeps_inv (h : s.Inv) (x : Transfer) : (busTransfer x s).Inv := by
  cases x with
  | read addr be =>
    cases hserved : served addr be with
    | true =>
      rw [busTransfer_read hserved rfl]
      exact (readReg_keeps_inv h _).withBusResp _
    | false =>
      rw [busTransfer_read_refused hserved]
      exact h.drew.withBusResp _
  | write addr be v =>
    cases hserved : served addr be with
    | true =>
      rw [busTransfer_write hserved rfl]
      exact ((writeReg_effect _ v s).keeps_inv h).withBusResp _
    | false =>
      rw [busTransfer_write_refused hserved]
      exact h.withBusResp _

/-! ### Every step -/

theorem step_keeps_inv (h : s.Inv) {t : State} (ht : step s = .next t) : t.Inv := by
  rcases step_cases ht with ⟨_, hturn⟩ | ⟨q, rest, _, hturn⟩ | ⟨x, rest, _, rfl⟩ | ⟨rest, _, rfl⟩ | ⟨rest, _, rfl⟩
  · exact engineTurn_keeps_inv (h.withQuota none) hturn
  · exact engineTurn_keeps_inv ((h.withInputs rest).withQuota q) hturn
  · exact busTransfer_keeps_inv (h.withInputs rest) x
  · exact hardwareReset_inv (h.withInputs rest).storage
  · exact powerCycle_inv (h.withInputs rest).storage

end

/-- Settles O59: nothing is in flight after a reset, both memories and the FIFO list nothing, and STATUS is 0. -/
theorem resetStateMeetsTheInvariant : Obligations.ResetStateMeetsTheInvariant :=
  fun _ hp => resetWith_inv hp

/-- Settles O60, by the cases of a step: an engine turn, a transfer, a reset, a loss of power. -/
theorem stepKeepsTheInvariant : Obligations.StepKeepsTheInvariant :=
  fun _ _ h ht => step_keeps_inv h ht

end Sys2Proof.Machine
end

section
/-! PROOFS. What a command does to the registers and the FIFO, said once, and with it that it leaves the configuration,
the enables and the host's side alone (O40), and every register and the FIFO but for its own (O41). -/

namespace Sys2Proof.Machine

/-- Everything a command may write outside the memories and STATUS is the same. -/
abbrev SameRegisters (s t : State) : Prop := SameControl s t ∧ t.f = s.f ∧ SameResults s t ∧ t.rng = s.rng

/-- The `rd` of a command that has one it writes (R149). -/
def destReg? : Instr → Option FReg
  | .fadd rd _ _ | .fmul rd _ _ | .fsqr rd _ | .finv rd _ | .fpow rd _ _ | .ftr rd _ | .fmov rd _ => some rd
  | .fli rd _ | .fld rd _ | .peval rd _ _ => some rd
  | .nop | .fst _ _ | .hbuild | .gauss | .pkext | .synd _ | .sample | .dsynd _ | .bm | .roots | .check _ => none

/-- What a command can do to the registers and the FIFO (R22, R35 to R39, R48). -/
inductive RegisterEffect (s : State) : Instr → State → Prop where
  | keep (i : Instr) : RegisterEffect s i s
  | field {i : Instr} {rd : FReg} (h : destReg? i = some rd) (v : FWord) : RegisterEffect s i (s.setF rd v)
  | gauss (n : BitVec 16) : RegisterEffect s .gauss { s with permCnt := n }
  | sample (n : BWord) {rng : List FWord} (h : rng <:+ s.rng) :
      RegisterEffect s .sample { s with draws := n, rng := rng }
  | bm (l : BitVec 17) : RegisterEffect s .bm { s with bmL := l }
  | check (flags : BitVec 4) (chk mask : BWord) : RegisterEffect s (.check flags) { s with chk := chk, mask := mask }

section
variable {s t : State}

theorem SameRegisters.refl (s : State) : SameRegisters s s :=
  ⟨⟨rfl, rfl, rfl, rfl, rfl, rfl, rfl, rfl⟩, rfl, ⟨rfl, rfl, rfl, rfl, rfl⟩, rfl⟩

theorem SameRegisters.drawFm (h : SameRegisters s t) (as : List Nat) : SameRegisters s (t.drawFm as) := by
  simpa [SameRegisters, SameControl, SameResults] using h

theorem SameRegisters.drawBm (h : SameRegisters s t) (as : List Nat) : SameRegisters s (t.drawBm as) := by
  simpa [SameRegisters, SameControl, SameResults] using h

theorem SameRegisters.drew (h : SameRegisters s t) : SameRegisters s t.drew := h

theorem SameRegisters.complete (h : SameRegisters s t) (res : CmdResult) : SameRegisters s (complete res t) := h

theorem SameRegisters.completeDrawn (h : SameRegisters s t) : SameRegisters s (completeDrawn t) := h

theorem SameRegisters.withPermCnt (h : SameRegisters s t) (n : BitVec 16) :
    SameRegisters { s with permCnt := n } { t with permCnt := n } := by
  obtain ⟨hcontrol, hf, ⟨hchk, hmask, _, hbmL, hdraws⟩, hrng⟩ := h
  exact ⟨hcontrol, hf, ⟨hchk, hmask, rfl, hbmL, hdraws⟩, hrng⟩

theorem SameRegisters.withBmL (h : SameRegisters s t) (l : BitVec 17) :
    SameRegisters { s with bmL := l } { t with bmL := l } := by
  obtain ⟨hcontrol, hf, ⟨hchk, hmask, hpermCnt, _, hdraws⟩, hrng⟩ := h
  exact ⟨hcontrol, hf, ⟨hchk, hmask, hpermCnt, rfl, hdraws⟩, hrng⟩

/-- What SAMPLE's loop leaves is the end of what it was given: it takes words from the head, in order (R200). -/
def SampleEnd.RestOf (fifo : List FWord) : SampleEnd → Prop
  | .accepted _ _ rest | .exhausted _ rest => rest <:+ fifo
  | .starved _ _ => True

theorem sampleLoop_restOf (fd : GField) (n t max : Nat) (fifo : List FWord) (acc : List Nat) (d : Nat) :
    (sampleLoop fd n t max fifo acc d).RestOf fifo := by
  induction fifo generalizing acc d with
  | nil =>
    rw [sampleLoop]
    split
    · exact List.suffix_rfl
    · split
      · exact List.suffix_rfl
      · trivial
  | cons w ws ih =>
    rw [sampleLoop]
    split
    · exact List.suffix_rfl
    · split
      · exact List.suffix_rfl
      · have hws := ih (sampleNext fd n acc w) (d + 1)
        generalize sampleLoop fd n t max ws (sampleNext fd n acc w) (d + 1) = r at hws ⊢
        cases r with
        | accepted | exhausted => exact List.IsSuffix.trans hws (List.suffix_cons w ws)
        | starved => trivial

/-- The FIFO of a SAMPLE's end. -/
theorem suffix_rng {rest : List FWord} (h : rest <:+ s.rngAtHand) : rest ++ s.rngBehind <:+ s.rng := by
  obtain ⟨taken, htaken⟩ := h
  rw [← rngAtHand_append_rngBehind, ← htaken]
  exact ⟨taken, by simp⟩

theorem sampleEffect_registers (s : State) :
    ∃ u, RegisterEffect s .sample u ∧ SameRegisters u (sampleEffect s) := by
  have hrest := sampleLoop_restOf s.field s.pN s.pT s.cfg.sampleMax.toNat s.rngAtHand s.sampleAccepted s.sampleConsumed
  unfold sampleEffect
  split
  · next heq =>
    rw [heq] at hrest
    exact ⟨_, .sample _ (suffix_rng hrest), .refl _⟩
  · next heq =>
    rw [heq] at hrest
    exact ⟨_, .sample _ (suffix_rng hrest), .refl _⟩
  · exact ⟨_, .sample s.draws (suffix_rng (List.nil_suffix)), .refl _⟩

theorem gaussUndefined_registers (as : List Nat) (s : State) :
    ∃ u, RegisterEffect s .gauss u ∧ SameRegisters u (gaussUndefined as s) :=
  have hdrawn := ((SameRegisters.refl s).drawBm s.hRegion.addrs).drawFm as
  ⟨_, .gauss _, (hdrawn.drew.withPermCnt _).completeDrawn⟩

theorem gaussFinish_registers (r : GaussEnd) (s : State) :
    SameRegisters { s with permCnt := BitVec.ofNat 16 r.elimination.swaps.length } (gaussFinish r s) := by
  cases r with
  | reduced => exact .refl _
  | singular => exact ((SameRegisters.refl _).drawBm _).complete .retry

theorem setFOrDraw_registers (rd : FReg) (v : Option FWord) (s : State) :
    ∃ x, SameRegisters (s.setF rd x) (s.setFOrDraw rd v) := by
  cases v with
  | some v => exact ⟨v, .refl _⟩
  | none => exact ⟨_, .refl _⟩

/-- Everything a command's effect does to the registers and the FIFO. -/
theorem effect_registers (i : Instr) (s : State) : ∃ u, RegisterEffect s i u ∧ SameRegisters u (effect i s) := by
  cases i with
  | nop | fst => exact ⟨s, .keep _, .refl _⟩
  | fadd | fmul | fsqr | finv | fpow | ftr | fmov | fli => exact ⟨_, .field rfl _, .refl _⟩
  | fld rd addr =>
    obtain ⟨x, hx⟩ := setFOrDraw_registers rd (s.fm.read? addr.toNat) s
    exact ⟨_, .field rfl x, hx⟩
  | peval rd rs1 sel =>
    obtain ⟨x, hx⟩ := setFOrDraw_registers rd ((s.fmVals? (s.pevalBase sel) (s.pT + 1)).map fun cs =>
      zext16 (polyEval s.field cs (s.fval rs1))) s
    exact ⟨_, .field rfl x, hx⟩
  | hbuild =>
    refine ⟨s, .keep _, ?_⟩
    simp only [effect, hbuildEffect]
    split
    · exact .refl _
    · exact ((SameRegisters.refl s).drawBm _).completeDrawn
  | gauss =>
    simp only [effect, gaussEffect]
    split
    · exact gaussUndefined_registers _ s
    · next r _ =>
      split
      · next fm _ =>
        exact ⟨_, .gauss (BitVec.ofNat 16 r.elimination.swaps.length), gaussFinish_registers r { s with fm := fm }⟩
      · exact gaussUndefined_registers _ s
  | pkext =>
    refine ⟨s, .keep _, ?_⟩
    simp only [effect, pkextEffect]
    split
    · exact .refl _
    · exact ((SameRegisters.refl s).drawBm _).complete .ok
  | synd =>
    refine ⟨s, .keep _, ?_⟩
    simp only [effect, syndEffect]
    split
    · exact .refl _
    · exact ((SameRegisters.refl s).drawBm _).complete .ok
  | sample => exact sampleEffect_registers s
  | dsynd =>
    refine ⟨s, .keep _, ?_⟩
    simp only [effect, dsyndEffect]
    split
    · exact .refl _
    · exact ((SameRegisters.refl s).drawFm _).complete .ok
  | bm =>
    simp only [effect, bmEffect]
    split
    · exact ⟨_, .bm _, .refl _⟩
    · exact ⟨_, .bm _, (((SameRegisters.refl s).drawFm _).drew.withBmL _).complete .ok⟩
  | roots =>
    refine ⟨s, .keep _, ?_⟩
    simp only [effect, rootsEffect]
    split
    · exact .refl _
    · exact ((SameRegisters.refl s).drawBm _).complete .ok
  | check =>
    simp only [effect, checkEffect]
    split <;> exact ⟨_, .check _ _ _, .refl _⟩

/-- Everything executing a command does to them. -/
theorem exec_registers {i : Instr} (ht : exec i s = .next t) : ∃ u, RegisterEffect s i u ∧ SameRegisters u t := by
  rcases exec_cases ht with ⟨code, _, rfl⟩ | ⟨_, rfl⟩
  · exact ⟨s, .keep i, .refl _⟩
  · exact effect_registers i s

theorem exec_sameControl {i : Instr} (ht : exec i s = .next t) : SameControl s t := by
  obtain ⟨u, hu, hsame, _⟩ := exec_registers ht
  cases hu <;> exact hsame

/-- A command with an `rd` it writes is a field command other than FST, and `rd` stands in bits 11:8 (R114, R149). -/
theorem destReg?_encode {i : Instr} {rd : FReg} (h : destReg? i = some rd) :
    IsFieldCommand i ∧ opcodeOf i ≠ 0x0A ∧ rd.val = (encode i).toNat / 256 % 16 := by
  cases i <;> cases h <;> simp [IsFieldCommand, opcodeOf_eq, encode, ← val_rd]

end

/-- Settles O40, by what a command can do to the registers. -/
theorem commandsLeaveControlAlone : Obligations.CommandsLeaveControlAlone :=
  fun _ _ _ ht => exec_sameControl ht

/-- Settles O41, by the same cases. -/
theorem registersHaveOnlyTheirWriters : Obligations.RegistersHaveOnlyTheirWriters := by
  intro i s t ht
  obtain ⟨u, hu, _, hf, ⟨hchk, hmask, hpermCnt, hbmL, hdraws⟩, hrng⟩ := exec_registers ht
  rw [hf, hchk, hmask, hpermCnt, hbmL, hdraws, hrng]
  cases hu with
  | keep => simp
  | @field _ rd hrd v =>
    refine ⟨fun r hr => ?_, by simp⟩
    have hreg : r.val = rd.val := by
      by_contra hne
      exact hr (Vector.getElem_set_ne rd.isLt r.isLt (Ne.symm hne))
    obtain ⟨hfield, hfst, henc⟩ := destReg?_encode hrd
    exact ⟨hfield, hfst, hreg.trans henc⟩
  | gauss n => simp [opcodeOf_eq]
  | sample n h => simpa [opcodeOf_eq] using fun _ => ⟨_, List.suffix_iff_eq_drop.mp h⟩
  | bm l => simp [opcodeOf_eq]
  | check flags chk mask => simp [opcodeOf_eq]

end Sys2Proof.Machine
end

section
/-! PROOFS. Two states that agree on all a command can see: on the registers, the FIFO and the words of its regions.
Every operation a command is made of keeps the agreement, and every object it reads is the same in both, so the command
leaves them in agreement (O44). -/

namespace Sys2Proof.Machine

/-! ### Memories that agree on some words -/

section
variable {w : Nat} {P : Nat → Prop} {m m' : Mem w}

/-- The words at the addresses in `P` read the same. -/
def Mem.AgreeOn (P : Nat → Prop) (m m' : Mem w) : Prop := ∀ a, P a → m'.read? a = m.read? a

/-- A write keeps the agreement, wherever it goes. -/
theorem Mem.AgreeOn.write (h : m.AgreeOn P m') (a : Nat) (v : BitVec w) : (m.write a v).AgreeOn P (m'.write a v) := by
  intro b hb
  rw [Mem.read?_write, Mem.read?_write, h b hb]

theorem Mem.AgreeOn.writeN (h : m.AgreeOn P m') (a : Nat) (vs : List (BitVec w)) :
    (m.writeN a vs).AgreeOn P (m'.writeN a vs) := by
  intro b hb
  rw [Mem.read?_writeN, Mem.read?_writeN, h b hb]

theorem Mem.AgreeOn.readN? (h : m.AgreeOn P m') {a len : Nat} (hin : ∀ k < len, P (a + k)) :
    m'.readN? a len = m.readN? a len :=
  Mem.readN?_congr fun k hk => h _ (hin k hk)

end

section
variable {P : Nat → Prop} {m m' : Mem 32}

theorem Mem.AgreeOn.putRows (h : m.AgreeOn P m') (st n b : Nat) (rows : List Nat) :
    (m.putRows st n b rows).AgreeOn P (m'.putRows st n b rows) := by
  induction rows generalizing m m' b with
  | nil => exact h
  | cons v vs ih => exact ih (h.writeN b _) (b + st)

theorem Mem.AgreeOn.readVec? (h : m.AgreeOn P m') {b n : Nat} (hin : ∀ k < wordsFor n, P (b + k)) :
    m'.readVec? b n = m.readVec? b n :=
  congrArg (Option.map _) (h.readN? hin)

/-- Rows read the same where the words that hold them agree. -/
theorem Mem.AgreeOn.readRows? (h : m.AgreeOn P m') {st n b rows : Nat}
    (hin : ∀ r < rows, ∀ k < wordsFor n, P (b + r * st + k)) : m'.readRows? st n b rows = m.readRows? st n b rows := by
  induction rows generalizing b with
  | zero => rfl
  | succ rows ih =>
    have hhead : m'.readVec? b n = m.readVec? b n := h.readVec? fun k hk => by simpa using hin 0 (by omega) k hk
    have htail : m'.readRows? st n (b + st) rows = m.readRows? st n (b + st) rows := ih fun r hr k hk => by
      simpa [Nat.succ_mul, Nat.add_assoc, Nat.add_comm, Nat.add_left_comm] using hin (r + 1) (by omega) k hk
    rw [Mem.readRows?, Mem.readRows?, hhead, htail]

end

/-! ### States that agree on some regions -/

/-- `s` with all that no command reads taken from `o`: the memories, the pointers, IRQ_EN and the host's side. -/
def State.unseenFrom (s o : State) : State :=
  { s with
    fm := o.fm, bm := o.bm, irqEn := o.irqEn, fmAddr := o.fmAddr, bmAddr := o.bmAddr
    busResp := o.busResp, inputs := o.inputs }

/-- The two states agree on every register a command reads or writes, and on the words of the regions. -/
structure State.Agree (rs : List Region) (s s' : State) : Prop where
  seen : s' = s.unseenFrom s'
  fm   : s.fm.AgreeOn (fun a => ∃ r ∈ rs, r.Has .fm a) s'.fm
  bm   : s.bm.AgreeOn (fun a => ∃ r ∈ rs, r.Has .bm a) s'.bm

section
variable {rs : List Region} {s s' : State}

/-- What is computed from the registers alone is the same. -/
theorem State.Agree.same {α : Type} (h : s.Agree rs s') (g : State → α)
    (hg : g (s.unseenFrom s') = g s := by rfl) : g s' = g s := by
  rw [h.seen, hg]

/-! ### What the operations keep -/

/-- An operation that works on registers only. -/
theorem State.Agree.map (h : s.Agree rs s') (g : State → State)
    (hseen : g (s.unseenFrom s') = (g s).unseenFrom (g s') := by rfl)
    (hfm : (g s).fm = s.fm := by rfl) (hfm' : (g s').fm = s'.fm := by rfl)
    (hbm : (g s).bm = s.bm := by rfl) (hbm' : (g s').bm = s'.bm := by rfl) : (g s).Agree rs (g s') where
  seen := (congrArg g h.seen).trans hseen
  fm := by rw [hfm, hfm']; exact h.fm
  bm := by rw [hbm, hbm']; exact h.bm

theorem State.Agree.complete (h : s.Agree rs s') (res : CmdResult) : (complete res s).Agree rs (complete res s') :=
  h.map (Machine.complete res)

theorem State.Agree.raise (h : s.Agree rs s') (code : ErrCode) : (raise code s).Agree rs (raise code s') :=
  h.map (Machine.raise code)

theorem State.Agree.drew (h : s.Agree rs s') : s.drew.Agree rs s'.drew := h.map State.drew

theorem State.Agree.setF (h : s.Agree rs s') (rd : FReg) (v : FWord) : (s.setF rd v).Agree rs (s'.setF rd v) :=
  h.map fun s => s.setF rd v

theorem State.Agree.nextDraw (h : s.Agree rs s') : s'.nextDraw = s.nextDraw := h.same State.nextDraw

theorem State.Agree.setFOrDraw (h : s.Agree rs s') (rd : FReg) (v : Option FWord) :
    (s.setFOrDraw rd v).Agree rs (s'.setFOrDraw rd v) := by
  cases v with
  | some v => exact h.setF rd v
  | none =>
    rw [State.setFOrDraw, State.setFOrDraw, h.nextDraw]
    exact h.drew.setF rd _

theorem State.Agree.completeDrawn (h : s.Agree rs s') : (completeDrawn s).Agree rs (completeDrawn s') := by
  rw [Machine.completeDrawn, Machine.completeDrawn, h.nextDraw]
  exact h.drew.complete _

theorem State.Agree.withFm (h : s.Agree rs s') {fm fm' : Mem 16}
    (hfm : fm.AgreeOn (fun a => ∃ r ∈ rs, r.Has .fm a) fm') :
    State.Agree rs { s with fm := fm } { s' with fm := fm' } where
  seen := congrArg (fun t : State => { t with fm := fm' }) h.seen
  fm := hfm
  bm := h.bm

theorem State.Agree.withBm (h : s.Agree rs s') {bm bm' : Mem 32}
    (hbm : bm.AgreeOn (fun a => ∃ r ∈ rs, r.Has .bm a) bm') :
    State.Agree rs { s with bm := bm } { s' with bm := bm' } where
  seen := congrArg (fun t : State => { t with bm := bm' }) h.seen
  fm := h.fm
  bm := hbm

theorem State.Agree.drawFm (h : s.Agree rs s') (as : List Nat) : (s.drawFm as).Agree rs (s'.drawFm as) := by
  induction as generalizing s s' with
  | nil => exact h
  | cons a as ih =>
    rw [State.drawFm, State.drawFm, h.nextDraw]
    exact ih (h.drew.withFm (h.fm.write a _))

theorem State.Agree.drawBm (h : s.Agree rs s') (as : List Nat) : (s.drawBm as).Agree rs (s'.drawBm as) := by
  induction as generalizing s s' with
  | nil => exact h
  | cons a as ih =>
    rw [State.drawBm, State.drawBm, h.nextDraw]
    exact ih (h.drew.withBm (h.bm.write a _))

theorem State.Agree.putFm (h : s.Agree rs s') (base : Nat) (vs : List Nat) :
    (s.putFm base vs).Agree rs (s'.putFm base vs) :=
  h.withFm (h.fm.writeN base _)

theorem State.Agree.putH (h : s.Agree rs s') (rows : List Nat) : (s.putH rows).Agree rs (s'.putH rows) :=
  h.withBm (by rw [h.same State.cfg, h.same State.pN]; exact h.bm.putRows _ _ _ _)

/-! ### What is read is the same -/

theorem State.Agree.fmVals? (h : s.Agree rs s') {base len : Nat} (hin : ∀ k < len, ∃ r ∈ rs, r.Has .fm (base + k)) :
    s'.fmVals? base len = s.fmVals? base len :=
  congrArg (Option.map _) (h.fm.readN? hin)

/-- The words of one of the regions. -/
theorem State.Agree.fmRegion? (h : s.Agree rs s') {base len : Nat} (hr : ⟨.fm, base, len⟩ ∈ rs) :
    s'.fmVals? base len = s.fmVals? base len :=
  h.fmVals? fun k hk => ⟨_, hr, rfl, by simp, by simpa using hk⟩

theorem State.Agree.support? (h : s.Agree rs s') (hr : s.suppRegion ∈ rs) : s'.support? = s.support? := by
  rw [State.support?, State.support?, h.same State.cfg, h.same State.pN, h.same State.field, h.fmRegion? hr]

theorem State.Agree.genPoly? (h : s.Agree rs s') (hr : s.polyRegion ∈ rs) : s'.genPoly? = s.genPoly? := by
  rw [State.genPoly?, State.genPoly?, h.same State.cfg, h.same State.pT, h.fmRegion? hr]

theorem State.Agree.locator? (h : s.Agree rs s') (hr : s.locRegion ∈ rs) : s'.locator? = s.locator? := by
  rw [State.locator?, State.locator?, h.same State.cfg, h.same State.pT, h.fmRegion? hr]

theorem State.Agree.synSet? (h : s.Agree rs s') {set : Nat}
    (hin : ∀ k < 2 * s.pT, ∃ r ∈ rs, r.Has .fm (s.cfg.scrBase.toNat + 2 * s.pT * set + k)) :
    s'.synSet? set = s.synSet? set := by
  rw [State.synSet?, State.synSet?, h.same State.cfg, h.same State.pT, h.same State.field, h.fmVals? hin]

theorem State.Agree.readVec? (h : s.Agree rs s') {b n : Nat} (hr : ⟨.bm, b, wordsFor n⟩ ∈ rs) :
    s'.bm.readVec? b n = s.bm.readVec? b n :=
  h.bm.readVec? fun k hk => ⟨_, hr, rfl, by simp, by simpa using hk⟩

/-- The words from `skip` on of the rows of a matrix, where a row with them fits its stride. -/
theorem State.Agree.readRowsFrom? (h : s.Agree rs s') {b st rows n : Nat} (hr : ⟨.bm, b, rows * st⟩ ∈ rs) (skip : Nat)
    (hst : skip + wordsFor n ≤ st) : s'.bm.readRows? st n (b + skip) rows = s.bm.readRows? st n (b + skip) rows := by
  refine h.bm.readRows? fun r hlt k hk => ⟨_, hr, rfl, ?_, ?_⟩
  · simp only; omega
  · have hrow : r * st + st ≤ rows * st := by rw [← Nat.succ_mul]; exact Nat.mul_le_mul_right st hlt
    simp only; omega

theorem State.Agree.readRows? (h : s.Agree rs s') {b st rows n : Nat} (hr : ⟨.bm, b, rows * st⟩ ∈ rs)
    (hst : wordsFor n ≤ st) : s'.bm.readRows? st n b rows = s.bm.readRows? st n b rows :=
  h.readRowsFrom? hr 0 ((Nat.zero_add _).trans_le hst)

/-! ### The field commands that read FM -/

theorem State.Agree.fldEffect (h : s.Agree rs s') {rd : FReg} {addr : BitVec 16} (hr : ⟨.fm, addr.toNat, 1⟩ ∈ rs) :
    (fldEffect rd addr s).Agree rs (fldEffect rd addr s') := by
  have hread : s'.fm.read? addr.toNat = s.fm.read? addr.toNat := h.fm _ ⟨_, hr, rfl, by simp, by simp⟩
  rw [Machine.fldEffect, Machine.fldEffect, hread]
  exact (h.setFOrDraw rd _).complete .ok

theorem State.Agree.pevalEffect (h : s.Agree rs s') {rd rs1 : FReg} {sel : BitVec 4}
    (hr : ⟨.fm, s.pevalBase sel, s.pT + 1⟩ ∈ rs) : (pevalEffect rd rs1 sel s).Agree rs (pevalEffect rd rs1 sel s') := by
  rw [Machine.pevalEffect, Machine.pevalEffect, h.same fun s => s.pevalBase sel, h.same State.pT, h.same State.field,
    h.same fun s => s.fval rs1, h.fmRegion? hr]
  exact (h.setFOrDraw rd _).complete .ok

theorem State.Agree.fstEffect (h : s.Agree rs s') (rd : FReg) (addr : BitVec 16) :
    (fstEffect rd addr s).Agree rs (fstEffect rd addr s') := by
  rw [Machine.fstEffect, Machine.fstEffect, h.same fun s => s.getF rd]
  exact (h.withFm (h.fm.write addr.toNat _)).complete .ok

/-! ### The block commands -/

theorem State.Agree.hbuildEffect (h : s.Agree rs s') (hsupp : s.suppRegion ∈ rs) (hpoly : s.polyRegion ∈ rs) :
    (hbuildEffect s).Agree rs (hbuildEffect s') := by
  have hH : s'.hbuild? = s.hbuild? := by
    rw [State.hbuild?, State.hbuild?, h.support? hsupp, h.genPoly? hpoly, h.same State.field, h.same State.pT]
  rw [Machine.hbuildEffect, Machine.hbuildEffect, hH, h.same State.hRegion]
  split
  · exact (h.putH _).complete _
  · exact (h.drawBm _).completeDrawn

theorem State.Agree.pkextEffect (h : s.Agree rs s') (hH : s.hRegion ∈ rs) (hst : s.nw ≤ s.cfg.hStride.toNat)
    (hRN : s.pR ≤ s.pN) : (pkextEffect s).Agree rs (pkextEffect s') := by
  have hskip : s.pR / 32 + wordsFor (s.pN - 32 * (s.pR / 32)) ≤ s.cfg.hStride.toNat := by
    simp only [State.nw, wordsFor] at hst ⊢
    omega
  have hpk : s'.publicKey? = s.publicKey? := by
    rw [State.publicKey?, State.publicKey?, h.same State.cfg, h.same State.pN, h.same State.pR, h.same State.pK,
      h.readRowsFrom? hH _ hskip]
  rw [Machine.pkextEffect, Machine.pkextEffect, hpk, h.same fun s => s.cfg.pkStride, h.same fun s => s.cfg.pkBase,
    h.same State.pK, h.same State.pkRegion]
  refine State.Agree.complete ?_ .ok
  split
  · exact h.withBm (h.bm.putRows _ _ _ _)
  · exact h.drawBm _

theorem State.Agree.syndEffect (h : s.Agree rs s') {flags : BitVec 4} (hE : s.eRegion ∈ rs)
    (hH : syndMode flags = .full → s.hRegion ∈ rs ∧ s.nw ≤ s.cfg.hStride.toNat)
    (hP : syndMode flags = .systematic → s.pkRegion ∈ rs ∧ s.kw ≤ s.cfg.pkStride.toNat) :
    (syndEffect flags s).Agree rs (syndEffect flags s') := by
  have hy : s'.syndrome? (syndMode flags) = s.syndrome? (syndMode flags) := by
    cases hm : syndMode flags with
    | full =>
      obtain ⟨hr, hst⟩ := hH hm
      rw [State.syndrome?, State.syndrome?, h.same State.cfg, h.same State.pN, h.same State.pR, h.readVec? hE,
        h.readRows? hr hst]
    | systematic =>
      obtain ⟨hr, hst⟩ := hP hm
      rw [State.syndrome?, State.syndrome?, h.same State.cfg, h.same State.pN, h.same State.pR, h.same State.pK,
        h.readVec? hE, h.readRows? hr hst]
  rw [Machine.syndEffect, Machine.syndEffect, hy, h.same fun s => s.syndOut flags, h.same State.pR, h.same State.rw]
  refine State.Agree.complete ?_ .ok
  split
  · exact h.withBm (h.bm.writeN _ _)
  · exact h.drawBm _

theorem State.Agree.dsyndEffect (h : s.Agree rs s') {flags : BitVec 4} (hsupp : s.suppRegion ∈ rs)
    (hpoly : s.polyRegion ∈ rs) (hC : dsyndSrc flags = .ciphertext → s.sRegion ∈ rs)
    (hE : dsyndSrc flags = .errorVector → s.eRegion ∈ rs) :
    (dsyndEffect flags s).Agree rs (dsyndEffect flags s') := by
  have hvec : s'.dsyndVec? (dsyndSrc flags) = s.dsyndVec? (dsyndSrc flags) := by
    cases hsrc : dsyndSrc flags with
    | ciphertext => rw [State.dsyndVec?, State.dsyndVec?, h.same State.cfg, h.same State.pR, h.readVec? (hC hsrc)]
    | errorVector => rw [State.dsyndVec?, State.dsyndVec?, h.same State.cfg, h.same State.pN, h.readVec? (hE hsrc)]
  have hsyn : s'.dsynd? (dsyndSrc flags) = s.dsynd? (dsyndSrc flags) := by
    rw [State.dsynd?, State.dsynd?, h.support? hsupp, h.genPoly? hpoly, hvec, h.same State.field, h.same State.pT]
  rw [Machine.dsyndEffect, Machine.dsyndEffect, hsyn, h.same fun s => s.synRegion (dsyndSrc flags).set]
  refine State.Agree.complete ?_ .ok
  split
  · exact h.putFm _ _
  · exact h.drawFm _

theorem State.Agree.bmEffect (h : s.Agree rs s') (hsyn : s.synRegion 0 ∈ rs) :
    (bmEffect s).Agree rs (bmEffect s') := by
  have hset : s'.synSet? 0 = s.synSet? 0 := h.synSet? fun k hk => ⟨_, hsyn, rfl, by simp [State.synRegion], by
    simpa [State.synRegion] using hk⟩
  rw [Machine.bmEffect, Machine.bmEffect, hset, h.same State.field, h.same State.pT, h.same fun s => s.cfg.locBase,
    h.same State.locRegion]
  refine State.Agree.complete ?_ .ok
  split
  · exact (h.putFm _ _).map fun s => { s with bmL := _ }
  · have hdrawn := h.drawFm s.locRegion.addrs
    simp only [hdrawn.nextDraw]
    exact hdrawn.drew.map fun s => { s with bmL := _ }

theorem State.Agree.rootsEffect (h : s.Agree rs s') (hsupp : s.suppRegion ∈ rs) (hloc : s.locRegion ∈ rs) :
    (rootsEffect s).Agree rs (rootsEffect s') := by
  have hroots : s'.roots? = s.roots? := by
    rw [State.roots?, State.roots?, h.support? hsupp, h.locator? hloc, h.same State.field]
  rw [Machine.rootsEffect, Machine.rootsEffect, hroots, h.same fun s => s.cfg.eBase, h.same State.pN,
    h.same State.eRegion]
  refine State.Agree.complete ?_ .ok
  split
  · exact h.withBm (h.bm.writeN _ _)
  · exact h.drawBm _

theorem State.Agree.checkEffect (h : s.Agree rs s') {flags : BitVec 4} (hE : s.eRegion ∈ rs)
    (hS : checkCmp flags = .reencryption → s.sRegion ∈ rs ∧ s.s2Region ∈ rs)
    (hD : checkCmp flags = .doubledSyndrome → s.scrRegion ∈ rs) :
    (checkEffect flags s).Agree rs (checkEffect flags s') := by
  have heq : s'.syndromesEqual? (checkCmp flags) = s.syndromesEqual? (checkCmp flags) := by
    cases hcmp : checkCmp flags with
    | reencryption =>
      obtain ⟨h1, h2⟩ := hS hcmp
      rw [State.syndromesEqual?, State.syndromesEqual?, h.same State.cfg, h.same State.pR, h.readVec? h1,
        h.readVec? h2]
    | doubledSyndrome =>
      have hset : ∀ set < 2, s'.synSet? set = s.synSet? set := fun set hset =>
        h.synSet? fun k hk => ⟨_, hD hcmp, rfl, by simp [State.scrRegion]; omega, by
          have : 2 * s.pT * set ≤ 2 * s.pT * 1 := Nat.mul_le_mul_left _ (by omega)
          simp only [State.scrRegion]
          omega⟩
      rw [State.syndromesEqual?, State.syndromesEqual?, hset 0 (by omega), hset 1 (by omega)]
  have hcheck : s'.check? (checkCmp flags) = s.check? (checkCmp flags) := by
    rw [State.check?, State.check?, heq, h.same State.cfg, h.same State.pN, h.readVec? hE]
  rw [Machine.checkEffect, Machine.checkEffect, hcheck, h.same State.pT, h.nextDraw, h.drew.nextDraw]
  refine State.Agree.complete ?_ .ok
  split
  · exact h.map fun s => { s with chk := _, mask := _ }
  · exact h.drew.drew.map fun s => { s with chk := _, mask := _ }

theorem State.Agree.sampleEffect (h : s.Agree rs s') : (sampleEffect s).Agree rs (sampleEffect s') := by
  rw [Machine.sampleEffect, Machine.sampleEffect, h.same State.field, h.same State.pN, h.same State.pT,
    h.same fun s => s.cfg.sampleMax, h.same State.rngAtHand, h.same State.sampleAccepted, h.same State.sampleConsumed,
    h.same State.rngBehind]
  have hfinish : ∀ (res : CmdResult) (e d : Nat) (rng : List FWord),
      (sampleFinish res e d rng s).Agree rs (sampleFinish res e d rng s') := by
    intro res e d rng
    rw [sampleFinish, sampleFinish, h.same fun s => s.cfg.eBase, h.same State.pN]
    exact (State.Agree.map (h.withBm (h.bm.writeN _ _)) fun s => { s with draws := _, rng := rng }).complete res
  split
  · exact hfinish .ok _ _ _
  · exact hfinish .retry _ _ _
  · exact h.map fun s => sampleHold _ _ _ s

/-! ### GAUSS (R182 to R184) -/

/-- The swaps end alike on memories that agree where the support entries they move are. -/
theorem Mem.AgreeOn.applySwaps {P : Nat → Prop} {fm fm' : Mem 16} (h : fm.AgreeOn P fm') {supp : Nat}
    {swaps : List (Nat × Nat)} (hin : ∀ x ∈ swaps, P (supp + x.1) ∧ P (supp + x.2)) (perm n : Nat) :
    Option.Rel (Mem.AgreeOn P) (applySwaps supp perm n swaps fm) (applySwaps supp perm n swaps fm') := by
  induction swaps generalizing n fm fm' with
  | nil => exact .some h
  | cons x rest ih =>
    obtain ⟨c, j⟩ := x
    obtain ⟨hc, hj⟩ := hin (c, j) (by simp)
    have hreadc : fm'.read? (supp + c) = fm.read? (supp + c) := h _ hc
    have hreadj : fm'.read? (supp + j) = fm.read? (supp + j) := h _ hj
    rw [Machine.applySwaps, Machine.applySwaps, hreadc, hreadj]
    split
    · exact ih ((((h.write _ _).write _ _).write _ _).write _ _) (fun x hx => hin x (by simp [hx])) _
    · exact .none

theorem State.Agree.gaussFinish (h : s.Agree rs s') (r : GaussEnd) :
    (gaussFinish r s).Agree rs (gaussFinish r s') := by
  have hcnt : State.Agree rs { s with permCnt := BitVec.ofNat 16 r.elimination.swaps.length }
      { s' with permCnt := BitVec.ofNat 16 r.elimination.swaps.length } := h.map fun s => { s with permCnt := _ }
  cases r with
  | reduced e => exact (hcnt.putH _).complete _
  | singular e =>
    simp only [Machine.gaussFinish]
    rw [hcnt.same State.hRegion]
    exact (hcnt.drawBm _).complete _

theorem State.Agree.gaussUndefined (h : s.Agree rs s') (as : List Nat) :
    (gaussUndefined as s).Agree rs (gaussUndefined as s') := by
  have hdrawn := (h.drawBm s.hRegion.addrs).drawFm as
  simp only [Machine.gaussUndefined, h.same State.hRegion, hdrawn.nextDraw]
  exact (hdrawn.drew.map fun s => { s with permCnt := _ }).completeDrawn

theorem State.Agree.gaussEffect (h : s.Agree rs s') (hc : blockError s .gauss = none) (hH : s.hRegion ∈ rs)
    (hst : s.nw ≤ s.cfg.hStride.toNat) (hsupp : s.cfg.pivotEn = true → s.suppRegion ∈ rs) :
    (gaussEffect s).Agree rs (gaussEffect s') := by
  have hg : s'.gauss? = s.gauss? := by
    rw [State.gauss?, State.gauss?, h.same State.cfg, h.same State.pN, h.same State.pR, h.same State.pivoting,
      h.readRows? hH hst]
  rw [Machine.gaussEffect, Machine.gaussEffect, hg, h.same State.gaussFmAddrs, h.same fun s => s.cfg.suppBase,
    h.same fun s => s.cfg.permBase]
  split
  · exact h.gaussUndefined _
  · next r hr =>
    obtain ⟨hcols, _, hoff⟩ := (gauss?_keeps hc hr).2
    have hin : ∀ x ∈ r.elimination.swaps, (∃ y ∈ rs, y.Has .fm (s.cfg.suppBase.toNat + x.1)) ∧
        ∃ y ∈ rs, y.Has .fm (s.cfg.suppBase.toNat + x.2) := by
      intro x hx
      have hp : s.cfg.pivotEn = true := Bool.eq_true_of_not_eq_false fun hp => by simp [hoff hp] at hx
      obtain ⟨h1, h2⟩ := hcols x hx
      exact ⟨⟨_, hsupp hp, rfl, Nat.le_add_right _ _, Nat.add_lt_add_left h1 _⟩,
        ⟨_, hsupp hp, rfl, Nat.le_add_right _ _, Nat.add_lt_add_left h2 _⟩⟩
    have hrel := h.fm.applySwaps hin s.cfg.permBase.toNat 0
    generalize applySwaps _ _ 0 _ s.fm = fm?, applySwaps _ _ 0 _ s'.fm = fm'? at hrel ⊢
    cases hrel with
    | none => exact h.gaussUndefined _
    | some hfm => exact (h.withFm hfm).gaussFinish r

/-! ### Every command -/

/-- A command whose checks pass keeps the agreement on its own regions. -/
theorem State.Agree.effect {i : Instr} (hc : firstError s i = none)
    (h : s.Agree ((footprint s i).reads ++ (footprint s i).writes) s') :
    (effect i s).Agree ((footprint s i).reads ++ (footprint s i).writes) (effect i s') := by
  have hwf := wellFormed_of_firstError hc
  simp only [firstError, hwf, Bool.not_true, Bool.false_eq_true, if_false] at hc
  cases i with
  | nop | fadd | fmul | fsqr | finv | fpow | ftr | fmov | fli => exact h.map (Machine.effect _)
  | fld => exact h.fldEffect (by simp [footprint])
  | fst rd addr => exact h.fstEffect rd addr
  | peval => exact h.pevalEffect (by simp [footprint])
  | hbuild => exact h.hbuildEffect (by simp [footprint]) (by simp [footprint])
  | gauss =>
    obtain ⟨_, _, hst, _⟩ := (blockError_eq_none s .gauss).mp hc
    have hH : s.hRegion ∈ (footprint s .gauss).writes := by cases hp : s.cfg.pivotEn <;> simp [footprint, hp]
    exact h.gaussEffect hc (List.mem_append_right _ hH) (hst s.hStrideRule (by simp [footprint]))
      fun hp => by simp [footprint, hp]
  | pkext =>
    obtain ⟨_, _, hst, _⟩ := (blockError_eq_none s .pkext).mp hc
    exact h.pkextEffect (by simp [footprint]) (hst s.hStrideRule (by simp [footprint])) (pR_le_pN_of_blockError hc)
  | synd flags =>
    obtain ⟨_, _, hst, _⟩ := (blockError_eq_none s (.synd flags)).mp hc
    refine h.syndEffect ?_ (fun hm => ⟨?_, hst s.hStrideRule ?_⟩) fun hm => ⟨?_, hst s.pkStrideRule ?_⟩
    · cases hm : syndMode flags <;> simp [footprint, hm]
    all_goals simp [footprint, hm]
  | sample => exact h.sampleEffect
  | dsynd flags =>
    refine h.dsyndEffect ?_ ?_ (fun hsrc => ?_) fun hsrc => ?_
    · cases hsrc : dsyndSrc flags <;> simp [footprint, hsrc]
    · cases hsrc : dsyndSrc flags <;> simp [footprint, hsrc]
    all_goals simp [footprint, hsrc]
  | bm => exact h.bmEffect (by simp [footprint])
  | roots => exact h.rootsEffect (by simp [footprint]) (by simp [footprint])
  | check flags =>
    refine h.checkEffect ?_ (fun hcmp => ⟨?_, ?_⟩) fun hcmp => ?_
    · cases hcmp : checkCmp flags <;> simp [footprint, hcmp]
    all_goals simp [footprint, hcmp]

/-- The checks look at the configuration only (R149, R257, R258). -/
theorem State.Agree.firstError (h : s.Agree rs s') (i : Instr) : firstError s' i = firstError s i :=
  h.same (fun s => Machine.firstError s i)

theorem State.Agree.exec {i : Instr} (h : s.Agree ((footprint s i).reads ++ (footprint s i).writes) s') {t t' : State}
    (ht : exec i s = .next t) (ht' : exec i s' = .next t') :
    t.Agree ((footprint s i).reads ++ (footprint s i).writes) t' := by
  cases hc : Machine.firstError s i with
  | none =>
    rw [exec_of_ok hc] at ht
    rw [exec_of_ok ((h.firstError i).trans hc)] at ht'
    cases ht
    cases ht'
    exact h.effect hc
  | some code =>
    rw [exec_of_error hc] at ht
    rw [exec_of_error ((h.firstError i).trans hc)] at ht'
    cases ht
    cases ht'
    exact h.raise code

end

/-- Settles O44: the two states agree on the command's regions, and so do the states it leaves; the draws of a command
that makes some would be the same too, since both states count from the same number. -/
theorem commandsReadOnlyTheirRegions : Obligations.CommandsReadOnlyTheirRegions := by
  intro i s s' t t' ht ht' _ hparams hcfg hf hrng hinflight hquota hstatus hdrawNo hresults hmem
  obtain ⟨hchk, hmask, hpermCnt, hbmL, hdraws⟩ := hresults
  have h : s.Agree ((footprint s i).reads ++ (footprint s i).writes) s' := {
    seen := by
      cases s'
      simp_all [State.unseenFrom]
    fm := fun a ⟨r, hr, ha⟩ => (hmem r hr a).1 ha
    bm := fun a ⟨r, hr, ha⟩ => (hmem r hr a).2 ha }
  have h' := h.exec ht ht'
  refine ⟨h'.same State.f, h'.same State.rng, h'.same State.inflight, h'.same State.status, h'.same State.drawNo,
    ⟨h'.same State.chk, h'.same State.mask, h'.same State.permCnt, h'.same State.bmL, h'.same State.draws⟩,
    fun r hr a => ⟨fun ha => ?_, fun ha => ?_⟩⟩
  · exact h'.fm a ⟨r, List.mem_append_right _ hr, ha⟩
  · exact h'.bm a ⟨r, List.mem_append_right _ hr, ha⟩

end Sys2Proof.Machine
end

section
/-! PROOFS. What a step does with the next event (O6), and what a hardware reset leaves (O55). -/

namespace Sys2Proof.Machine

/-! ### Steps (R20, R116, R251) -/

section
variable {s : State}

theorem engineTurn_of_idle (h : s.inflight = none) : engineTurn s = .next s := by
  simp [engineTurn, h]

theorem engineTurn_of_legal {c : InFlight} {i : Instr} (hc : s.inflight = some c) (hi : decode c.word = .ok i) :
    engineTurn s = exec i s := by
  simp [engineTurn, hc, hi]

theorem engineTurn_of_illegal {c : InFlight} {e : DecodeError} (hc : s.inflight = some c)
    (he : decode c.word = .error e) : engineTurn s = .next (raise .illegal s) := by
  simp [engineTurn, hc, he]

theorem step_of_noInput (h : s.inputs = []) : step s = engineTurn { s with quota := none } := by
  simp [step, h, noEvent]

theorem step_of_event {e : Event} {rest : List Event} (h : s.inputs = e :: rest) :
    step s = handleEvent e { s with inputs := rest } := by
  simp [step, h]

theorem step_of_engine {q : Option Nat} {rest : List Event} (h : s.inputs = .engine q :: rest) :
    step s = engineTurn { s with inputs := rest, quota := q } :=
  step_of_event h

theorem tableWord_toNat (w : BWord) : tableWord 32 w.toNat = w := by
  rw [tableWord, Nat.mod_eq_of_lt w.isLt, BitVec.ofNat_toNat, BitVec.setWidth_eq]

end

/-- Settles O6, by what the engine's turn and each event are. -/
theorem stepRunsTheDecodedCommand : Obligations.StepRunsTheDecodedCommand := by
  refine ⟨fun s c i hc hi => ⟨fun h => ?_, fun q rest h => ?_⟩, fun s c e hc he => ⟨fun h => ?_, fun q rest h => ?_⟩,
    fun s hidle => ⟨fun h => ?_, fun q rest h => ?_⟩, fun s x rest h => step_of_event h,
    fun s rest h => step_of_event h, fun s rest h => step_of_event h, fun s w i hi => ?_⟩
  · exact (step_of_noInput h).trans (engineTurn_of_legal hc hi)
  · exact (step_of_engine h).trans (engineTurn_of_legal hc hi)
  · exact (step_of_noInput h).trans (engineTurn_of_illegal hc he)
  · exact (step_of_engine h).trans (engineTurn_of_illegal hc he)
  · exact (step_of_noInput h).trans (engineTurn_of_idle hidle)
  · exact (step_of_engine h).trans (engineTurn_of_idle hidle)
  · rw [State.withFetchWord, tableWord_toNat]
    exact (step_of_engine rfl).trans (engineTurn_of_legal (c := ⟨w, [], 0⟩) rfl hi)

/-! ### The resets (R51, R281, R282) -/

theorem abandonCommand_of_idle {s : State} (h : s.inflight = none) : abandonCommand s = s := by
  simp [abandonCommand, State.abandonedWrites, h, regionAddrs, State.drawFm, State.drawBm]

/-- Settles O55: field by field, and with nothing in flight there is nothing to abandon. -/
theorem hardwareResetRestoresEveryRegister : Obligations.HardwareResetRestoresEveryRegister := by
  refine fun s => ⟨rfl, fun h => ?_, rfl, rfl, rfl, rfl, rfl, rfl, rfl, rfl, rfl, rfl⟩
  have hfm : (abandonCommand s).fm = s.fm := by rw [abandonCommand_of_idle h]
  have hbm : (abandonCommand s).bm = s.bm := by rw [abandonCommand_of_idle h]
  exact ⟨hfm, hbm⟩

end Sys2Proof.Machine
end

section
/-! PROOFS. The register window: what a transfer to an offset is, while the engine is idle and while it is BUSY (O46,
O47, O49 to O52, O56, O58). -/

namespace Sys2Proof.Machine

/-! ### Offsets (R23, R82) -/

/-- A register other than the reserved one has a row in the map (R23). -/
theorem mem_regMap {a : BitVec 12} (h : regAt a ≠ .reserved) : (a.toNat, regAt a) ∈ regMap := by
  unfold regAt at h ⊢
  cases hl : regMap.lookup a.toNat with
  | none => simp [hl] at h
  | some r => exact mem_of_lookup hl

/-- No two offsets have the same register. -/
theorem regAt_inj {a b : BitVec 12} (h : regAt a ≠ .reserved) (hab : regAt b = regAt a) : b = a :=
  (regAt_injective _ (mem_regMap h) b hab).trans (by simp)

theorem served_of_aligned {a : BitVec 12} (h : a.toNat % 4 = 0) : served a 0xF = true := by simp [served, h]

/-- A transfer is refused for its address or its byte enables (R82, R89). -/
theorem served_eq_false {a : BitVec 12} {be : BitVec 4} : served a be = false ↔ a.toNat % 4 ≠ 0 ∨ be ≠ 0xF := by
  simp [served, Decidable.imp_iff_not_or]

/-! ### Transfers to a register by its offset -/

section
variable {a : BitVec 12} {r : Reg}

/-- A full-word write of the register at an offset. -/
theorem write_register (h : served a 0xF = true ∧ regAt a = r) (v : BWord) (s : State) :
    busTransfer (.write a 0xF v) s = { (writeReg r v s).2 with busResp := some (writeReg r v s).1 } :=
  busTransfer_write h.1 h.2 v s

/-- Of a register no guard holds back, BUSY or not (R46). -/
theorem write_unguarded (h : served a 0xF = true ∧ regAt a = r) (hr : r.guarded = false) (v : BWord) (s : State) :
    busTransfer (.write a 0xF v) s = { (writeOpen r v s).2 with busResp := some (writeOpen r v s).1 } := by
  rw [write_register h, writeReg, hr]
  rfl

theorem read_register (h : served a 0xF = true ∧ regAt a = r) (s : State) :
    busTransfer (.read a 0xF) s = { (readReg r s).2 with busResp := some (readReg r s).1 } :=
  busTransfer_read h.1 h.2 s

end

/-- A table of offsets is checked row by row: each is served, and what the row asks of its register holds. -/
theorem offsetTable_row {α : Type} {rows : List α} {offset : α → BitVec 12} {p : α → Reg → Bool}
    (h : rows.all (fun x => served (offset x) 0xF && p x (regAt (offset x))) = true) {x : α} (hx : x ∈ rows) :
    served (offset x) 0xF = true ∧ p x (regAt (offset x)) = true :=
  Bool.and_eq_true_iff.mp (List.all_eq_true.mp h x hx)

/-- Settles O58: the 45 rows of R51's table, each read in the reset state. -/
theorem resetValuesInTheWindow : Obligations.ResetValuesInTheWindow := by
  intro x hx
  obtain ⟨hserved, hread⟩ := offsetTable_row (offset := Prod.fst)
    (p := fun x r => (readReg r State.reset).1 == .readOk x.2) (by decide +kernel) hx
  rw [busTransfer_read hserved rfl, beq_iff_eq.mp hread]

theorem writeReg_of_idle {s : State} (h : s.busy = false) (r : Reg) (v : BWord) : writeReg r v s = writeOpen r v s := by
  simp [writeReg, h]

/-- While BUSY a guarded write is dropped (R46). -/
theorem writeReg_of_busy {s : State} {r : Reg} (hr : r.guarded = true) (h : s.busy = true) (v : BWord) :
    writeReg r v s = (.writeOk, setHostConflict s) := by
  simp [writeReg, hr, h]

/-! ### CTRL, STATUS, CMD, RNG_IN, and the registers the host cannot write or read (R24 to R26, R42, R43, R45) -/

/-- A CTRL write without SOFT_RESET (R25). -/
theorem write_ctrl_of_noReset {v : BWord} (hv : v.getLsbD 2 = false) (s : State) :
    busTransfer (.write 0x004 0xF v) s = { writeEnables s.busy v s with busResp := some .writeOk } := by
  rw [write_unguarded (r := .ctrl) (by decide) rfl, writeOpen, writeCtrl, hv]
  rfl

/-- A CTRL write of SOFT_RESET (R25, R282). -/
theorem write_ctrl_of_reset {v : BWord} (hv : v.getLsbD 2 = true) (s : State) :
    busTransfer (.write 0x004 0xF v) s = { writeEnables s.busy v (softReset s) with busResp := some .writeOk } := by
  rw [write_unguarded (r := .ctrl) (by decide) rfl, writeOpen, writeCtrl, hv]
  rfl

theorem write_status (v : BWord) (s : State) :
    busTransfer (.write 0x008 0xF v) s = { writeStatus v s with busResp := some .writeOk } :=
  write_unguarded (r := .status) (by decide) rfl v s

theorem write_cmd (v : BWord) (s : State) :
    busTransfer (.write 0x00C 0xF v) s = { writeCmd v s with busResp := some .writeOk } :=
  write_unguarded (r := .cmd) (by decide) rfl v s

theorem write_rngIn (v : BWord) (s : State) :
    busTransfer (.write 0x028 0xF v) s = { pushRng v s with busResp := some .writeOk } :=
  write_unguarded (r := .rngIn) (by decide) rfl v s

/-- The word CTRL reads (R25). -/
theorem ctrlWord_eq (s : State) : ctrlWord s = BitVec.ofNat 32 (s.cfg.pivotEn.toNat + 2 * s.irqEn.toNat) := by
  unfold ctrlWord bit
  cases s.irqEn <;> cases s.cfg.pivotEn <;> rfl

/-- Settles O52, by what a CTRL write without SOFT_RESET does and the word CTRL reads. -/
theorem ctrlHoldsTheTwoEnables : Obligations.CtrlHoldsTheTwoEnables := by
  refine fun s v => ⟨fun hv => write_ctrl_of_noReset hv s, ?_⟩
  rw [read_register (r := .ctrl) (by decide), readReg, ctrlWord_eq]

/-- Settles O56: a CTRL write of SOFT_RESET writes its two enables over the soft reset. -/
theorem softResetKeepsTheConfiguration : Obligations.SoftResetKeepsTheConfiguration :=
  fun s _ hv => write_ctrl_of_reset hv s

/-- The word STATUS reads, field by field (R26). -/
theorem toNat_statusWord (s : State) : (statusWord s).toNat =
    s.busy.toNat + 2 * s.status.done.toNat + 4 * s.status.err.toNat + 8 * s.status.rngWait.toNat +
    2 ^ 6 * s.status.result.code.toNat + 2 ^ 8 * s.status.errCode.code.toNat + 2 ^ 16 * s.status.cmdOvr.toNat +
    2 ^ 17 * s.status.hostConflict.toNat + 2 ^ 18 * s.status.rngOvf.toNat := by
  simp only [statusWord, bit, toNat_append_eq, BitVec.toNat_ofBool, BitVec.toNat_ofNat]
  omega

/-- A bit of a word, read off its number. -/
theorem getLsbD_of_toNat {w : Nat} {v : BitVec w} {k : Nat} {b : Bool} (h : v.toNat / 2 ^ k % 2 = b.toNat) :
    v.getLsbD k = b := by
  rw [BitVec.getLsbD, Nat.testBit_eq_decide_div_mod_eq, h]
  cases b <;> rfl

/-- Settles O51: the fields are read off the number STATUS is. -/
theorem statusReadsItsFieldsAndClearsOnOne : Obligations.StatusReadsItsFieldsAndClearsOnOne := by
  refine ⟨fun s => ⟨statusWord s, ?_, ?_⟩, fun s v => write_status v s⟩
  · rw [read_register (r := .status) (by decide), readReg]
  · have hword := toNat_statusWord s
    have hbit : ∀ b : Bool, b.toNat < 2 := Bool.toNat_lt
    have h0 := hbit s.busy
    have h1 := hbit s.status.done
    have h2 := hbit s.status.err
    have h3 := hbit s.status.rngWait
    have h16 := hbit s.status.cmdOvr
    have h17 := hbit s.status.hostConflict
    have h18 := hbit s.status.rngOvf
    have hres : (statusWord s).toNat / 2 ^ 6 % 4 = s.status.result.code.toNat := by omega
    have hcode : (statusWord s).toNat / 2 ^ 8 % 256 = s.status.errCode.code.toNat := by omega
    exact ⟨getLsbD_of_toNat (b := s.busy) (by omega), getLsbD_of_toNat (by omega), getLsbD_of_toNat (by omega),
      getLsbD_of_toNat (by omega), by omega, hres.trans (by cases s.status.result <;> rfl),
      hcode.trans (by cases s.status.errCode <;> rfl), getLsbD_of_toNat (by omega), getLsbD_of_toNat (by omega),
      getLsbD_of_toNat (by omega), by omega⟩

/-- Settles O49, by whether the FIFO has room; its length fits RNG_LEVEL's 17 bits at every legal RNG_DEPTH (R7). -/
theorem rngInAppendsOrOverflows : Obligations.RngInAppendsOrOverflows := by
  refine fun s v => ⟨fun hroom => ?_, fun hfull => ?_, fun hlegal hfits => ?_⟩
  · rw [write_rngIn, pushRng, if_pos hroom]
    simp
  · rw [write_rngIn, pushRng, if_neg (Nat.not_lt.mpr hfull)]
    rfl
  · obtain ⟨_, _, ⟨_, hdepth⟩, _⟩ := hlegal
    exact ⟨(BitVec.ofNat 17 s.rng.length).setWidth 32, by simp; omega, read_register (r := .rngLevel) (by decide) s⟩

/-- The registers the host cannot write (R24, R35 to R39, R43). -/
def Reg.readOnly : Reg → Bool
  | .id | .rngLevel | .chk | .mask | .permCnt | .bmL | .draws => true
  | _ => false

/-- The write-only registers (R24, R42, R250). -/
def Reg.readsZero : Reg → Bool
  | .cmd | .rngIn => true
  | _ => false

theorem writeReg_of_readOnly {r : Reg} (h : r.readOnly = true) (v : BWord) (s : State) :
    writeReg r v s = (.writeOk, s) := by
  cases r with
  | id | rngLevel | chk | mask | permCnt | bmL | draws => rfl
  | _ => simp [Reg.readOnly] at h

theorem readReg_of_readsZero {r : Reg} (h : r.readsZero = true) (s : State) : readReg r s = (.readOk 0, s) := by
  cases r with
  | cmd | rngIn => rfl
  | _ => simp [Reg.readsZero] at h

/-- Settles O50: R45's ranges are the offsets the map leaves out; the rest is by the kind of register. -/
theorem reservedOffsetsReadZeroAndIgnoreWrites : Obligations.ReservedOffsetsReadZeroAndIgnoreWrites := by
  refine fun s v => ⟨fun a h4 ha => ?_, fun a ha => ?_, fun a ha => ?_, ?_⟩
  · have hserved := served_of_aligned h4
    have hreg : regAt a = .reserved := (regAt_reserved a h4).mpr ha
    exact ⟨busTransfer_read hserved hreg s, busTransfer_write hserved hreg v s⟩
  · obtain ⟨hserved, hreg⟩ := offsetTable_row (offset := fun x => x)
      (p := fun _ => Reg.readOnly) (by decide +kernel) ha
    rw [busTransfer_write hserved rfl, writeReg_of_readOnly hreg]
  · obtain ⟨hserved, hreg⟩ := offsetTable_row (offset := fun x => x)
      (p := fun _ => Reg.readsZero) (by decide +kernel) ha
    rw [busTransfer_read hserved rfl, readReg_of_readsZero hreg]
  · rw [read_register (r := .id) (by decide), readReg]

/-! ### While BUSY (R46, R47) -/

/-- The registers the engine writes (R47). -/
def Reg.isResult : Reg → Bool
  | .chk | .mask | .permCnt | .bmL | .draws | .f _ => true
  | _ => false

/-- The registers R47 lets the host read exactly while BUSY, STATUS and the constant zeros aside. -/
def Reg.isExact : Reg → Bool
  | .id | .ctrl | .rngLevel | .fmAddr | .bmAddr => true
  | .paramM | .paramN | .paramT | .fpoly | .pivotCfg | .sampleMax => true
  | .suppBase | .polyBase | .locBase | .scrBase | .permBase => true
  | .hBase | .hStride | .pkBase | .pkStride | .eBase | .sBase | .s2Base => true
  | _ => false

theorem readReg_result_of_busy {s : State} {r : Reg} (hr : r.isResult = true) (h : s.busy = true) :
    readReg r s = (.readOk s.nextDraw, s.drew) := by
  cases r with
  | chk | mask | permCnt | bmL | draws | f => simp [readReg, readResult, h]
  | _ => simp [Reg.isResult] at hr

/-- Such a read does not depend on the command in flight. -/
theorem readReg_exact {r : Reg} (hr : r.isExact = true) (s : State) : ∃ v : BWord, readReg r s = (.readOk v, s) ∧
    readReg r { s with inflight := none } = (.readOk v, { s with inflight := none }) := by
  cases r with
  | status | cmd | rngIn | chk | mask | permCnt | bmL | draws | fmData | bmData | f | reserved =>
    simp [Reg.isExact] at hr
  | _ => exact ⟨_, rfl, rfl⟩

/-- A guarded write while BUSY (R46). -/
theorem write_of_busy {a : BitVec 12} (ha : served a 0xF = true) (hr : (regAt a).guarded = true) {s : State}
    (h : s.busy = true) (v : BWord) :
    busTransfer (.write a 0xF v) s = { setHostConflict s with busResp := some .writeOk } := by
  rw [busTransfer_write ha rfl, writeReg_of_busy hr h]

/-- A read of FM_DATA while BUSY (R46, R82). -/
theorem read_fmData_of_busy {s : State} (h : s.busy = true) : busTransfer (.read 0x094 0xF) s =
    { setHostConflict s.drew with
      busResp := some (if s.fmAddr.toNat < s.params.fmDepth then .readOk s.nextDraw else .readErr s.nextDraw) } := by
  rw [read_register (r := .fmData) (by decide)]
  simp [readReg, readFmData, h, readWindowBusy]

/-- A read of BM_DATA while BUSY (R46, R82). -/
theorem read_bmData_of_busy {s : State} (h : s.busy = true) : busTransfer (.read 0x09C 0xF) s =
    { setHostConflict s.drew with
      busResp := some (if s.bmAddr.toNat < s.params.bmWords then .readOk s.nextDraw else .readErr s.nextDraw) } := by
  rw [read_register (r := .bmData) (by decide)]
  simp [readReg, readBmData, h, readWindowBusy]

/-- Settles O46: the 38 offsets are those of guarded registers; the two window reads; the CTRL write. -/
theorem guardedAccessWhileBusyOnlySetsHostConflict : Obligations.GuardedAccessWhileBusyOnlySetsHostConflict := by
  refine fun s hbusy => ⟨fun x hx v => ?_, ?_, fun v hv => ?_⟩
  · obtain ⟨hserved, hreg⟩ := offsetTable_row (offset := fun x => x)
      (p := fun _ => Reg.guarded) (by decide +kernel) hx
    exact write_of_busy hserved hreg hbusy v
  · simp only [List.forall_mem_cons, List.not_mem_nil, false_imp_iff, implies_true, and_true]
    exact ⟨⟨s.nextDraw, read_fmData_of_busy hbusy⟩, ⟨s.nextDraw, read_bmData_of_busy hbusy⟩⟩
  · rw [write_ctrl_of_noReset hv, hbusy]
    rfl

/-- Settles O47, by the two kinds of registers. -/
theorem readsWhileBusy : Obligations.ReadsWhileBusy := by
  refine fun s hbusy => ⟨fun x hx => ⟨s.nextDraw, ?_⟩, fun x hx => ?_⟩
  · obtain ⟨hserved, hreg⟩ := offsetTable_row (offset := fun x => x)
      (p := fun _ => Reg.isResult) (by decide +kernel) hx
    rw [busTransfer_read hserved rfl, readReg_result_of_busy hreg hbusy]
    rfl
  · obtain ⟨hserved, hreg⟩ := offsetTable_row (offset := fun x => x)
      (p := fun _ => Reg.isExact) (by decide +kernel) hx
    obtain ⟨v, hv, hv'⟩ := readReg_exact hreg s
    exact ⟨v, by rw [busTransfer_read hserved rfl, hv], by rw [busTransfer_read hserved rfl, hv']⟩

end Sys2Proof.Machine
end

section
/-! PROOFS. The memory windows (O48), the registers that read back what was written (O45), and the transfers that are
refused (O54). -/

namespace Sys2Proof.Machine

/-! ### The memory windows (R40, R41, R91) -/

section
variable {s : State}

theorem fmAddr_succ (s : State) : s.fmAddr + 1 = BitVec.ofNat 16 (s.fmAddr.toNat + 1) := by
  simp [BitVec.ofNat_add]

theorem bmAddr_succ (s : State) : s.bmAddr + 1 = BitVec.ofNat 24 (s.bmAddr.toNat + 1) := by
  simp [BitVec.ofNat_add]

theorem write_fmData_inside (h : s.busy = false) (hin : s.fmAddr.toNat < s.params.fmDepth) (v : BWord) :
    busTransfer (.write 0x094 0xF v) s =
      { s with fm := s.fm.write s.fmAddr.toNat (v.setWidth 16), fmAddr := s.fmAddr + 1, busResp := some .writeOk } := by
  rw [write_register (r := .fmData) (by decide), writeReg_of_idle h, writeOpen, writeFmData, if_pos hin]
  rfl

theorem write_bmData_inside (h : s.busy = false) (hin : s.bmAddr.toNat < s.params.bmWords) (v : BWord) :
    busTransfer (.write 0x09C 0xF v) s =
      { s with bm := s.bm.write s.bmAddr.toNat v, bmAddr := s.bmAddr + 1, busResp := some .writeOk } := by
  rw [write_register (r := .bmData) (by decide), writeReg_of_idle h, writeOpen, writeBmData, if_pos hin]
  rfl

theorem write_fmData_outside (h : s.busy = false) (hout : s.params.fmDepth ≤ s.fmAddr.toNat) (v : BWord) :
    busTransfer (.write 0x094 0xF v) s = { s with busResp := some .writeErr } := by
  rw [write_register (r := .fmData) (by decide), writeReg_of_idle h, writeOpen, writeFmData,
    if_neg (Nat.not_lt.mpr hout)]

theorem write_bmData_outside (h : s.busy = false) (hout : s.params.bmWords ≤ s.bmAddr.toNat) (v : BWord) :
    busTransfer (.write 0x09C 0xF v) s = { s with busResp := some .writeErr } := by
  rw [write_register (r := .bmData) (by decide), writeReg_of_idle h, writeOpen, writeBmData,
    if_neg (Nat.not_lt.mpr hout)]

theorem read_fmData_outside (h : s.busy = false) (hout : s.params.fmDepth ≤ s.fmAddr.toNat) :
    busTransfer (.read 0x094 0xF) s = { s.drew with busResp := some (.readErr s.nextDraw) } := by
  rw [read_register (r := .fmData) (by decide), readReg, readFmData, h, if_neg (Nat.not_lt.mpr hout)]
  rfl

theorem read_bmData_outside (h : s.busy = false) (hout : s.params.bmWords ≤ s.bmAddr.toNat) :
    busTransfer (.read 0x09C 0xF) s = { s.drew with busResp := some (.readErr s.nextDraw) } := by
  rw [read_register (r := .bmData) (by decide), readReg, readBmData, h, if_neg (Nat.not_lt.mpr hout)]
  rfl

end

/-- Settles O48, by window, direction, and where the pointer stands. -/
theorem windowsReadAndWriteThroughThePointer : Obligations.WindowsReadAndWriteThroughThePointer := by
  intro s v hidle
  rw [← fmAddr_succ, ← bmAddr_succ]
  refine ⟨fun hin => ⟨_, write_fmData_inside hidle hin v, ?_⟩, fun hin => ⟨_, write_bmData_inside hidle hin v, ?_⟩,
    fun hin x hx => ?_, fun hin x hx => ?_, fun hin hx => ⟨s.nextDraw.setWidth 16, ?_⟩,
    fun hin hx => ⟨s.nextDraw, ?_⟩, fun hout => ?_, fun hout => ?_⟩
  · exact ⟨rfl, by simp, fun a ha => Mem.read?_write_other _ _ ha⟩
  · exact ⟨rfl, by simp, fun a ha => Mem.read?_write_other _ _ ha⟩
  · rw [read_register (r := .fmData) (by decide), readReg, readFmData, hidle, if_pos hin, hx, BitVec.ofNat_toNat]
    rfl
  · rw [read_register (r := .bmData) (by decide), readReg, readBmData, hidle, if_pos hin, hx]
    rfl
  · rw [read_register (r := .fmData) (by decide), readReg, readFmData, hidle, if_pos hin, hx, BitVec.ofNat_toNat]
    rfl
  · rw [read_register (r := .bmData) (by decide), readReg, readBmData, hidle, if_pos hin, hx]
    rfl
  · exact ⟨write_fmData_outside hidle hout v, s.nextDraw, read_fmData_outside hidle hout⟩
  · exact ⟨write_bmData_outside hidle hout v, s.nextDraw, read_bmData_outside hidle hout⟩

/-! ### Registers that read back what was written (O45) -/

/-- The width of a register that is read and written and has no other effect (R22, R27 to R34, R40, R41, R44). -/
def Reg.width? : Reg → Option Nat
  | .paramM => some 5
  | .paramN | .fpoly => some 17
  | .paramT | .hStride | .pkStride | .f _ => some 16
  | .suppBase | .polyBase | .locBase | .scrBase | .permBase | .fmAddr => some 16
  | .hBase | .pkBase | .eBase | .sBase | .s2Base | .bmAddr => some 24
  | .pivotCfg | .sampleMax => some 32
  | _ => none

/-- The low bits of a word, as a register of their width holds them and a read returns them. -/
theorem setWidth_setWidth_eq_ofNat (w : Nat) (v : BWord) :
    (v.setWidth w).setWidth 32 = BitVec.ofNat 32 (v.toNat % 2 ^ w) :=
  BitVec.eq_of_toNat_eq (by simp)

section
variable {r : Reg} {n : Nat} (hr : r.width? = some n) (v : BWord) {s : State}
include hr

/-- Such a write leaves the memories, the FIFO and the command in flight alone. -/
theorem writeOpen_plain_frame (s : State) : (writeOpen r v s).2.fm = s.fm ∧ (writeOpen r v s).2.bm = s.bm ∧
    (writeOpen r v s).2.rng = s.rng ∧ (writeOpen r v s).2.inflight = s.inflight := by
  cases r with
  | id | ctrl | status | cmd | rngIn | rngLevel | chk | mask | permCnt | bmL | draws | fmData | bmData | reserved =>
    cases hr
  | _ => exact ⟨rfl, rfl, rfl, rfl⟩

/-- What the register returns, whatever the last response on the bus was. -/
theorem readReg_writeOpen_same (h : s.busy = false) (resp : Option BusResponse) :
    (readReg r { (writeOpen r v s).2 with busResp := resp }).1 = .readOk (BitVec.ofNat 32 (v.toNat % 2 ^ n)) := by
  cases r with
  | id | ctrl | status | cmd | rngIn | rngLevel | chk | mask | permCnt | bmL | draws | fmData | bmData | reserved =>
    cases hr
  | pivotCfg | sampleMax =>
    cases hr
    have hv := setWidth_setWidth_eq_ofNat 32 v
    simp only [BitVec.setWidth_eq] at hv
    exact congrArg BusResponse.readOk hv
  | f i =>
    cases hr
    cases s
    cases State.busy_eq_false_iff.mp h
    refine congrArg BusResponse.readOk (Eq.trans ?_ (setWidth_setWidth_eq_ofNat 16 v))
    exact congrArg (BitVec.setWidth 32) (Vector.getElem_set_self i.isLt)
  | _ =>
    cases hr
    exact congrArg BusResponse.readOk (setWidth_setWidth_eq_ofNat _ v)

/-- No other register reads otherwise than before, the data windows aside. -/
theorem readReg_writeOpen_other {r' : Reg} (hne : r' ≠ r) (hfm : r' ≠ .fmData) (hbm : r' ≠ .bmData)
    (h : s.busy = false) (resp : Option BusResponse) :
    (readReg r' { (writeOpen r v s).2 with busResp := resp }).1 = (readReg r' s).1 := by
  cases s
  cases State.busy_eq_false_iff.mp h
  cases r with
  | id | ctrl | status | cmd | rngIn | rngLevel | chk | mask | permCnt | bmL | draws | fmData | bmData | reserved =>
    cases hr
  | f i =>
    cases r' with
    | fmData | bmData => contradiction
    | f j =>
      have hij : i.val ≠ j.val := fun hij => hne (congrArg Reg.f (Fin.ext hij.symm))
      exact congrArg (fun x : FWord => BusResponse.readOk (x.setWidth 32)) (Vector.getElem_set_ne i.isLt j.isLt hij)
    | _ => rfl
  | _ =>
    -- the same register twice, or a data window, is excluded; of two different ones the read does not see the write
    cases r' <;> first | contradiction | rfl

end

/-- Settles O45: the 36 offsets are those of the registers with a width, and no other offset names the same register. -/
theorem windowRegistersReadBack : Obligations.WindowRegistersReadBack := by
  intro x hx s v hidle
  obtain ⟨hserved, hwidth⟩ := offsetTable_row (offset := Prod.fst) (p := fun x r => r.width? == some x.2)
    (by decide +kernel) hx
  rw [beq_iff_eq] at hwidth
  have hwrite := busTransfer_write hserved rfl v s
  rw [writeReg_of_idle hidle] at hwrite
  refine ⟨?_, fun y h4 hne hfm hbm => ?_, fun y h4 t _ => ⟨t.nextDraw, ?_⟩, ?_⟩
  · rw [hwrite, busTransfer_read hserved rfl]
    exact congrArg some (readReg_writeOpen_same hwidth v hidle _)
  · have hy := served_of_aligned h4
    rw [hwrite, busTransfer_read hy rfl, busTransfer_read hy rfl]
    have hnamed : regAt x.1 ≠ .reserved := fun hres => by simp [hres, Reg.width?] at hwidth
    have hreg : regAt y ≠ regAt x.1 := fun heq => hne (regAt_inj hnamed heq)
    have hregFm : regAt y ≠ .fmData := fun heq => hfm (regAt_inj (a := 0x094) (by decide) heq)
    have hregBm : regAt y ≠ .bmData := fun heq => hbm (regAt_inj (a := 0x09C) (by decide) heq)
    exact congrArg some (readReg_writeOpen_other hwidth v hreg hregFm hregBm hidle _)
  · rw [busTransfer_read_refused (served_eq_false.mpr (.inl h4))]
  · rw [hwrite]
    exact writeOpen_plain_frame hwidth v s

/-! ### Which transfers are refused (R82) -/

section
variable {s : State} {r : Reg} (hfm : r = .fmData → s.fmAddr.toNat < s.params.fmDepth)
  (hbm : r = .bmData → s.bmAddr.toNat < s.params.bmWords)
include hfm hbm

/-- A write of a register is refused only at a data window with its pointer out of range. -/
theorem writeReg_writeOk (v : BWord) : (writeReg r v s).1 = .writeOk := by
  unfold writeReg
  split
  · rfl
  · cases r with
    | fmData => rw [writeOpen, writeFmData, if_pos (hfm rfl)]
    | bmData => rw [writeOpen, writeBmData, if_pos (hbm rfl)]
    | _ => rfl

/-- A read of a register is refused only there, too. -/
theorem readReg_readOk : ∃ x, (readReg r s).1 = .readOk x := by
  cases r with
  | chk | mask | permCnt | bmL | draws | f =>
    simp only [readReg, readResult]
    split <;> exact ⟨_, rfl⟩
  | fmData =>
    simp only [readReg, readFmData, readWindowBusy, hfm rfl, decide_true, if_true]
    (repeat' split) <;> exact ⟨_, rfl⟩
  | bmData =>
    simp only [readReg, readBmData, readWindowBusy, hbm rfl, decide_true, if_true]
    (repeat' split) <;> exact ⟨_, rfl⟩
  | _ => exact ⟨_, rfl⟩

end

/-- Settles O54: a transfer is not served, or it is one of an out-of-range window, or no register refuses it. -/
theorem misalignedAndNarrowTransfersAreRefused : Obligations.MisalignedAndNarrowTransfersAreRefused := by
  intro s a be v malformed outOfRange
  have hserved : ¬ malformed → served a be = true ∧ be = 0xF := fun h =>
    ⟨Bool.eq_true_of_not_eq_false (mt served_eq_false.mp h), Decidable.not_not.mp fun hbe => h (.inr hbe)⟩
  refine ⟨fun h => ?_, fun hwell hbusy hout => ?_, fun hwell hin => ?_⟩
  · by_cases hmal : malformed
    · exact ⟨busTransfer_write_refused (served_eq_false.mpr hmal) v s, s.nextDraw,
        busTransfer_read_refused (served_eq_false.mpr hmal) s⟩
    · obtain ⟨_, rfl⟩ := hserved hmal
      obtain ⟨hidle, ⟨rfl, hout⟩ | ⟨rfl, hout⟩⟩ := h.resolve_left hmal
      · exact ⟨write_fmData_outside hidle hout v, s.nextDraw, read_fmData_outside hidle hout⟩
      · exact ⟨write_bmData_outside hidle hout v, s.nextDraw, read_bmData_outside hidle hout⟩
  · obtain ⟨hs, rfl⟩ := hserved hwell
    obtain ⟨rfl, hout⟩ | ⟨rfl, hout⟩ := hout
    · refine ⟨write_of_busy hs rfl hbusy v, s.nextDraw, ?_⟩
      rw [read_fmData_of_busy hbusy, if_neg (Nat.not_lt.mpr hout)]
      rfl
    · refine ⟨write_of_busy hs rfl hbusy v, s.nextDraw, ?_⟩
      rw [read_bmData_of_busy hbusy, if_neg (Nat.not_lt.mpr hout)]
      rfl
  · obtain ⟨hs, rfl⟩ := hserved hwell
    have hfm : regAt a = .fmData → s.fmAddr.toNat < s.params.fmDepth := fun hr =>
      Nat.lt_of_not_le fun hle => hin (.inl ⟨regAt_inj (a := 0x094) (by decide) hr, hle⟩)
    have hbm : regAt a = .bmData → s.bmAddr.toNat < s.params.bmWords := fun hr =>
      Nat.lt_of_not_le fun hle => hin (.inr ⟨regAt_inj (a := 0x09C) (by decide) hr, hle⟩)
    obtain ⟨x, hx⟩ := readReg_readOk hfm hbm
    rw [busTransfer_write hs rfl, busTransfer_read hs rfl]
    exact ⟨congrArg some (writeReg_writeOk hfm hbm v), x, congrArg some hx⟩

end Sys2Proof.Machine
end

section
/-! PROOFS. The interrupt line: what each transfer, each engine turn and each reset makes of it (O53). -/

namespace Sys2Proof.Machine

/-! ### The interrupt line (R261, R262) -/

section
variable {s t : State}

theorem WriteEffect.irq {v : BWord} {r : Reg} (h : WriteEffect v s r t) (hctrl : r ≠ .ctrl) (hstatus : r ≠ .status)
    (hcmd : r ≠ .cmd) : t.irq = s.irq := by
  cases h with
  | ctrl | status | cmd => contradiction
  | rngIn =>
    unfold pushRng
    split <;> rfl
  | _ => rfl

theorem readReg_irq (r : Reg) (s : State) : (readReg r s).2.irq = s.irq := by
  rcases readReg_state r s with heq | heq | ⟨_, heq⟩ | heq | heq | heq | heq <;> rw [heq] <;> rfl

/-- A transfer that writes none of CTRL, STATUS and CMD leaves the line. -/
theorem busTransfer_irq (x : Transfer)
    (hx : ∀ v, x ≠ .write 0x008 0xF v ∧ x ≠ .write 0x00C 0xF v ∧ x ≠ .write 0x004 0xF v) (s : State) :
    (busTransfer x s).irq = s.irq := by
  cases x with
  | read a be =>
    cases hserved : served a be with
    | false => rw [busTransfer_read_refused hserved]; rfl
    | true => rw [busTransfer_read hserved rfl]; exact readReg_irq _ s
  | write a be v =>
    cases hserved : served a be with
    | false => rw [busTransfer_write_refused hserved]; rfl
    | true =>
      rw [busTransfer_write hserved rfl]
      have hbe : be = 0xF := by simp [served] at hserved; exact hserved.2
      subst hbe
      obtain ⟨hstatus, hcmd, hctrl⟩ := hx v
      refine (writeReg_effect (regAt a) v s).irq (fun hr => hctrl ?_) (fun hr => hstatus ?_) (fun hr => hcmd ?_)
      · rw [regAt_inj (a := 0x004) (by decide) hr]
      · rw [regAt_inj (a := 0x008) (by decide) hr]
      · rw [regAt_inj (a := 0x00C) (by decide) hr]

/-- A command either completes, which sets DONE, or stays in flight, which leaves DONE (R252, R201). -/
def CompletesOrHolds (s t : State) : Prop :=
  (t.busy = false ∧ t.status.done = true) ∨ (t.busy = true ∧ t.status.done = s.status.done)

theorem effect_completesOrHolds (i : Instr) (s : State) : CompletesOrHolds s (effect i s) := by
  cases i with
  | hbuild =>
    simp only [effect, hbuildEffect]
    split <;> exact .inl ⟨rfl, rfl⟩
  | gauss =>
    have hfinish : ∀ (r : GaussEnd) (u : State), CompletesOrHolds s (gaussFinish r u) := fun r u => by
      cases r <;> exact .inl ⟨rfl, rfl⟩
    simp only [effect, gaussEffect]
    split
    · exact .inl ⟨rfl, rfl⟩
    · split
      · exact hfinish _ _
      · exact .inl ⟨rfl, rfl⟩
  | sample =>
    simp only [effect, sampleEffect]
    split
    · exact .inl ⟨rfl, rfl⟩
    · exact .inl ⟨rfl, rfl⟩
    · exact .inr ⟨rfl, rfl⟩
  | _ => exact .inl ⟨rfl, rfl⟩

theorem exec_completesOrHolds {i : Instr} (ht : exec i s = .next t) : CompletesOrHolds s t := by
  rcases exec_cases ht with ⟨_, _, rfl⟩ | ⟨_, rfl⟩
  · exact .inl ⟨rfl, rfl⟩
  · exact effect_completesOrHolds i s

theorem CompletesOrHolds.irq (h : CompletesOrHolds s t) (hbusy : s.busy = true) (hirqEn : t.irqEn = s.irqEn) :
    t.irq = if s.busy && !t.busy then s.irqEn else s.irq := by
  rcases h with ⟨htbusy, hdone⟩ | ⟨htbusy, hdone⟩
  · simp [State.irq, hbusy, htbusy, hdone, hirqEn]
  · simp [State.irq, hbusy, htbusy, hdone, hirqEn]

theorem engineTurn_irq (ht : engineTurn s = .next t) : t.irq = if s.busy && !t.busy then s.irqEn else s.irq := by
  rcases engineTurn_cases ht with ⟨hidle, rfl⟩ | ⟨c, e, hc, _, rfl⟩ | ⟨c, i, hc, _, hx⟩
  · simp [State.busy_eq_false_iff.mpr hidle]
  · exact CompletesOrHolds.irq (.inl ⟨rfl, rfl⟩) (by simp [State.busy, hc]) rfl
  · obtain ⟨_, _, hirqEn, _⟩ := exec_sameControl hx
    exact (exec_completesOrHolds hx).irq (by simp [State.busy, hc]) hirqEn

end

/-- Settles O53: the three registers a write changes the line by, then every other transfer, the turns and the
resets. -/
theorem irqFollowsDoneAndEnable : Obligations.IrqFollowsDoneAndEnable := by
  refine fun s => ⟨rfl, fun v => ⟨?_, fun hidle => ?_, fun hbusy => ?_, fun hv => ?_, fun hv => ?_⟩,
    fun x hx => busTransfer_irq x hx s, fun t ht => engineTurn_irq ht, rfl, rfl⟩
  · rw [write_status]
    exact (Bool.and_assoc _ _ _).symm
  · rw [write_cmd, writeCmd, hidle]
    exact Bool.and_false _
  · rw [write_cmd, writeCmd, if_pos hbusy]
    rfl
  · rw [write_ctrl_of_noReset hv]
    exact ⟨rfl, rfl⟩
  · rw [write_ctrl_of_reset hv]
    exact Bool.and_false _

end Sys2Proof.Machine
end

section
/-! PROOFS. Which error a command reports, code by code, against the regions and strides its rule names (O38); and the FM
word that FLD reads (O18). -/

namespace Sys2Proof.Machine

/-! ### The checks, as propositions (R149, R257, R258) -/

section
variable {s : State}

theorem fieldError_eq_config : fieldError s = some .config ↔ ¬ FieldConfigured s := by
  rw [← fieldCfgOk_iff]
  cases h : s.fieldCfgOk <;> simp [fieldError, h]

/-- It is ERR_CONFIG or nothing. -/
theorem fieldError_ne {code : ErrCode} (h : code ≠ .config) : fieldError s ≠ some code := by
  unfold fieldError
  split <;> simp [h.symm]

theorem rangeError_eq_config {addr : BitVec 16} : rangeError s addr = some .config ↔ ¬ FieldConfigured s := by
  rw [← fieldCfgOk_iff]
  cases h : s.fieldCfgOk <;> simp [rangeError, h]

theorem rangeError_eq_range {addr : BitVec 16} :
    rangeError s addr = some .range ↔ FieldConfigured s ∧ s.params.fmDepth ≤ addr.toNat := by
  rw [← fieldCfgOk_iff]
  cases h : s.fieldCfgOk <;> simp [rangeError, h]

theorem rangeError_eq_none {addr : BitVec 16} :
    rangeError s addr = none ↔ FieldConfigured s ∧ addr.toNat < s.params.fmDepth := by
  rw [← fieldCfgOk_iff]
  cases h : s.fieldCfgOk <;> simp [rangeError, h]

theorem rangeError_ne_illegal {addr : BitVec 16} : rangeError s addr ≠ some .illegal := by
  unfold rangeError
  (repeat' split) <;> simp

/-- It is ERR_CONFIG or nothing. -/
theorem blockError_ne {code : ErrCode} (h : code ≠ .config) {i : Instr} : blockError s i ≠ some code := by
  unfold blockError
  split <;> simp [h.symm]

end

/-- The region checks of a command (R86, R258). -/
abbrev FootprintAccepted (s : State) (i : Instr) : Prop :=
  RegionsAccepted s.params (footprint s i).reads (footprint s i).writes (footprint s i).strides

/-- When a legal command reports ERR_CONFIG (R255). -/
abbrev ConfigRefused (s : State) (i : Instr) : Prop :=
  opcodeOf i ≠ 0 ∧ (¬ FieldConfigured s ∨ (IsBlockCommand i ∧ ¬ CodeConfigured s) ∨
    ((IsBlockCommand i ∨ opcodeOf i = 0x0B) ∧ ¬ FootprintAccepted s i))

theorem configRefused_of_field {s : State} {i : Instr} (h : 1 ≤ opcodeOf i ∧ opcodeOf i ≤ 0x0A) :
    ConfigRefused s i ↔ ¬ FieldConfigured s := by
  have hop : opcodeOf i ≠ 0 ∧ ¬ IsBlockCommand i ∧ opcodeOf i ≠ 0x0B := by omega
  tauto

theorem configRefused_of_block {s : State} {i : Instr} (h : IsBlockCommand i) :
    ConfigRefused s i ↔ blockError s i = some .config := by
  have hop : opcodeOf i ≠ 0 := by omega
  have hsome : blockError s i = some .config ↔ ¬ blockError s i = none := by
    unfold blockError
    split <;> simp
  rw [hsome, blockError_eq_none]
  constructor
  · rintro ⟨_, hfield | ⟨_, hcode⟩ | ⟨_, hregions⟩⟩ ⟨hc, hr⟩
    · exact hfield hc.1
    · exact hcode hc
    · exact hregions hr
  · intro hno
    refine ⟨hop, .inr ?_⟩
    by_cases hc : CodeConfigured s
    · exact .inr ⟨.inl h, fun hr => hno ⟨hc, hr⟩⟩
    · exact .inl ⟨h, hc⟩

/-- PEVAL has no code check, but checks its region (R160, R258). -/
theorem configRefused_of_peval {s : State} {i : Instr} (h : opcodeOf i = 0x0B) :
    ConfigRefused s i ↔ ¬ (FieldConfigured s ∧ FootprintAccepted s i) := by
  have hop : opcodeOf i ≠ 0 ∧ ¬ IsBlockCommand i := by omega
  tauto

/-! ### The error a command reports (R255) -/

theorem firstError_eq_illegal (s : State) (i : Instr) : firstError s i = some .illegal ↔ i.wellFormed = false := by
  cases hwf : i.wellFormed with
  | false => simp [firstError, hwf]
  | true =>
    simp only [firstError, hwf, Bool.not_true, Bool.false_eq_true, if_false, Bool.true_eq_false, iff_false]
    cases i with
    | nop => simp
    | fadd | fmul | fsqr | finv | fpow | ftr | fmov | fli => exact fieldError_ne (by decide)
    | fld | fst => exact rangeError_ne_illegal
    | peval =>
      simp only
      split <;> simp
    | hbuild | gauss | pkext | synd | sample | dsynd | bm | roots | check => exact blockError_ne (by decide)

theorem firstError_eq_config (s : State) (i : Instr) :
    firstError s i = some .config ↔ i.wellFormed = true ∧ ConfigRefused s i := by
  cases hwf : i.wellFormed with
  | false => simp [firstError, hwf]
  | true =>
    simp only [firstError, hwf, Bool.not_true, Bool.false_eq_true, if_false, true_and]
    cases i with
    | nop => simp [ConfigRefused, opcodeOf_eq]
    | fadd | fmul | fsqr | finv | fpow | ftr | fmov | fli =>
      exact fieldError_eq_config.trans (configRefused_of_field (by simp [opcodeOf_eq])).symm
    | fld | fst => exact rangeError_eq_config.trans (configRefused_of_field (by simp [opcodeOf_eq])).symm
    | peval rd rs1 sel =>
      rw [configRefused_of_peval (opcodeOf_eq _), ← fieldCfgOk_iff, FootprintAccepted, ← Footprint.ok_iff,
        ← Bool.and_eq_true]
      simp only [ite_eq_iff, reduceCtorEq, and_false, and_true, false_or]
    | hbuild | gauss | pkext | synd | sample | dsynd | bm | roots | check =>
      exact (configRefused_of_block (by simp [IsBlockCommand, opcodeOf_eq])).symm

/-- Only FLD and FST have an address to check (R158, R159). -/
theorem firstError_eq_range (s : State) (i : Instr) : firstError s i = some .range ↔
    FieldConfigured s ∧ ∃ (r : FReg) (addr : BitVec 16), (i = .fld r addr ∨ i = .fst r addr) ∧
      s.params.fmDepth ≤ addr.toNat := by
  cases hwf : i.wellFormed with
  | false =>
    simp only [firstError, hwf, Bool.not_false, if_true, Option.some.injEq, reduceCtorEq, false_iff]
    rintro ⟨_, r, addr, rfl | rfl, _⟩
    · exact nomatch hwf
    · exact nomatch hwf
  | true =>
    simp only [firstError, hwf, Bool.not_true, Bool.false_eq_true, if_false]
    cases i with
    | fld | fst => simpa using rangeError_eq_range
    | nop => simp
    | fadd | fmul | fsqr | finv | fpow | ftr | fmov | fli => simpa using fieldError_ne (by decide)
    | peval =>
      simp only
      split <;> simp
    | hbuild | gauss | pkext | synd | sample | dsynd | bm | roots | check => simpa using blockError_ne (by decide)

/-! ### ERRCODE after a completion (R252) -/

/-- A command whose checks pass and that has completed reports no error. -/
theorem effect_errCode {i : Instr} {s : State} (h : (effect i s).inflight = none) :
    (effect i s).status.errCode = .none := by
  cases i with
  | hbuild =>
    simp only [effect, hbuildEffect]
    split <;> rfl
  | gauss =>
    have hfinish : ∀ (r : GaussEnd) (u : State), (gaussFinish r u).status.errCode = .none := fun r u => by
      cases r <;> rfl
    simp only [effect, gaussEffect]
    split
    · rfl
    · split
      · exact hfinish _ _
      · rfl
  | sample =>
    simp only [effect, sampleEffect] at h ⊢
    split at h
    · rfl
    · rfl
    · exact nomatch h
  | _ => rfl

/-- ERRCODE of a completed command is what its checks answered. -/
theorem exec_errCode {i : Instr} {s t : State} (ht : exec i s = .next t) (hdone : t.inflight = none) {code : ErrCode}
    (hcode : code ≠ .none) : t.status.errCode = code ↔ firstError s i = some code := by
  rcases exec_cases ht with ⟨c, hc, rfl⟩ | ⟨hc, rfl⟩
  · simp [hc]
  · simp [hc, effect_errCode hdone, hcode.symm]

/-! ### The regions and strides of every command -/

theorem flag_cases {v : BitVec 4} (h : v.toNat < 2) : v = 0 ∨ v = 1 := by bv_omega

theorem syndFlags_cases {v : BitVec 4} (h : v.toNat < 4) : v = 0 ∨ v = 1 ∨ v = 2 ∨ v = 3 := by bv_omega

theorem footprint_peval (s : State) (rd rs1 : FReg) {sel : BitVec 4} (h : sel.toNat < 2) :
    footprint s (.peval rd rs1 sel) = ⟨[if sel = 0 then s.polyRegion else s.locRegion], [], []⟩ := by
  rcases flag_cases h with rfl | rfl <;> rfl

theorem footprint_gauss (s : State) : footprint s .gauss =
    ⟨[], s.hRegion :: (if s.cfg.pivotEn then [s.suppRegion, s.permRegion] else []), [s.hStrideRule]⟩ := by
  cases hp : s.cfg.pivotEn <;> simp [footprint, hp]

theorem footprint_synd (s : State) {flags : BitVec 4} (h : flags.toNat < 4) : footprint s (.synd flags) =
    if flags = 0 then ⟨[s.eRegion, s.hRegion], [s.sRegion], [s.hStrideRule]⟩
    else if flags = 1 then ⟨[s.eRegion, s.pkRegion], [s.sRegion], [s.pkStrideRule]⟩
    else if flags = 2 then ⟨[s.eRegion, s.hRegion], [s.s2Region], [s.hStrideRule]⟩
    else ⟨[s.eRegion, s.pkRegion], [s.s2Region], [s.pkStrideRule]⟩ := by
  rcases syndFlags_cases h with rfl | rfl | rfl | rfl <;> rfl

theorem footprint_dsynd (s : State) {flags : BitVec 4} (h : flags.toNat < 2) : footprint s (.dsynd flags) =
    if flags = 0 then ⟨[s.suppRegion, s.polyRegion, s.sRegion], [⟨.fm, s.cfg.scrBase.toNat, 2 * s.pT⟩], []⟩
    else ⟨[s.suppRegion, s.polyRegion, s.eRegion], [⟨.fm, s.cfg.scrBase.toNat + 2 * s.pT, 2 * s.pT⟩], []⟩ := by
  rcases flag_cases h with rfl | rfl
  · rfl
  · simp [footprint, dsyndSrc, State.synRegion, DsyndSrc.set]

theorem footprint_check (s : State) {flags : BitVec 4} (h : flags.toNat < 2) : footprint s (.check flags) =
    if flags = 0 then ⟨[s.eRegion, s.sRegion, s.s2Region], [], []⟩ else ⟨[s.eRegion, s.scrRegion], [], []⟩ := by
  rcases flag_cases h with rfl | rfl <;> rfl

/-- Settles O38: what each command's rule names, and from that the checks, code by code. -/
theorem errorCodeFollowsTheChecks : Obligations.ErrorCodeFollowsTheChecks := by
  intro i s support generator locator h pk e c c2 set0 set1 named
  have hnamed : i.wellFormed = true → footprint s i = named := by
    intro hwf
    cases i with
    | peval rd rs1 sel => exact footprint_peval s rd rs1 (of_decide_eq_true hwf)
    | gauss => exact footprint_gauss s
    | synd flags => exact footprint_synd s (of_decide_eq_true hwf)
    | dsynd flags => exact footprint_dsynd s (of_decide_eq_true hwf)
    | check flags => exact footprint_check s (of_decide_eq_true hwf)
    | _ => rfl
  refine ⟨hnamed, fun t ht hdone => ⟨?_, ?_, ?_⟩⟩
  · exact (exec_errCode ht hdone (by decide)).trans (firstError_eq_illegal s i)
  · rw [exec_errCode ht hdone (by decide), firstError_eq_config]
    exact and_congr_right fun hwf => by rw [← hnamed hwf]
  · exact (exec_errCode ht hdone (by decide)).trans (firstError_eq_range s i)

/-! ### FLD (R158, R91) -/

/-- Settles O18: the word read, a draw for it, or no access at all. -/
theorem fldCopiesTheFmWord : Obligations.FldCopiesTheFmWord := by
  intro s rd addr hcfg
  have hexec : addr.toNat < s.params.fmDepth →
      exec (.fld rd addr) s = .next (complete .ok (s.setFOrDraw rd (s.fm.read? addr.toNat))) :=
    fun hin => exec_of_ok (i := .fld rd addr) (rangeError_eq_none.mpr ⟨hcfg, hin⟩)
  refine ⟨fun hin v hv => ?_, fun hin hv => ⟨s.nextDraw.setWidth 16, ?_⟩, fun hout =>
    exec_of_error (i := .fld rd addr) (rangeError_eq_range.mpr ⟨hcfg, hout⟩)⟩
  · rw [hexec hin, hv]; rfl
  · rw [hexec hin, hv]; rfl

end Sys2Proof.Machine
end

section
/-! PROOFS. What a command does to the memories, said once: it writes every word of its regions and no other (O42, O43). -/

namespace Sys2Proof.Machine

/-! ### Memories after a region has been written -/

/-- The words at the addresses in `P` hold a value in `m'`, and every other word reads as in `m`. -/
structure Mem.Fills {w : Nat} (P : Nat → Prop) (m m' : Mem w) : Prop where
  filled : ∀ a, P a → (m'.read? a).isSome = true
  frame  : m.AgreeOn (fun a => ¬ P a) m'

/-- The words of the region hold a value in `t`, and every other word of both memories reads as in `s`. -/
structure State.Fills (r : Region) (s t : State) : Prop where
  fm : s.fm.Fills (r.Has .fm) t.fm
  bm : s.bm.Fills (r.Has .bm) t.bm

theorem Mem.writeN_fills {w : Nat} (m : Mem w) (b : Nat) {len : Nat} {vs : List (BitVec w)} (h : vs.length = len) :
    m.Fills (fun a => b ≤ a ∧ a < b + len) (m.writeN b vs) where
  filled := fun _ ha => Mem.writeN_isSome m b vs (h.symm ▸ ha)
  frame := fun a ha => Mem.read?_writeN_outside m b vs a (by omega)

theorem Mem.write_fills {w : Nat} (m : Mem w) (b : Nat) (v : BitVec w) :
    m.Fills (fun a => b ≤ a ∧ a < b + 1) (m.write b v) :=
  m.writeN_fills b (vs := [v]) rfl

theorem Mem.putVec_fills (m : Mem 32) (b n v : Nat) :
    m.Fills (fun a => b ≤ a ∧ a < b + wordsFor n) (m.putVec b n v) :=
  m.writeN_fills b (length_vecWords _ _)

/-- Rows are written to their strides only (R84). -/
theorem Mem.read?_putRows_outside (st n : Nat) (rows : List Nat) (m : Mem 32) (b : Nat) {a : Nat}
    (h : a < b ∨ b + rows.length * st ≤ a) : (m.putRows st n b rows).read? a = m.read? a := by
  induction rows generalizing m b with
  | nil => rfl
  | cons v vs ih =>
    simp only [List.length_cons, Nat.add_mul, Nat.one_mul] at h
    rw [Mem.putRows, ih _ _ (by omega), Mem.read?_writeN_outside _ _ _ _ (by rw [length_vecWords]; omega)]

theorem Mem.putRows_fills (m : Mem 32) (st n b : Nat) {count : Nat} {rows : List Nat} (h : rows.length = count) :
    m.Fills (fun a => b ≤ a ∧ a < b + count * st) (m.putRows st n b rows) where
  filled := fun _ ha => Mem.putRows_isSome m st n b rows (h.symm ▸ ha)
  frame := fun a ha => Mem.read?_putRows_outside st n rows m b (by subst h; omega)

section
variable {s t : State} {b len : Nat}

theorem State.Fills.ofFm (hfm : s.fm.Fills (fun a => b ≤ a ∧ a < b + len) t.fm) (hbm : t.bm = s.bm := by rfl) :
    s.Fills ⟨.fm, b, len⟩ t where
  fm := ⟨fun a ha => hfm.filled a ha.2, fun a ha => hfm.frame a fun hin => ha ⟨rfl, hin⟩⟩
  bm := ⟨by simp [Region.Has], fun a _ => by rw [hbm]⟩

theorem State.Fills.ofBm (hbm : s.bm.Fills (fun a => b ≤ a ∧ a < b + len) t.bm) (hfm : t.fm = s.fm := by rfl) :
    s.Fills ⟨.bm, b, len⟩ t where
  fm := ⟨by simp [Region.Has], fun a _ => by rw [hfm]⟩
  bm := ⟨fun a ha => hbm.filled a ha.2, fun a ha => hbm.frame a fun hin => ha ⟨rfl, hin⟩⟩

/-- Draws in a region of FM. -/
theorem State.drawFm_fills (s : State) (b len : Nat) :
    s.Fills ⟨.fm, b, len⟩ (s.drawFm (Region.addrs ⟨.fm, b, len⟩)) :=
  .ofFm (hbm := State.drawFm_bm _ s) {
    filled := fun a ha => State.drawFm_read?_isSome _ s a (.inl ((Region.mem_addrs _ a).mpr ha))
    frame := fun a ha => State.drawFm_read?_other _ s a (mt (Region.mem_addrs _ a).mp ha) }

/-- Draws in a region of BM. -/
theorem State.drawBm_fills (s : State) (b len : Nat) :
    s.Fills ⟨.bm, b, len⟩ (s.drawBm (Region.addrs ⟨.bm, b, len⟩)) :=
  .ofBm (hfm := State.drawBm_fm _ s) {
    filled := fun a ha => State.drawBm_read?_isSome _ s a (.inl ((Region.mem_addrs _ a).mpr ha))
    frame := fun a ha => State.drawBm_read?_other _ s a (mt (Region.mem_addrs _ a).mp ha) }

theorem State.Fills.complete {r : Region} (h : s.Fills r t) (res : CmdResult) : s.Fills r (complete res t) :=
  ⟨h.fm, h.bm⟩

theorem State.Fills.completeDrawn {r : Region} (h : s.Fills r t) : s.Fills r (completeDrawn t) :=
  ⟨h.fm, h.bm⟩

theorem State.putH_fills {rows : List Nat} (h : rows.length = s.pR) : s.Fills s.hRegion (s.putH rows) :=
  .ofBm (Mem.putRows_fills _ _ _ _ h)

end

/-! ### The commands that write one region -/

section
variable (s : State)

theorem fstEffect_fills (rs : FReg) (addr : BitVec 16) : s.Fills ⟨.fm, addr.toNat, 1⟩ (fstEffect rs addr s) :=
  .ofFm (Mem.write_fills _ _ _)

theorem hbuildEffect_fills : s.Fills s.hRegion (hbuildEffect s) := by
  unfold hbuildEffect
  split
  · next h => exact (State.putH_fills (State.length_hbuild? h)).complete _
  · exact (s.drawBm_fills _ _).completeDrawn

theorem pkextEffect_fills : s.Fills s.pkRegion (pkextEffect s) := by
  refine State.Fills.complete ?_ .ok
  split
  · next h => exact .ofBm (Mem.putRows_fills _ _ _ _ (State.length_publicKey? h))
  · exact s.drawBm_fills _ _

theorem syndEffect_fills (flags : BitVec 4) : s.Fills ⟨.bm, s.syndOut flags, s.rw⟩ (syndEffect flags s) := by
  refine State.Fills.complete ?_ .ok
  split
  · exact .ofBm (Mem.putVec_fills _ _ _ _)
  · exact s.drawBm_fills _ _

theorem sampleFinish_fills (res : CmdResult) (e d : Nat) (rng : List FWord) :
    s.Fills s.eRegion (sampleFinish res e d rng s) :=
  .ofBm (Mem.putVec_fills _ _ _ _)

theorem dsyndEffect_fills (flags : BitVec 4) :
    s.Fills (s.synRegion (dsyndSrc flags).set) (dsyndEffect flags s) := by
  refine State.Fills.complete ?_ .ok
  split
  · next syn h =>
    have hlen : (syn.map zext16).length = 2 * s.pT := (List.length_map _).trans (State.length_dsynd? h)
    exact .ofFm (Mem.writeN_fills _ _ hlen)
  · exact s.drawFm_fills _ _

theorem bmEffect_fills : s.Fills s.locRegion (bmEffect s) := by
  refine State.Fills.complete ?_ .ok
  split
  · next syn _ =>
    have hlen : ((bmRun s.field s.pT syn).c.reverse.map zext16).length = s.pT + 1 := by
      simpa using (length_bmRun s.field s.pT syn).1
    exact .ofFm (Mem.writeN_fills _ _ hlen)
  · obtain ⟨hfm, hbm⟩ := s.drawFm_fills s.cfg.locBase.toNat (s.pT + 1)
    exact ⟨hfm, hbm⟩

theorem rootsEffect_fills : s.Fills s.eRegion (rootsEffect s) := by
  refine State.Fills.complete ?_ .ok
  split
  · exact .ofBm (Mem.putVec_fills _ _ _ _)
  · exact s.drawBm_fills _ _

end

/-! ### GAUSS (R182 to R184) -/

section
variable {s : State}

/-- The swaps write the support entries they move and the log entries they use (R184). -/
theorem applySwaps_frame {supp perm n : Nat} {swaps : List (Nat × Nat)} {fm fm' : Mem 16}
    (h : applySwaps supp perm n swaps fm = some fm') :
    fm.AgreeOn (fun a => a ∉ swapAddrs supp (perm + 2 * n) swaps) fm' := by
  induction swaps generalizing n fm with
  | nil =>
    simp only [applySwaps, Option.some.injEq] at h
    exact fun a _ => by rw [h]
  | cons x rest ih =>
    obtain ⟨c, j⟩ := x
    rw [applySwaps] at h
    split at h
    · intro a ha
      simp only [swapAddrs, List.flatMap_cons, List.length_cons, List.mem_append, List.mem_cons, List.not_mem_nil,
        List.mem_range'_1, or_false, not_or] at ha
      obtain ⟨⟨⟨hc, hj⟩, hrest⟩, hlog⟩ := ha
      have hsub : a ∉ swapAddrs supp (perm + 2 * (n + 1)) rest := by
        simp only [swapAddrs, List.mem_append, List.mem_range'_1, not_or]
        exact ⟨hrest, by omega⟩
      rw [ih h a hsub, Mem.read?_write_other _ _ (by omega), Mem.read?_write_other _ _ (by omega),
        Mem.read?_write_other _ _ hj, Mem.read?_write_other _ _ hc]
    · simp at h

/-- The regions GAUSS writes: H, and with pivoting on the support and the swap log (R182). -/
theorem mem_gauss_writes {r : Region} : r ∈ (footprint s .gauss).writes ↔
    r = s.hRegion ∨ (s.cfg.pivotEn = true ∧ (r = s.suppRegion ∨ r = s.permRegion)) := by
  cases hp : s.cfg.pivotEn <;> simp [footprint, hp]

theorem gauss_writes_of_pivotEn (hp : s.cfg.pivotEn = true) {a : Nat}
    (ha : s.suppRegion.Has .fm a ∨ s.permRegion.Has .fm a) : ∃ r ∈ (footprint s .gauss).writes, r.Has .fm a := by
  rcases ha with ha | ha
  · exact ⟨_, mem_gauss_writes.mpr (.inr ⟨hp, .inl rfl⟩), ha⟩
  · exact ⟨_, mem_gauss_writes.mpr (.inr ⟨hp, .inr rfl⟩), ha⟩

/-- In BM it writes H only. -/
theorem hRegion_has_of_gauss_writes {r : Region} (hr : r ∈ (footprint s .gauss).writes) {a : Nat} (ha : r.Has .bm a) :
    s.hRegion.Has .bm a := by
  rcases mem_gauss_writes.mp hr with rfl | ⟨_, rfl | rfl⟩
  · exact ha
  · exact nomatch ha.1
  · exact nomatch ha.1

theorem swapAddrs_written {e : Elimination} (he : e.SwapsOk s.pivoting) {a : Nat}
    (ha : a ∈ swapAddrs s.cfg.suppBase.toNat s.cfg.permBase.toNat e.swaps) :
    ∃ r ∈ (footprint s .gauss).writes, r.Has .fm a := by
  obtain ⟨hcols, hmax, hoff⟩ := he
  have hp : s.cfg.pivotEn = true := Bool.eq_true_of_not_eq_false fun hp => by simp [swapAddrs, hoff hp] at ha
  simp only [State.pivoting] at hcols hmax
  simp only [swapAddrs, List.mem_append, List.mem_flatMap, List.mem_cons, List.not_mem_nil, or_false,
    List.mem_range'_1] at ha
  refine gauss_writes_of_pivotEn hp ?_
  simp only [State.suppRegion, State.permRegion, Region.Has, true_and]
  rcases ha with ⟨x, hx, ha⟩ | ha
  · obtain ⟨h1, h2⟩ := hcols x hx
    omega
  · omega

theorem gaussFmAddrs_written {a : Nat} (ha : a ∈ s.gaussFmAddrs) :
    ∃ r ∈ (footprint s .gauss).writes, r.Has .fm a := by
  unfold State.gaussFmAddrs at ha
  split at ha
  · next hmay =>
    have hp : s.cfg.pivotEn = true := by simp_all [State.maySwap]
    rw [List.mem_append, Region.mem_addrs, Region.mem_addrs] at ha
    exact gauss_writes_of_pivotEn hp (ha.imp (⟨rfl, ·⟩) (⟨rfl, ·⟩))
  · simp at ha

theorem gaussFinish_bm_fills (s : State) {r : GaussEnd} (hr : r.elimination.rows.length = s.pR) :
    s.bm.Fills (s.hRegion.Has .bm) (gaussFinish r s).bm := by
  cases r with
  | reduced e => exact (State.putH_fills hr).bm
  | singular e => exact (State.drawBm_fills { s with permCnt := BitVec.ofNat 16 e.swaps.length } _ _).bm

theorem gaussUndefined_bm_fills (as : List Nat) (s : State) :
    s.bm.Fills (s.hRegion.Has .bm) (gaussUndefined as s).bm := by
  rw [gaussUndefined_bm]
  exact (s.drawBm_fills _ _).bm

theorem gaussUndefined_fm_frame {as : List Nat} {a : Nat} (ha : a ∉ as) :
    (gaussUndefined as s).fm.read? a = s.fm.read? a := by
  rw [gaussUndefined_fm, State.drawFm_read?_other _ _ _ ha, State.drawBm_fm]

theorem gaussEffect_bm_fills (hc : blockError s .gauss = none) :
    s.bm.Fills (s.hRegion.Has .bm) (gaussEffect s).bm := by
  unfold gaussEffect
  split
  · exact gaussUndefined_bm_fills _ s
  · next r hr =>
    split
    · next fm _ => exact gaussFinish_bm_fills { s with fm := fm } (gauss?_keeps hc hr).1
    · exact gaussUndefined_bm_fills _ s

theorem gaussEffect_fm_frame (hc : blockError s .gauss = none) :
    s.fm.AgreeOn (fun a => ∀ r ∈ (footprint s .gauss).writes, ¬ r.Has .fm a) (gaussEffect s).fm := by
  intro a hout
  have hnot : ¬ ∃ r ∈ (footprint s .gauss).writes, r.Has .fm a := by simpa using hout
  unfold gaussEffect
  split
  · exact gaussUndefined_fm_frame (mt gaussFmAddrs_written hnot)
  · next r hr =>
    have hswap := mt (swapAddrs_written (gauss?_keeps hc hr).2) hnot
    split
    · next fm hfm =>
      rw [gaussFinish_fm]
      exact applySwaps_frame hfm a hswap
    · exact gaussUndefined_fm_frame hswap

end

/-! ### Every command -/

/-- What a command can do to the memories: nothing, if it writes no region or stays in flight; write its region; or, as
GAUSS does, write H and of the support and the swap log what its swaps use (R86, R87, R184). -/
inductive MemoryEffect (s : State) (i : Instr) (t : State) : Prop where
  | keep (hfm : t.fm = s.fm) (hbm : t.bm = s.bm) (h : (footprint s i).writes = [] ∨ t.inflight ≠ none) :
      MemoryEffect s i t
  | fill {r : Region} (hw : (footprint s i).writes = [r]) (h : s.Fills r t) : MemoryEffect s i t
  | gauss (hi : i = .gauss)
      (hfm : s.fm.AgreeOn (fun a => ∀ r ∈ (footprint s i).writes, ¬ r.Has .fm a) t.fm)
      (hbm : s.bm.Fills (s.hRegion.Has .bm) t.bm) : MemoryEffect s i t

theorem sampleEffect_memory (s : State) : MemoryEffect s .sample (sampleEffect s) := by
  unfold sampleEffect
  split
  · exact .fill rfl (sampleFinish_fills s _ _ _ _)
  · exact .fill rfl (sampleFinish_fills s _ _ _ _)
  · exact .keep rfl rfl (.inr (by simp))

theorem effect_memory {i : Instr} {s : State} (hc : firstError s i = none) : MemoryEffect s i (effect i s) := by
  cases i with
  | nop | fadd | fmul | fsqr | finv | fpow | ftr | fmov | fli => exact .keep rfl rfl (.inl rfl)
  | fld rd addr => exact .keep (setFOrDraw_fm _ _ _) (setFOrDraw_bm _ _ _) (.inl rfl)
  | peval => exact .keep (setFOrDraw_fm _ _ _) (setFOrDraw_bm _ _ _) (.inl rfl)
  | fst rs addr => exact .fill rfl (fstEffect_fills s rs addr)
  | hbuild => exact .fill rfl (hbuildEffect_fills s)
  | gauss => exact .gauss rfl (gaussEffect_fm_frame hc) (gaussEffect_bm_fills hc)
  | pkext => exact .fill rfl (pkextEffect_fills s)
  | synd flags => exact .fill (by simp only [footprint]; split <;> rfl) (syndEffect_fills s flags)
  | sample => exact sampleEffect_memory s
  | dsynd flags => exact .fill (by simp only [footprint]; split <;> rfl) (dsyndEffect_fills s flags)
  | bm => exact .fill rfl (bmEffect_fills s)
  | roots => exact .fill rfl (rootsEffect_fills s)
  | check flags =>
    have hw : (footprint s (.check flags)).writes = [] := by simp only [footprint]; split <;> rfl
    simp only [effect, checkEffect]
    split <;> exact .keep rfl rfl (.inl hw)

/-- Settles O42, by what a command can do to the memories. -/
theorem commandsWriteOnlyTheirRegions : Obligations.CommandsWriteOnlyTheirRegions := by
  intro i s t a ht
  rcases exec_cases ht with ⟨_, _, rfl⟩ | ⟨hc, rfl⟩
  · exact ⟨fun _ => rfl, fun _ => rfl⟩
  · cases effect_memory hc with
    | keep hfm hbm => exact ⟨fun _ => by rw [hfm], fun _ => by rw [hbm]⟩
    | fill hw h =>
      rw [hw]
      exact ⟨fun hout => h.fm.frame a (hout _ (by simp)), fun hout => h.bm.frame a (hout _ (by simp))⟩
    | gauss hi hfm hbm =>
      subst hi
      exact ⟨hfm a, fun hout => hbm.frame a (hout _ (mem_gauss_writes.mpr (.inl rfl)))⟩

/-- Settles O43, by the same cases. -/
theorem completedCommandsWriteTheirWholeRegions : Obligations.CompletedCommandsWriteTheirWholeRegions := by
  intro i s t a ht hdone hresult
  rcases exec_cases ht with ⟨_, _, rfl⟩ | ⟨hc, rfl⟩
  · exact absurd rfl hresult
  · cases effect_memory hc with
    | keep _ _ h =>
      have hw : (footprint s i).writes = [] := h.resolve_right (absurd hdone)
      simp [hw]
    | fill hw h =>
      simp only [hw, List.mem_singleton, exists_eq_left]
      exact ⟨fun _ => h.fm.filled a, h.bm.filled a⟩
    | gauss hi _ hbm =>
      subst hi
      exact ⟨fun hne => absurd rfl hne, fun ⟨r, hr, ha⟩ => hbm.filled a (hRegion_has_of_gauss_writes hr ha)⟩

end Sys2Proof.Machine
end

section
/-! PROOFS. The encoding (30_encoding.md): a word matches a row exactly if it has the row's opcode and no must-be-zero
bit set, and the rows and the encoder agree in every format (O1 to O4); words written out (O5). -/

namespace Sys2Proof

open Decode Encode Machine

/-! ### Masks as arithmetic -/

/-- The mask of `n` ones from position `s` on. -/
def fieldMask (s n : Nat) : BWord := (BitVec.allOnes n).setWidth 32 <<< s

theorem and_fieldMask (s n : Nat) (w : BWord) : w &&& fieldMask s n = (w.extractLsb' s n).setWidth 32 <<< s := by
  ext i hi
  by_cases hs : i < s
  · simp [fieldMask, hs]
  · simp [fieldMask, hs, BitVec.getLsbD_eq_getElem hi, Nat.add_sub_cancel' (not_lt.mp hs), Bool.and_comm]

theorem toNat_and_fieldMask {s n : Nat} (h : s + n ≤ 32) (w : BWord) :
    (w &&& fieldMask s n).toNat = w.toNat / 2 ^ s % 2 ^ n * 2 ^ s := by
  have hlt : w.toNat / 2 ^ s % 2 ^ n * 2 ^ s < 2 ^ 32 :=
    calc w.toNat / 2 ^ s % 2 ^ n * 2 ^ s < 2 ^ n * 2 ^ s :=
          Nat.mul_lt_mul_of_pos_right (Nat.mod_lt _ (Nat.two_pow_pos n)) (Nat.two_pow_pos s)
      _ = 2 ^ (n + s) := (pow_add 2 n s).symm
      _ ≤ 2 ^ 32 := Nat.pow_le_pow_right (by decide) (by omega)
  rw [and_fieldMask, BitVec.toNat_shiftLeft, BitVec.toNat_setWidth, BitVec.extractLsb'_toNat,
    Nat.shiftRight_eq_div_pow, Nat.shiftLeft_eq, Nat.mod_mul_mod, Nat.mod_eq_of_lt hlt]

theorem and_fieldMask_eq_zero_iff {s n : Nat} (h : s + n ≤ 32) (w : BWord) :
    w &&& fieldMask s n = 0 ↔ w.toNat / 2 ^ s % 2 ^ n = 0 := by
  rw [← BitVec.toNat_inj, toNat_and_fieldMask h, BitVec.ofNat_eq_ofNat, BitVec.toNat_zero, Nat.mul_eq_zero]
  exact or_iff_left (Nat.two_pow_pos s).ne'

/-- The bits from position `k` on are 0 exactly if the word is below `2^k`. -/
theorem and_highMask_eq_zero_iff {k : Nat} (h : k ≤ 32) (w : BWord) :
    w &&& fieldMask k (32 - k) = 0 ↔ w.toNat < 2 ^ k := by
  have hlt : w.toNat / 2 ^ k < 2 ^ (32 - k) :=
    Nat.div_lt_of_lt_mul (by rw [← pow_add, Nat.add_sub_cancel' h]; exact w.isLt)
  rw [and_fieldMask_eq_zero_iff (by omega), Nat.mod_eq_of_lt hlt, Nat.div_eq_zero_iff]
  exact or_iff_right (Nat.two_pow_pos k).ne'

theorem eq_iff_opcode_and_rest {x y : BWord} :
    x = y ↔ opcode x = opcode y ∧ x &&& 0xFFFFFF00 = y &&& 0xFFFFFF00 := by
  rw [show (0xFFFFFF00 : BWord) = fieldMask 8 24 from rfl]
  simp only [← BitVec.toNat_inj, toNat_opcode, toNat_and_fieldMask (by decide : 8 + 24 ≤ 32)]
  omega

/-! ### The rows (R110, R115) -/

/-- The must-be-zero bits of a row: the bits of its mask beyond the opcode (R115, R116). -/
def OpcodeRow.zeros (r : OpcodeRow) : BWord := r.mask &&& 0xFFFFFF00

/-- A word matches a row exactly if it has the row's opcode and none of the row's must-be-zero bits. -/
theorem matches_iff {r : OpcodeRow} (hr : r ∈ opcodeRows) (w : BWord) :
    w &&& r.mask = r.value ↔ opcode w = opcode r.value ∧ w &&& r.zeros = 0 := by
  obtain ⟨hmask, hvalue⟩ : opcode r.mask = BitVec.allOnes 8 ∧ r.value &&& 0xFFFFFF00 = 0 :=
    (by decide : ∀ r ∈ opcodeRows, opcode r.mask = BitVec.allOnes 8 ∧ r.value &&& 0xFFFFFF00 = 0) r hr
  have hop : opcode (w &&& r.mask) = opcode w := by
    rw [opcode, BitVec.extractLsb'_and, ← opcode, ← opcode, hmask, BitVec.and_allOnes]
  rw [eq_iff_opcode_and_rest, hop, hvalue, BitVec.and_assoc, OpcodeRow.zeros]

/-- No two rows have one opcode. -/
theorem row_eq_of_opcode_eq {r r' : OpcodeRow} (hr : r ∈ opcodeRows) (hr' : r' ∈ opcodeRows)
    (h : opcode r.value = opcode r'.value) : r = r' :=
  List.inj_on_of_nodup_map (f := fun r : OpcodeRow => opcode r.value) (by decide) hr hr' h

theorem opcodeRow?_eq_some_iff {op : BitVec 8} {r : OpcodeRow} :
    opcodeRow? op = some r ↔ r ∈ opcodeRows ∧ opcode r.value = op := by
  have hfound {r' : OpcodeRow} (h : opcodeRow? op = some r') : r' ∈ opcodeRows ∧ opcode r'.value = op :=
    ⟨List.mem_of_find?_eq_some h, by simpa using List.find?_some h⟩
  refine ⟨hfound, fun ⟨hr, hop⟩ => ?_⟩
  have hsome : (opcodeRow? op).isSome := List.find?_isSome.mpr ⟨r, hr, by simpa using hop⟩
  obtain ⟨r', hr'⟩ := Option.isSome_iff_exists.mp hsome
  obtain ⟨hmem, hop'⟩ := hfound hr'
  rwa [row_eq_of_opcode_eq hr hmem (hop.trans hop'.symm)]

/-- The opcodes without a row are 0x0C to 0x0F and those from 0x19 on (R116). -/
theorem opcodeRow?_eq_none_iff {op : BitVec 8} :
    opcodeRow? op = none ↔ (0x0C ≤ op.toNat ∧ op.toNat ≤ 0x0F) ∨ 0x19 ≤ op.toNat := by
  have hops : opcodeRows.map (fun r => (opcode r.value).toNat) = List.range 12 ++ List.range' 16 9 := by decide
  have hnone : opcodeRow? op = none ↔ op.toNat ∉ opcodeRows.map fun r => (opcode r.value).toNat := by
    simp [opcodeRow?, List.find?_eq_none, BitVec.toNat_inj]
  rw [hnone, hops, List.mem_append, List.mem_range, List.mem_range'_1]
  omega

/-! ### The decoder by its rows -/

section
variable {w : BWord} {r : OpcodeRow}

theorem decode_of_noRow (h : opcodeRow? (opcode w) = none) : decode w = .error .reservedOpcode := by
  simp [decode, h]

theorem decode_of_row (h : opcodeRow? (opcode w) = some r) :
    decode w = if w &&& r.zeros = 0 then .ok (r.build w) else .error .mustBeZero := by
  obtain ⟨hr, hop⟩ := opcodeRow?_eq_some_iff.mp h
  simp [decode, h, OpcodeRow.matchesWord, matches_iff hr, hop]

/-- A word decodes to what the row it matches builds from it (R115). -/
theorem decode_eq_ok_iff {i : Instr} : decode w = .ok i ↔ ∃ r ∈ opcodeRows, w &&& r.mask = r.value ∧ r.build w = i := by
  constructor
  · intro h
    cases hrow : opcodeRow? (opcode w) with
    | none =>
      rw [decode_of_noRow hrow] at h
      cases h
    | some r =>
      obtain ⟨hr, hop⟩ := opcodeRow?_eq_some_iff.mp hrow
      rw [decode_of_row hrow] at h
      split at h
      · next hz => exact ⟨r, hr, (matches_iff hr w).mpr ⟨hop.symm, hz⟩, by injection h⟩
      · cases h
  · rintro ⟨r, hr, hm, rfl⟩
    obtain ⟨hop, hz⟩ := (matches_iff hr w).mp hm
    rw [decode_of_row (opcodeRow?_eq_some_iff.mpr ⟨hr, hop.symm⟩), if_pos hz]

/-- A word is illegal exactly if its opcode has no row, or has one with a must-be-zero bit that is set (R116). -/
theorem decode_eq_error_iff : (∃ e, decode w = .error e) ↔
    opcodeRow? (opcode w) = none ∨ ∃ r ∈ opcodeRows, opcode w = opcode r.value ∧ w &&& r.zeros ≠ 0 := by
  cases hrow : opcodeRow? (opcode w) with
  | none => simp [decode_of_noRow hrow]
  | some r =>
    obtain ⟨hr, hop⟩ := opcodeRow?_eq_some_iff.mp hrow
    have honly : (∃ r' ∈ opcodeRows, opcode w = opcode r'.value ∧ w &&& r'.zeros ≠ 0) ↔ w &&& r.zeros ≠ 0 :=
      ⟨fun ⟨r', hr', hop', hz⟩ => row_eq_of_opcode_eq hr hr' (hop.trans hop') ▸ hz, fun hz => ⟨r, hr, hop.symm, hz⟩⟩
    rw [decode_of_row hrow, honly]
    split
    · next hz => simp [hz]
    · next hz => simpa using hz

end

/-! ### The rows and the encoder agree (R111 to R113) -/

/-- A row and the encoder agree: what the row builds from a word of its own encodes to that word, and what it builds is
legal exactly if its encoding has none of the row's must-be-zero bits. -/
structure OpcodeRow.Agrees (r : OpcodeRow) : Prop where
  encode_build (w : BWord) : opcode w = opcode r.value → w &&& r.zeros = 0 → encode (r.build w) = w
  wellFormed_iff (w : BWord) : (r.build w).wellFormed = true ↔ encode (r.build w) &&& r.zeros = 0

section
variable {r : OpcodeRow}

/-- Format FR with three registers. -/
theorem agrees_formatFR {mk : FReg → FReg → FReg → Instr} (hz : r.zeros = fieldMask 20 (32 - 20))
    (hb : ∀ w, r.build w = mk (rd w) (rs1 w) (rs2 w)) (hwf : ∀ a b c, (mk a b c).wellFormed = true)
    (henc : ∀ a b c, encode (mk a b c) = formatFR (opcode r.value) a b (reg c)) : r.Agrees where
  encode_build w hop hzero := by
    rw [hz, and_highMask_eq_zero_iff (by decide)] at hzero
    rw [hb, henc, ← hop]
    apply BitVec.eq_of_toNat_eq
    rw [toNat_formatFR, toNat_opcode, toNat_reg, val_rd, val_rs1, val_rs2]
    omega
  wellFormed_iff w := by
    rw [hb, hwf, eq_self, true_iff, hz, and_highMask_eq_zero_iff (by decide), henc, toNat_formatFR]
    omega

/-- Format FR with two registers. -/
theorem agrees_formatFR_of_two {mk : FReg → FReg → Instr} (hz : r.zeros = fieldMask 16 (32 - 16))
    (hb : ∀ w, r.build w = mk (rd w) (rs1 w)) (hwf : ∀ a b, (mk a b).wellFormed = true)
    (henc : ∀ a b, encode (mk a b) = formatFR (opcode r.value) a b 0#4) : r.Agrees where
  encode_build w hop hzero := by
    rw [hz, and_highMask_eq_zero_iff (by decide)] at hzero
    rw [hb, henc, ← hop]
    apply BitVec.eq_of_toNat_eq
    rw [toNat_formatFR, toNat_opcode, val_rd, val_rs1, BitVec.toNat_zero]
    omega
  wellFormed_iff w := by
    rw [hb, hwf, eq_self, true_iff, hz, and_highMask_eq_zero_iff (by decide), henc, toNat_formatFR, BitVec.toNat_zero]
    omega

/-- Format FR with a selector in place of the third register. -/
theorem agrees_formatFR_of_selector {mk : FReg → FReg → BitVec 4 → Instr} (hz : r.zeros = fieldMask 17 (32 - 17))
    (hb : ∀ w, r.build w = mk (rd w) (rs1 w) (sel w)) (hwf : ∀ a b c, (mk a b c).wellFormed = true ↔ c.toNat < 2)
    (henc : ∀ a b c, encode (mk a b c) = formatFR (opcode r.value) a b c) : r.Agrees where
  encode_build w hop hzero := by
    rw [hz, and_highMask_eq_zero_iff (by decide)] at hzero
    rw [hb, henc, ← hop]
    apply BitVec.eq_of_toNat_eq
    rw [toNat_formatFR, toNat_opcode, val_rd, val_rs1, toNat_sel]
    omega
  wellFormed_iff w := by
    rw [hb, hwf, hz, and_highMask_eq_zero_iff (by decide), henc, toNat_formatFR]
    omega

/-- Format FI. -/
theorem agrees_formatFI {mk : FReg → BitVec 16 → Instr} (hz : r.zeros = fieldMask 12 4)
    (hb : ∀ w, r.build w = mk (rd w) (imm w)) (hwf : ∀ a x, (mk a x).wellFormed = true)
    (henc : ∀ a x, encode (mk a x) = formatFI (opcode r.value) a x) : r.Agrees where
  encode_build w hop hzero := by
    rw [hz, and_fieldMask_eq_zero_iff (by decide)] at hzero
    rw [hb, henc, ← hop]
    apply BitVec.eq_of_toNat_eq
    rw [toNat_formatFI, toNat_opcode, val_rd, toNat_imm]
    omega
  wellFormed_iff w := by
    rw [hb, hwf, eq_self, true_iff, hz, and_fieldMask_eq_zero_iff (by decide), henc, toNat_formatFI]
    omega

/-- Format B with its low `k` flags free. -/
theorem agrees_formatB (k : Nat) {mk : BitVec 4 → Instr} (hk : k ≤ 4)
    (hz : r.zeros = fieldMask (8 + k) (32 - (8 + k))) (hb : ∀ w, r.build w = mk (flags w))
    (hwf : ∀ x, (mk x).wellFormed = true ↔ x.toNat < 2 ^ k)
    (henc : ∀ x, encode (mk x) = formatB (opcode r.value) x) : r.Agrees where
  encode_build w hop hzero := by
    rw [hz, and_highMask_eq_zero_iff (by omega)] at hzero
    have hlt : w.toNat < 2 ^ 12 := hzero.trans_le (Nat.pow_le_pow_right (by decide) (by omega))
    rw [hb, henc, ← hop]
    apply BitVec.eq_of_toNat_eq
    rw [toNat_formatB, toNat_opcode, toNat_flags]
    omega
  wellFormed_iff w := by
    rw [hz, and_highMask_eq_zero_iff (by omega), hb, hwf, henc, toNat_formatB, pow_add]
    omega

/-- Format B without flags. -/
theorem agrees_formatB_of_none {i : Instr} (hz : r.zeros = fieldMask 8 (32 - 8)) (hb : ∀ w, r.build w = i)
    (hwf : i.wellFormed = true) (henc : encode i = formatB (opcode r.value) 0#4) : r.Agrees where
  encode_build w hop hzero := by
    rw [hz, and_highMask_eq_zero_iff (by decide)] at hzero
    rw [hb, henc, ← hop]
    apply BitVec.eq_of_toNat_eq
    rw [toNat_formatB, toNat_opcode, BitVec.toNat_zero]
    omega
  wellFormed_iff w := by
    rw [hb, hwf, eq_self, true_iff, hz, and_highMask_eq_zero_iff (by decide), henc, toNat_formatB, BitVec.toNat_zero]
    omega

end

/-- Every row agrees with the encoder, by its format. -/
theorem opcodeRows_agree : ∀ r ∈ opcodeRows, r.Agrees := by
  simp only [opcodeRows, List.cons_append, List.nil_append, List.forall_mem_cons]
  refine ⟨?nop, ?fadd, ?fmul, ?fsqr, ?finv, ?fpow, ?ftr, ?fmov, ?fli, ?fld, ?fst, ?peval, ?hbuild, ?gauss, ?pkext,
    ?synd, ?sample, ?dsynd, ?bm, ?roots, ?check, List.forall_mem_nil _⟩
  case fadd | fmul | fpow => exact agrees_formatFR rfl (fun _ => rfl) (fun _ _ _ => rfl) fun _ _ _ => rfl
  case fsqr | finv | ftr | fmov => exact agrees_formatFR_of_two rfl (fun _ => rfl) (fun _ _ => rfl) fun _ _ => rfl
  case peval => exact agrees_formatFR_of_selector rfl (fun _ => rfl) (fun _ _ _ => decide_eq_true_iff) fun _ _ _ => rfl
  case fli | fld | fst => exact agrees_formatFI rfl (fun _ => rfl) (fun _ _ => rfl) fun _ _ => rfl
  case synd => exact agrees_formatB 2 (by decide) rfl (fun _ => rfl) (fun _ => decide_eq_true_iff) fun _ => rfl
  case dsynd | check =>
    exact agrees_formatB 1 (by decide) rfl (fun _ => rfl) (fun _ => decide_eq_true_iff) fun _ => rfl
  case nop | hbuild | gauss | pkext | sample | bm | roots => exact agrees_formatB_of_none rfl (fun _ => rfl) rfl rfl

/-- Every command has a row that builds it back from its word, by the lemma of its constructor. -/
theorem rowOf_statement : ∀ i : Instr, Laws.RowOf.Statement i
  | .nop => Laws.RowOf.nop
  | .fadd rd rs1 rs2 => Laws.RowOf.fadd rd rs1 rs2
  | .fmul rd rs1 rs2 => Laws.RowOf.fmul rd rs1 rs2
  | .fsqr rd rs1 => Laws.RowOf.fsqr rd rs1
  | .finv rd rs1 => Laws.RowOf.finv rd rs1
  | .fpow rd rs1 rs2 => Laws.RowOf.fpow rd rs1 rs2
  | .ftr rd rs1 => Laws.RowOf.ftr rd rs1
  | .fmov rd rs1 => Laws.RowOf.fmov rd rs1
  | .fli rd imm => Laws.RowOf.fli rd imm
  | .fld rd addr => Laws.RowOf.fld rd addr
  | .fst rs addr => Laws.RowOf.fst rs addr
  | .peval rd rs1 sel => Laws.RowOf.peval rd rs1 sel
  | .hbuild => Laws.RowOf.hbuild
  | .gauss => Laws.RowOf.gauss
  | .pkext => Laws.RowOf.pkext
  | .synd flags => Laws.RowOf.synd flags
  | .sample => Laws.RowOf.sample
  | .dsynd flags => Laws.RowOf.dsynd flags
  | .bm => Laws.RowOf.bm
  | .roots => Laws.RowOf.roots
  | .check flags => Laws.RowOf.check flags

/-- A word decodes to a command exactly if the command is legal and the word is its encoding. -/
theorem decode_eq_ok_iff_encode_eq {w : BWord} {i : Instr} : decode w = .ok i ↔ i.wellFormed = true ∧ encode i = w := by
  constructor
  · intro h
    obtain ⟨r, hr, hm, rfl⟩ := decode_eq_ok_iff.mp h
    obtain ⟨hop, hz⟩ := (matches_iff hr w).mp hm
    have henc : encode (r.build w) = w := (opcodeRows_agree r hr).encode_build w hop hz
    exact ⟨((opcodeRows_agree r hr).wellFormed_iff w).mpr (by rwa [henc]), henc⟩
  · rintro ⟨hwf, rfl⟩
    obtain ⟨r, hrow, hbuild⟩ := rowOf_statement i
    obtain ⟨hr, hop⟩ := opcodeRow?_eq_some_iff.mp hrow
    have hz := (opcodeRows_agree r hr).wellFormed_iff (encode i)
    rw [hbuild] at hz
    exact decode_eq_ok_iff.mpr ⟨r, hr, (matches_iff hr _).mpr ⟨hop.symm, hz.mp hwf⟩, hbuild⟩

/-! ### The statements -/

/-- Settles O1: one direction of "decodes to a command exactly if it is that legal command's word". -/
theorem encodeThenDecodeReturnsCommand : Obligations.EncodeThenDecodeReturnsCommand :=
  fun _ hwf => decode_eq_ok_iff_encode_eq.mpr ⟨hwf, rfl⟩

/-- Settles O2: the other direction. -/
theorem decodeThenEncodeReturnsWord : Obligations.DecodeThenEncodeReturnsWord :=
  fun _ _ => decode_eq_ok_iff_encode_eq.mp

/-- Settles O3: a matching word has the row's opcode, and no two rows have one opcode. -/
theorem legalWordMatchesExactlyOneRow : Obligations.LegalWordMatchesExactlyOneRow := by
  refine ⟨rfl, fun w i h => ?_, fun w ⟨r, hr, hm⟩ => ⟨r.build w, decode_eq_ok_iff.mpr ⟨r, hr, hm, rfl⟩⟩⟩
  obtain ⟨r, hr, hm, rfl⟩ := decode_eq_ok_iff.mp h
  refine ⟨r, hr, hm, rfl, fun r' hr' hm' => row_eq_of_opcode_eq hr' hr ?_⟩
  exact ((matches_iff hr' w).mp hm').1.symm.trans ((matches_iff hr w).mp hm).1

/-- Settles O4: the table written out is that of the rows' opcodes and must-be-zero bits. -/
theorem illegalWordsCompleteWithErrIllegal : Obligations.IllegalWordsCompleteWithErrIllegal := by
  refine ⟨fun w => ?_, fun s c e hc he => engineTurn_of_illegal hc he⟩
  have hrows := decode_eq_error_iff (w := w)
  rw [opcodeRow?_eq_none_iff, toNat_opcode] at hrows
  refine hrows.trans (or_congr_right ?_)
  show _ ↔ ∃ x ∈ opcodeRows.map fun r => ((opcode r.value).toNat, r.zeros), w.toNat % 256 = x.1 ∧ w &&& x.2 ≠ 0
  simp only [List.mem_map, exists_exists_and_eq_and, ← toNat_opcode, BitVec.toNat_inj]

/-- Settles O5: the decoder, evaluated on each of the words. -/
theorem writtenOutWordsDecode : Obligations.WrittenOutWordsDecode := by
  unfold Obligations.WrittenOutWordsDecode
  decide

end Sys2Proof
end

section
/-! PROOFS. The field primitives in the quotient ring GF(2)[z]/(P) of 40_field.md: every value names an element of it, values
below 2^M name different ones, and the primitives are its operations. From that the laws (O21) and the values of powers,
traces and evaluated polynomials. -/

namespace Sys2Proof.Machine

open Polynomial

/-! ### Integers as polynomials (R140) -/

theorem degree_polyOf_lt {v n : Nat} (h : v < 2 ^ n) : (polyOf v).degree < n := by
  rw [degree_lt_iff_coeff_zero]
  intro i hi
  simp [polyOf_coeff, Nat.testBit_lt_two_pow (h.trans_le (Nat.pow_le_pow_right (by decide) hi))]

@[simp] theorem polyOf_zero : polyOf 0 = 0 := by simp [polyOf]

@[simp] theorem polyOf_one : polyOf 1 = 1 := by simp [polyOf]

theorem GField.Legal.natDegree_poly {F : GField} (hF : F.Legal) : (polyOf F.poly).natDegree = F.m := by
  obtain ⟨htop, hlt⟩ := poly_bits hF
  refine natDegree_eq_of_le_of_coeff_ne_zero ?_ (by simp [polyOf_coeff, htop])
  exact natDegree_le_iff_coeff_eq_zero.mpr ((degree_lt_iff_coeff_zero _ _).mp (degree_polyOf_lt hlt))

theorem GField.Legal.monic_poly {F : GField} (hF : F.Legal) : (polyOf F.poly).Monic := by
  rw [Monic, leadingCoeff, hF.natDegree_poly, polyOf_coeff, if_pos (poly_bits hF).1]

theorem GField.Legal.degree_poly {F : GField} (hF : F.Legal) : (polyOf F.poly).degree = F.m := by
  rw [degree_eq_natDegree hF.monic_poly.ne_zero, hF.natDegree_poly]

/-! ### The quotient ring -/

/-- The ring R142 computes in: polynomials over GF(2) modulo the field polynomial. -/
abbrev GField.Quotient (F : GField) : Type := AdjoinRoot (polyOf F.poly)

/-- The element of the quotient ring that the low M bits of a value name (R140). -/
noncomputable def GField.elem (F : GField) (v : Nat) : F.Quotient := AdjoinRoot.mk _ (polyOf (maskM F v))

/-- The residues of two polynomials are the same exactly if they differ by a multiple of the field polynomial. -/
theorem mk_eq_mk_iff_exists {P f g : Polynomial (ZMod 2)} :
    AdjoinRoot.mk P f = AdjoinRoot.mk P g ↔ ∃ q, f = g + q * P := by
  rw [AdjoinRoot.mk_eq_mk, dvd_iff_exists_eq_mul_left]
  exact exists_congr fun q => sub_eq_iff_eq_add'

section
variable {F : GField} {u v : Nat}

theorem elem_of_lt (h : v < 2 ^ F.m) : F.elem v = AdjoinRoot.mk _ (polyOf v) := by rw [GField.elem, maskM_id F h]

@[simp] theorem elem_maskM : F.elem (maskM F v) = F.elem v := by rw [GField.elem, GField.elem, maskM_id F (maskM_lt F v)]

@[simp] theorem elem_zero : F.elem 0 = 0 := by simp [GField.elem, maskM]

@[simp] theorem elem_gfAdd : F.elem (gfAdd F u v) = F.elem u + F.elem v := by
  rw [elem_of_lt (gfAdd_lt F u v), gfAdd, polyOf_xor, map_add, GField.elem, GField.elem]

theorem xorSum_lt {f : Nat → Nat} (hf : ∀ i, f i < 2 ^ F.m) (n : Nat) : xorSum f n < 2 ^ F.m := by
  induction n with
  | zero => exact Nat.two_pow_pos _
  | succ n ih => exact Nat.xor_lt_two_pow ih (hf n)

theorem elem_xorSum {f : Nat → Nat} (hf : ∀ i, f i < 2 ^ F.m) (n : Nat) :
    F.elem (xorSum f n) = ∑ i ∈ Finset.range n, F.elem (f i) := by
  induction n with
  | zero => simp [xorSum]
  | succ n ih =>
    rw [Finset.sum_range_succ, ← ih, xorSum, elem_of_lt (Nat.xor_lt_two_pow (xorSum_lt hf n) (hf n)), polyOf_xor, map_add,
      elem_of_lt (xorSum_lt hf n), elem_of_lt (hf n)]

theorem polyEval_lt (cs : List Nat) (x : Nat) : polyEval F cs x < 2 ^ F.m := by
  cases cs with
  | nil => exact Nat.two_pow_pos _
  | cons c cs =>
    cases cs with
    | nil => exact maskM_lt F c
    | cons c' cs => exact gfAdd_lt F _ _

end

section
variable {F : GField} (hF : F.Legal) {u v : Nat}
include hF

theorem GField.Legal.one_lt : 1 < 2 ^ F.m := Nat.one_lt_two_pow (by have := hF.1; omega)

theorem elem_one : F.elem 1 = 1 := by rw [elem_of_lt hF.one_lt, polyOf_one, map_one]

/-- No two values below 2^M are congruent modulo the field polynomial, as their sum has too small a degree. -/
theorem eq_of_elem_eq (hu : u < 2 ^ F.m) (hv : v < 2 ^ F.m) (h : F.elem u = F.elem v) : u = v := by
  rw [elem_of_lt hu, elem_of_lt hv, AdjoinRoot.mk_eq_mk, CharTwo.sub_eq_add, ← polyOf_xor] at h
  have hlt : (polyOf (u ^^^ v)).degree < (polyOf F.poly).degree :=
    (degree_polyOf_lt (Nat.xor_lt_two_pow hu hv)).trans_eq hF.degree_poly.symm
  have hzero : polyOf (u ^^^ v) = polyOf 0 := by rw [eq_zero_of_dvd_of_degree_lt h hlt, polyOf_zero]
  exact Nat.xor_eq_zero_iff.mp (polyOf_inj hzero)

theorem gfMul_spec : gfMul F u v < 2 ^ F.m ∧ F.elem (gfMul F u v) = F.elem u * F.elem v := by
  have hm := hF.1
  have hclmul : clmul F.m (maskM F u) (maskM F v) < 2 ^ (F.m + (F.m - 1)) :=
    (clmul_lt F.m _ _ (by omega) (maskM_lt F u)).trans_eq (by congr 1; omega)
  have hspec : gfMul F u v < 2 ^ F.m ∧ ∃ q, polyOf (gfMul F u v) = polyOf (clmul F.m (maskM F u) (maskM F v)) +
      q * polyOf F.poly := reduceBits_spec hF (F.m - 1) _ hclmul
  obtain ⟨hlt, hq⟩ := hspec
  refine ⟨hlt, ?_⟩
  rw [elem_of_lt hlt, GField.elem, GField.elem, ← map_mul, ← polyOf_clmul _ _ _ (maskM_lt F v)]
  exact mk_eq_mk_iff_exists.mpr hq

theorem gfMul_lt : gfMul F u v < 2 ^ F.m := (gfMul_spec hF).1

theorem elem_gfMul : F.elem (gfMul F u v) = F.elem u * F.elem v := (gfMul_spec hF).2

theorem elem_gfSq : F.elem (gfSq F u) = F.elem u ^ 2 := by rw [gfSq, elem_gfMul hF, sq]

/-- The quotient ring has characteristic 2. -/
theorem GField.Legal.charTwo : CharP F.Quotient 2 := by
  have hne : (polyOf F.poly).degree ≠ 0 := by
    rw [hF.degree_poly]
    exact_mod_cast (by have := hF.1; omega : F.m ≠ 0)
  exact charP_of_injective_ringHom (AdjoinRoot.of.injective_of_degree_ne_zero hne) 2

/-! ### Powers (R144) -/

theorem powRec_lt (a e : Nat) : powRec F a e < 2 ^ F.m := by
  cases e with
  | zero => exact hF.one_lt
  | succ e => exact gfMul_lt hF

theorem elem_powRec (a e : Nat) : F.elem (powRec F a e) = F.elem a ^ e := by
  induction e with
  | zero => rw [powRec, elem_one hF, pow_zero]
  | succ e ih => rw [powRec, elem_gfMul hF, ih, pow_succ]

theorem gfPowBit_lt (a r : Nat) (bit : Bool) : gfPowBit F a r bit < 2 ^ F.m := by
  cases bit <;> exact gfMul_lt hF

theorem elem_gfPowBit (a r : Nat) (bit : Bool) :
    F.elem (gfPowBit F a r bit) = F.elem r ^ 2 * F.elem a ^ bit.toNat := by
  cases bit <;> simp [gfPowBit, elem_gfMul hF, sq]

/-- The turns for the low `n` bits of the exponent square `n` times and bring in the base to the power of those bits. -/
theorem elem_foldr_gfPowBit (a e n r : Nat) :
    F.elem ((List.range n).foldr (fun i r => gfPowBit F a r (e.testBit i)) r) =
      F.elem r ^ 2 ^ n * F.elem a ^ (e % 2 ^ n) := by
  induction n generalizing r with
  | zero => simp [Nat.mod_one]
  | succ n ih =>
    rw [List.range_succ, List.foldr_append, List.foldr_cons, List.foldr_nil, ih, elem_gfPowBit hF, Nat.mod_pow_succ,
      ← Nat.toNat_testBit]
    ring

theorem gfPow_lt (a e : Nat) : gfPow F a e < 2 ^ F.m := by
  rw [gfPow, List.range_succ_eq_map, List.foldr_cons]
  exact gfPowBit_lt hF _ _ _

/-- Square-and-multiply computes the recurrence of R144. -/
theorem gfPow_eq_powRec (a e : Nat) : gfPow F a e = powRec F a e := by
  apply eq_of_elem_eq hF (gfPow_lt hF a e) (powRec_lt hF a e)
  rw [gfPow, elem_foldr_gfPowBit hF, elem_powRec hF, elem_one hF, one_pow, one_mul, Nat.mod_eq_of_lt Nat.lt_log2_self]

/-! ### An irreducible field polynomial (R145, R146) -/

/-- The quotient by an irreducible polynomial is the field of 2^M elements, so each is its own 2^M-th power. -/
theorem pow_two_pow_eq_self (hirr : Irreducible (polyOf F.poly)) (x : F.Quotient) : x ^ 2 ^ F.m = x := by
  have : Fact (Irreducible (polyOf F.poly)) := ⟨hirr⟩
  have : Module.Finite (ZMod 2) F.Quotient := (AdjoinRoot.powerBasis' hF.monic_poly).finite
  have := Module.finite_of_finite (ZMod 2) (M := F.Quotient)
  have := Fintype.ofFinite F.Quotient
  have hcard : Fintype.card F.Quotient = 2 ^ F.m := by
    rw [Module.card_eq_pow_finrank (K := ZMod 2), (AdjoinRoot.powerBasis' hF.monic_poly).finrank,
      AdjoinRoot.powerBasis'_dim, hF.natDegree_poly, ZMod.card]
  rw [← hcard, FiniteField.pow_card]

/-- A value whose low M bits are not all 0 is inverted by the power 2^M - 2. -/
theorem gfMul_powRec_eq_one (hirr : Irreducible (polyOf F.poly)) {a : Nat} (ha : maskM F a ≠ 0) :
    gfMul F a (powRec F a (2 ^ F.m - 2)) = 1 := by
  have : Fact (Irreducible (polyOf F.poly)) := ⟨hirr⟩
  have hne : F.elem a ≠ 0 := fun h =>
    ha (eq_of_elem_eq hF (maskM_lt F a) (Nat.two_pow_pos _) (by rw [elem_maskM, h, elem_zero]))
  apply eq_of_elem_eq hF (gfMul_lt hF) hF.one_lt
  apply mul_left_cancel₀ hne
  calc F.elem a * F.elem (gfMul F a (powRec F a (2 ^ F.m - 2)))
      = F.elem a ^ (2 ^ F.m - 2 + 2) := by rw [elem_gfMul hF, elem_powRec hF]; ring
    _ = F.elem a * F.elem 1 := by
      rw [Nat.sub_add_cancel hF.one_lt, pow_two_pow_eq_self hF hirr, elem_one hF, mul_one]

/-- 0 has no inverse, and its power 2^M - 2 is 0. -/
theorem powRec_eq_zero {a : Nat} (ha : maskM F a = 0) : powRec F a (2 ^ F.m - 2) = 0 := by
  have hexp : 2 ^ F.m - 2 ≠ 0 := by
    have : 2 ^ 2 ≤ 2 ^ F.m := Nat.pow_le_pow_right (by decide) hF.1
    omega
  apply eq_of_elem_eq hF (powRec_lt hF _ _) (Nat.two_pow_pos _)
  rw [elem_powRec hF, ← elem_maskM, ha, elem_zero, zero_pow hexp]

/-! ### Traces and polynomials (R146, R147) -/

/-- The loop of R146 sums the powers by its recurrence. -/
theorem gfTr_eq_xorSum (a : Nat) : gfTr F a = xorSum (fun i => powRec F a (2 ^ i)) F.m := by
  rw [gfTr]
  generalize F.m = n
  induction n with
  | zero => rfl
  | succ n ih => rw [List.range_succ, List.foldl_append, ih, List.foldl_cons, List.foldl_nil, gfPow_eq_powRec hF, xorSum]

theorem gfTr_lt (a : Nat) : gfTr F a < 2 ^ F.m := by
  rw [gfTr_eq_xorSum hF]
  exact xorSum_lt (fun i => powRec_lt hF a _) _

theorem elem_gfTr (a : Nat) : F.elem (gfTr F a) = ∑ i ∈ Finset.range F.m, F.elem a ^ 2 ^ i := by
  rw [gfTr_eq_xorSum hF, elem_xorSum fun i => powRec_lt hF a _]
  exact Finset.sum_congr rfl fun i _ => elem_powRec hF a _

/-- Squaring moves every term of the trace one place on and the last one to the front: the trace is its own square. -/
theorem gfTr_eq_zero_or_one (hirr : Irreducible (polyOf F.poly)) (a : Nat) : gfTr F a = 0 ∨ gfTr F a = 1 := by
  have : Fact (Irreducible (polyOf F.poly)) := ⟨hirr⟩
  have := hF.charTwo
  have hsq : F.elem (gfTr F a) * F.elem (gfTr F a) = F.elem (gfTr F a) := by
    have hshift := Finset.sum_range_succ' (fun i => F.elem a ^ 2 ^ i) F.m
    rw [Finset.sum_range_succ, pow_two_pow_eq_self hF hirr, pow_zero, pow_one] at hshift
    rw [← sq, elem_gfTr hF, CharTwo.sum_sq, add_right_cancel hshift]
    exact Finset.sum_congr rfl fun i _ => by rw [← pow_mul, ← pow_succ]
  rcases IsIdempotentElem.iff_eq_zero_or_one.mp hsq with h | h
  · exact .inl (eq_of_elem_eq hF (gfTr_lt hF a) (Nat.two_pow_pos _) (h.trans elem_zero.symm))
  · exact .inr (eq_of_elem_eq hF (gfTr_lt hF a) hF.one_lt (h.trans (elem_one hF).symm))

/-- Horner's rule evaluates the polynomial of the coefficients (R147). -/
theorem elem_polyEval (cs : List Nat) (x : Nat) :
    F.elem (polyEval F cs x) = ∑ k ∈ Finset.range cs.length, F.elem (cs.getD k 0) * F.elem x ^ k := by
  match cs with
  | [] => simp [polyEval]
  | [c] => simp [polyEval]
  | c :: c' :: cs =>
    rw [polyEval, elem_gfAdd, elem_gfMul hF, elem_polyEval (c' :: cs), List.length_cons (a := c),
      Finset.sum_range_succ', Finset.sum_mul]
    simp [pow_succ, mul_assoc]

end

/-- Settles O21: in the quotient ring each law is one of commutative rings of characteristic 2. -/
theorem fieldPrimitivesFormARing : Obligations.FieldPrimitivesFormARing := by
  intro F hF a b c
  have := hF.charTwo
  have hadd := gfAdd_lt F
  have hmul {u v : Nat} : gfMul F u v < 2 ^ F.m := gfMul_lt hF
  have hzero : 0 < 2 ^ F.m := Nat.two_pow_pos _
  exact ⟨⟨hadd _ _, hmul, gfPow_lt hF a b⟩,
    eq_of_elem_eq hF (hadd _ _) (hadd _ _) (by simp [add_assoc]),
    eq_of_elem_eq hF (hadd _ _) (hadd _ _) (by simp [add_comm]),
    eq_of_elem_eq hF (hadd _ _) (maskM_lt F a) (by simp),
    eq_of_elem_eq hF (hadd _ _) hzero (by simp [CharTwo.add_self_eq_zero]),
    eq_of_elem_eq hF hmul hmul (by simp [elem_gfMul hF, mul_assoc]),
    eq_of_elem_eq hF hmul hmul (by simp [elem_gfMul hF, mul_comm]),
    eq_of_elem_eq hF hmul (hadd _ _) (by simp [elem_gfMul hF, mul_add]),
    eq_of_elem_eq hF hmul (maskM_lt F a) (by simp [elem_gfMul hF, elem_one hF]),
    eq_of_elem_eq hF hmul hzero (by simp [elem_gfMul hF]),
    eq_of_elem_eq hF hmul (hadd _ _) (by simp [elem_gfSq hF, CharTwo.add_sq])⟩

end Sys2Proof.Machine
end

section
/-! PROOFS. The field commands (40_field.md): each writes one value, found by the laws of the quotient ring, and changes
nothing else (O11 to O17, O19, O20). -/

namespace Sys2Proof.Machine

/-! ### Commands that write a field register (R149, R252) -/

section
variable {s : State}

theorem fieldError_eq_none : fieldError s = none ↔ FieldConfigured s := by
  rw [← fieldCfgOk_iff]
  cases h : s.fieldCfgOk <;> simp [fieldError, h]

/-- A command with no check but that of the field configuration, and no effect but on one register. -/
theorem exec_of_setF (hcfg : FieldConfigured s) {i : Instr} {rd : FReg} {v : FWord}
    (hcheck : firstError s i = fieldError s := by rfl) (heffect : effect i s = complete .ok (s.setF rd v) := by rfl) :
    exec i s = .next { s with f := s.f.set rd v, inflight := none, status := s.status.completed .ok } := by
  rw [exec_of_ok (hcheck.trans (fieldError_eq_none.mpr hcfg)), heffect]
  rfl

/-- A field element fits in a register (R83). -/
theorem toNat_zext16 {F : GField} (hF : F.Legal) {v : Nat} (h : v < 2 ^ F.m) : (zext16 v).toNat = v :=
  (BitVec.toNat_ofNat v 16).trans (Nat.mod_eq_of_lt (h.trans_le (Nat.pow_le_pow_right (by decide) hF.2.1)))

end

/-- Settles O11: the mask is the remainder. -/
theorem faddWritesTheMaskedXor : Obligations.FaddWritesTheMaskedXor := by
  intro s rd a b hcfg
  rw [exec_of_setF hcfg (i := .fadd rd a b), gfAdd, maskM_eq_mod, maskM_eq_mod]
  rfl

/-- Settles O17, by what each command writes. -/
theorem fmovCopiesAndFliMasks : Obligations.FmovCopiesAndFliMasks := by
  intro s rd a imm hcfg
  refine ⟨exec_of_setF hcfg (i := .fmov rd a), ?_⟩
  rw [exec_of_setF hcfg (i := .fli rd imm), maskM_eq_mod]
  rfl

/-! ### FST (R159) -/

/-- Settles O19: a memory write reads back, and every other word as before. -/
theorem fstStoresOneFmWord : Obligations.FstStoresOneFmWord := by
  intro s rs addr hcfg
  refine ⟨fun hin => ⟨_, exec_of_ok (i := .fst rs addr) (rangeError_eq_none.mpr ⟨hcfg, hin⟩), rfl, ?_, fun a ha => ?_⟩,
    fun hout => exec_of_error (i := .fst rs addr) (rangeError_eq_range.mpr ⟨hcfg, hout⟩)⟩
  · exact Mem.read?_write_self s.fm _ _
  · exact Mem.read?_write_other s.fm _ ha

/-! ### Products and squares (R142, R143) -/

/-- The product is the only value below 2^M congruent to the product of the polynomials. -/
theorem eq_gfMul_iff {F : GField} (hF : F.Legal) {a b u : Nat} : u = gfMul F a b ↔
    u < 2 ^ F.m ∧ ∃ q, polyOf u = polyOf (a % 2 ^ F.m) * polyOf (b % 2 ^ F.m) + q * polyOf F.poly := by
  have hcong (hu : u < 2 ^ F.m) : F.elem u = F.elem (gfMul F a b) ↔
      ∃ q, polyOf u = polyOf (a % 2 ^ F.m) * polyOf (b % 2 ^ F.m) + q * polyOf F.poly := by
    rw [elem_gfMul hF, elem_of_lt hu, GField.elem, GField.elem, maskM_eq_mod, maskM_eq_mod, ← map_mul, mk_eq_mk_iff_exists]
  constructor
  · rintro rfl
    exact ⟨gfMul_lt hF, (hcong (gfMul_lt hF)).mp rfl⟩
  · rintro ⟨hu, hq⟩
    exact eq_of_elem_eq hF hu (gfMul_lt hF) ((hcong hu).mpr hq)

/-- Settles O12, by what determines the product. -/
theorem fmulWritesTheReducedProduct : Obligations.FmulWritesTheReducedProduct := by
  intro s rd a b hcfg
  refine ⟨_, exec_of_setF hcfg (i := .fmul rd a b), fun u => ?_⟩
  rw [toNat_zext16 hcfg (gfMul_lt hcfg)]
  exact eq_gfMul_iff hcfg

/-- Settles O13: it is FMUL with one operand twice. -/
theorem fsqrWritesTheReducedSquare : Obligations.FsqrWritesTheReducedSquare := by
  intro s rd a hcfg
  have hsame : exec (.fsqr rd a) s = exec (.fmul rd a a) s := rfl
  obtain ⟨v, hexec, hv⟩ := fmulWritesTheReducedProduct s rd a a hcfg
  obtain ⟨hlt, q, hq⟩ := (hv v.toNat).mp rfl
  exact ⟨hsame, v, hsame.trans hexec, hlt, q, by rw [hq, sq]⟩

/-! ### Powers and traces (R144 to R146) -/

/-- Settles O14: square-and-multiply computes the recurrence. -/
theorem fpowFollowsTheRecurrence : Obligations.FpowFollowsTheRecurrence := by
  intro s rd a b hcfg
  rw [exec_of_setF hcfg (i := .fpow rd a b), gfPow_eq_powRec hcfg]
  rfl

/-- Settles O15: in a field of 2^M elements the power 2^M - 2 inverts. -/
theorem finvInvertsInAField : Obligations.FinvInvertsInAField := by
  intro s rd a hcfg
  have hv : (zext16 (gfInv s.field (s.fval a))).toNat = powRec s.field s.f[a].toNat (2 ^ s.field.m - 2) := by
    rw [gfInv, gfPow_eq_powRec hcfg, toNat_zext16 hcfg (powRec_lt hcfg _ _)]
    rfl
  refine ⟨_, exec_of_setF hcfg (i := .finv rd a), hv, fun hzero => ?_, fun hirr hne => ?_⟩
  · exact BitVec.eq_of_toNat_eq (hv.trans (powRec_eq_zero hcfg ((maskM_eq_mod _ _).trans hzero)))
  · rw [hv]
    exact gfMul_powRec_eq_one hcfg hirr (ne_of_eq_of_ne (maskM_eq_mod _ _) hne)

/-- Settles O16: in a field of 2^M elements the trace is its own square. -/
theorem ftrWritesTheTrace : Obligations.FtrWritesTheTrace := by
  intro s rd a hcfg
  have hv := toNat_zext16 hcfg (gfTr_lt (F := s.field) hcfg (s.fval a))
  refine ⟨_, exec_of_setF hcfg (i := .ftr rd a), hv.trans (gfTr_eq_xorSum hcfg _), fun hirr => ?_⟩
  exact (gfTr_eq_zero_or_one hcfg hirr (s.fval a)).imp (congrArg zext16) (congrArg zext16)

/-! ### PEVAL (R147, R160) -/

section
variable {s : State} {base len : Nat}

theorem State.fmVals?_isSome : (s.fmVals? base len).isSome = true ↔ s.fm.Written base len := by
  rw [State.fmVals?, Option.isSome_map, Mem.readN?_isSome]

/-- The words an FM object holds, masked to M bits, are its elements (R83, R85). -/
theorem State.maskM_of_fmVals? {cs : List Nat} (h : s.fmVals? base len = some cs) :
    cs.length = len ∧ ∀ k < len, maskM s.field (cs.getD k 0) = s.elemAt (base + k) := by
  obtain ⟨ws, hws, rfl⟩ := Option.map_eq_some_iff.mp h
  obtain ⟨hlen, hread⟩ := Mem.readN?_eq_some.mp hws
  refine ⟨by rw [List.length_map, hlen], fun k hk => ?_⟩
  rw [maskM_eq_mod, State.elemAt, hread k hk, State.field]
  simp [hlen, hk]

/-- Horner's rule over a written FM object is the sum of R147. -/
theorem State.polyEval_eq_polyAt (hcfg : FieldConfigured s) {d : Nat} {cs : List Nat}
    (h : s.fmVals? base (d + 1) = some cs) (x : Nat) : polyEval s.field cs x = s.polyAt base d x := by
  obtain ⟨hlen, hcs⟩ := State.maskM_of_fmVals? h
  have hterm (k : Nat) : gfMul s.field (s.elemAt (base + k)) (powRec s.field x k) < 2 ^ s.field.m := gfMul_lt hcfg
  apply eq_of_elem_eq hcfg (polyEval_lt cs x) (xorSum_lt hterm _)
  rw [elem_polyEval hcfg, elem_xorSum hterm, hlen]
  refine Finset.sum_congr rfl fun k hk => ?_
  rw [elem_gfMul hcfg, elem_powRec hcfg, ← hcs k (Finset.mem_range.mp hk), elem_maskM]

/-- A legal PEVAL reports an error exactly if its coefficients pass the end of FM (R160, R258). -/
theorem firstError_peval (hcfg : FieldConfigured s) {rd rs1 : FReg} {sel : BitVec 4} (hsel : sel.toNat < 2) :
    firstError s (.peval rd rs1 sel) =
      if s.pevalBase sel + (s.pT + 1) ≤ s.params.fmDepth then none else some .config := by
  have hregion : (footprint s (.peval rd rs1 sel)).ok s.params = true ↔
      s.pevalBase sel + (s.pT + 1) ≤ s.params.fmDepth := by
    rw [Footprint.ok_iff]
    simp [RegionsAccepted, footprint, Region.Fits, Space.size]
  simp [firstError, Instr.wellFormed, hsel, (fieldCfgOk_iff s).mpr hcfg, hregion]

end

/-- Settles O20, by whether the coefficients lie in FM and whether each of them has been written. -/
theorem pevalEvaluatesTheSelectedPolynomial : Obligations.PevalEvaluatesTheSelectedPolynomial := by
  intro s rd a sel base hcfg hsel
  obtain ⟨hwf, hbase⟩ : sel.toNat < 2 ∧ base = s.pevalBase sel := by
    rcases hsel with ⟨rfl, rfl⟩ | ⟨rfl, rfl⟩
    · exact ⟨by decide, rfl⟩
    · exact ⟨by decide, rfl⟩
  subst hbase
  have herr := firstError_peval hcfg (rd := rd) (rs1 := a) hwf
  have hexec (hin : s.pevalBase sel + (s.pT + 1) ≤ s.params.fmDepth) :
      exec (.peval rd a sel) s = .next (pevalEffect rd a sel s) := exec_of_ok (herr.trans (if_pos hin))
  refine ⟨fun hin hw => ?_, fun hin hw => ⟨s.nextDraw.setWidth 16, ?_⟩, fun hout => ?_⟩
  · obtain ⟨cs, hcs⟩ := Option.isSome_iff_exists.mp (State.fmVals?_isSome.mpr hw)
    rw [hexec hin, pevalEffect, State.pT, hcs, Option.map_some, State.polyEval_eq_polyAt hcfg hcs]
    rfl
  · have hnone : s.fmVals? (s.pevalBase sel) (s.pT + 1) = none :=
      Option.not_isSome_iff_eq_none.mp (mt State.fmVals?_isSome.mp hw)
    rw [hexec hin, pevalEffect, hnone]
    rfl
  · exact exec_of_error (herr.trans (if_neg (Nat.not_le.mpr hout)))

end Sys2Proof.Machine
end

section
/-! PROOFS. The matrices of BM entry by entry: what reading a matrix and writing one say of its bits (R11, R84, R87), and with
that PKEXT (O25). -/

namespace Sys2Proof.Machine

/-- The entry in row `r` and column `c` of a matrix held as its rows. -/
def entryOf (rows : List Nat) (r c : Nat) : Bool := (rows.getD r 0).testBit c

/-! ### Reading a matrix -/

section
variable {m : Mem 32} {b st n : Nat}

theorem div_lt_wordsFor {j : Nat} (h : j < n) : j / 32 < wordsFor n := by
  unfold wordsFor
  omega

theorem Mem.bit?_of_readVec? {v j : Nat} (h : m.readVec? b n = some v) (hj : j < n) : m.bit? b j = some (v.testBit j) := by
  obtain ⟨ws, hws, rfl⟩ := Option.map_eq_some_iff.mp h
  obtain ⟨hlen, hread⟩ := Mem.readN?_eq_some.mp hws
  have hword : j / 32 < ws.length := hlen.symm ▸ div_lt_wordsFor hj
  rw [Mem.bit?, hread _ (div_lt_wordsFor hj), List.getElem?_eq_getElem hword, Nat.testBit_mod_two_pow, testBit_packWords,
    List.getD_eq_getElem _ _ hword, decide_eq_true hj, Bool.true_and, Option.map_some]

theorem Mem.readVec?_isSome : (m.readVec? b n).isSome = true ↔ m.Written b (wordsFor n) := by
  rw [Mem.readVec?, Option.isSome_map, Mem.readN?_isSome]

/-- The rows read are those of a matrix whose first row stands at the base and every other a stride behind the one before. -/
theorem Mem.readRows?_eq_some {rows : Nat} {vs : List Nat} : m.readRows? st n b rows = some vs ↔
    vs.length = rows ∧ ∀ r < rows, m.readVec? (b + r * st) n = vs[r]? := by
  induction rows generalizing b vs with
  | zero => simp [Mem.readRows?, eq_comm]
  | succ rows ih =>
    cases vs with
    | nil =>
      rw [Mem.readRows?]
      split <;> simp
    | cons v vs =>
      have hstep : m.readRows? st n b (rows + 1) = some (v :: vs) ↔
          m.readVec? b n = some v ∧ m.readRows? st n (b + st) rows = some vs := by
        rw [Mem.readRows?]
        cases m.readVec? b n <;> cases m.readRows? st n (b + st) rows <;> simp
      simp only [hstep, ih, Nat.forall_lt_succ_left, List.length_cons, Nat.add_right_cancel_iff, Nat.succ_mul,
        Nat.zero_mul, Nat.add_zero, List.getElem?_cons_zero, List.getElem?_cons_succ, Nat.add_assoc, Nat.add_comm st]
      exact and_left_comm

theorem Mem.readRows?_isSome {rows : Nat} :
    (m.readRows? st n b rows).isSome = true ↔ m.RowsWritten b st rows n := by
  induction rows generalizing b with
  | zero => simp [Mem.readRows?, Mem.RowsWritten]
  | succ rows ih =>
    have hrest : m.RowsWritten b st (rows + 1) n ↔ m.Written b (wordsFor n) ∧ m.RowsWritten (b + st) st rows n := by
      simp only [Mem.RowsWritten, Nat.forall_lt_succ_left, Nat.succ_mul, Nat.zero_mul, Nat.add_zero, Nat.add_assoc,
        Nat.add_comm st]
    rw [hrest, ← ih, ← Mem.readVec?_isSome, Mem.readRows?]
    cases m.readVec? b n <;> cases m.readRows? st n (b + st) rows <;> simp

theorem Mem.bit?_of_readRows? {rows : Nat} {vs : List Nat} (h : m.readRows? st n b rows = some vs) {r c : Nat}
    (hr : r < rows) (hc : c < n) : m.bit? (b + r * st) c = some (entryOf vs r c) := by
  obtain ⟨rfl, hread⟩ := Mem.readRows?_eq_some.mp h
  have hvec := hread r hr
  rw [List.getElem?_eq_getElem hr] at hvec
  rw [Mem.bit?_of_readVec? hvec hc, entryOf, List.getD_eq_getElem _ _ hr]

/-! ### Writing a matrix -/

/-- A stride as wide as a row holds its columns (R86). -/
theorem lt_of_wordsFor_le {j : Nat} (h : wordsFor n ≤ st) (hj : j < n) : j < 32 * st := by
  have := div_lt_wordsFor hj
  omega

/-- A row written reads back, zero beyond its columns (R87). -/
theorem Mem.bit?_putRows (m : Mem 32) {rows : List Nat} {r c : Nat} (hr : r < rows.length) (hc : c < 32 * st) :
    (m.putRows st n b rows).bit? (b + r * st) c = some (decide (c < n) && entryOf rows r c) := by
  induction rows generalizing m b r with
  | nil => simp at hr
  | cons v vs ih =>
    have hword : c / 32 < st := by omega
    rw [Mem.putRows]
    cases r with
    | zero =>
      have hlen : c / 32 < (vecWords st (v % 2 ^ n)).length := by rwa [length_vecWords]
      rw [Nat.zero_mul, Nat.add_zero, Mem.bit?, Mem.read?_putRows_outside _ _ _ _ _ (by omega), Mem.read?_writeN,
        if_pos (by omega), Nat.add_sub_cancel_left, List.getElem?_eq_getElem hlen, ← List.getD_eq_getElem _ 0 hlen,
        Option.map_some, getLsbD_vecWords _ _ _ _ hword (Nat.mod_lt _ (by decide)), Nat.div_add_mod,
        Nat.testBit_mod_two_pow]
      rfl
    | succ r =>
      have hbase : b + (r + 1) * st = b + st + r * st := by rw [Nat.succ_mul, Nat.add_comm (r * st), Nat.add_assoc]
      rw [hbase, ih _ (Nat.lt_of_succ_lt_succ hr)]
      rfl

/-- The entries of the H region once all its rows are written. -/
theorem State.bit?_putH {s : State} {rows : List Nat} (hlen : rows.length = s.pR) {r c : Nat} (hr : r < s.pR)
    (hc : c < 32 * s.cfg.hStride.toNat) :
    (s.putH rows).bm.bit? (s.cfg.hBase.toNat + r * s.cfg.hStride.toNat) c = some (decide (c < s.pN) && entryOf rows r c) :=
  Mem.bit?_putRows _ (hlen ▸ hr) hc

end

/-! ### PKEXT (R186) -/

section
variable {s : State}

/-- Reading from the word that holds position `j` on, the positions behind it keep their place modulo 32. -/
theorem Mem.bit?_add_div (m : Mem 32) (b j c : Nat) : m.bit? (b + j / 32) (j % 32 + c) = m.bit? b (j + c) := by
  have hdiv : j / 32 + (j % 32 + c) / 32 = (j + c) / 32 := by omega
  have hmod : (j % 32 + c) % 32 = (j + c) % 32 := by omega
  rw [Mem.bit?, Mem.bit?, Nat.add_assoc, hdiv, hmod]

/-- The words PKEXT reads are those that hold a bit of columns R to N-1. -/
theorem State.publicKey?_isSome (h : ∀ r < s.pR, ∀ c < s.pK,
    (s.bm.bit? (s.cfg.hBase.toNat + r * s.cfg.hStride.toNat) (s.pR + c)).isSome = true) (hlt : s.pR < s.pN) :
    s.publicKey?.isSome = true := by
  rw [State.publicKey?, Option.isSome_map, Mem.readRows?_isSome]
  intro r hr k hk
  have hfirst : ∃ c < s.pK, (s.pR + c) / 32 = s.pR / 32 + k := by
    refine ⟨32 * (s.pR / 32 + k) - s.pR, ?_⟩
    unfold State.pK
    unfold wordsFor at hk
    omega
  obtain ⟨c, hc, hdiv⟩ := hfirst
  have hbit := h r hr c hc
  rw [Mem.bit?, Option.isSome_map, hdiv] at hbit
  rwa [show s.cfg.hBase.toNat + s.pR / 32 + r * s.cfg.hStride.toNat + k =
    s.cfg.hBase.toNat + r * s.cfg.hStride.toNat + (s.pR / 32 + k) by omega]

/-- Row `r` of the public key is row `r` of H from column R on. -/
theorem State.bit?_of_publicKey? {rows : List Nat} (h : s.publicKey? = some rows) {r c : Nat} (hr : r < s.pR)
    (hc : c < s.pK) :
    s.bm.bit? (s.cfg.hBase.toNat + r * s.cfg.hStride.toNat) (s.pR + c) = some (entryOf rows r c) := by
  obtain ⟨vs, hvs, rfl⟩ := Option.map_eq_some_iff.mp h
  have hcol : s.pR % 32 + c < s.pN - 32 * (s.pR / 32) := by
    unfold State.pK at hc
    omega
  have hread := Mem.bit?_of_readRows? hvs hr hcol
  rw [Nat.add_right_comm, Mem.bit?_add_div] at hread
  have hr' : r < vs.length := (length_of_readRows? hvs).symm ▸ hr
  rw [hread, entryOf, entryOf, List.getD_eq_getElem _ _ hr', List.getD_eq_getElem _ _ (by simpa using hr'),
    List.getElem_map, Nat.testBit_mod_two_pow, Nat.testBit_shiftRight, decide_eq_true hc, Bool.true_and]

end

/-- Settles O25, by the entries of the matrix read and of the one written. -/
theorem pkextCopiesTheRightBlock : Obligations.PkextCopiesTheRightBlock := by
  intro s hcfg hregions hwritten
  obtain ⟨_, _, _, hlt⟩ := id hcfg
  obtain ⟨_, hstrides, _⟩ := id hregions
  have hstride : s.kw ≤ s.cfg.pkStride.toNat := hstrides (s.cfg.pkStride.toNat, s.kw) (by simp)
  obtain ⟨rows, hrows⟩ := Option.isSome_iff_exists.mp (State.publicKey?_isSome hwritten hlt)
  have hlen := State.length_publicKey? hrows
  have heffect : pkextEffect s =
      complete .ok { s with bm := s.bm.putRows s.cfg.pkStride.toNat s.pK s.cfg.pkBase.toNat rows } := by
    rw [pkextEffect, hrows]
  refine ⟨_, (exec_of_ok (i := .pkext) ((blockError_eq_none s .pkext).mpr ⟨hcfg, hregions⟩)).trans
    (congrArg _ heffect), rfl, fun r hr c hc => ?_, fun r hr c hpad hc => ?_, fun a ha => ?_⟩
  · rw [State.bit?_of_publicKey? hrows hr hc, complete_bm,
      Mem.bit?_putRows _ (hlen ▸ hr) (lt_of_wordsFor_le hstride hc), decide_eq_true hc, Bool.true_and]
  · rw [complete_bm, Mem.bit?_putRows _ (hlen ▸ hr) hc, decide_eq_false (Nat.not_lt.mpr hpad), Bool.false_and]
  · exact Mem.read?_putRows_outside _ _ _ _ _ (hlen ▸ ha)

end Sys2Proof.Machine
end

section
/-! PROOFS. HBUILD (R180, R181): the value of every entry, when it reports RETRY, and with that O22. -/

namespace Sys2Proof.Machine

/-! ### The matrix HBUILD computes -/

/-- Row `b` of one power holds bit `b` of every column's value. -/
theorem entryOf_hbuildPowerRows (vs : List Nat) {m b : Nat} (hb : b < m) (j : Nat) :
    entryOf (hbuildPowerRows m vs) b j = (vs.getD j 0).testBit b := by
  rw [entryOf, List.getD_eq_getElem _ _ (by simpa using hb)]
  simp only [hbuildPowerRows, List.getElem_map, List.getElem_range, testBit_packBits]
  by_cases hj : j < vs.length <;> simp [hj]

/-- Row `i·M + b` holds bit `b` of `α_j^i` times the value column `j` starts with (R181). -/
theorem entryOf_hbuildRows {F : GField} (hF : F.Legal) {alphas vs : List Nat} {powers i b j : Nat} (hi : i < powers)
    (hb : b < F.m) (hj : j < alphas.length) (hlen : vs.length = alphas.length) (hv : ∀ v ∈ vs, v < 2 ^ F.m) :
    entryOf (hbuildRows F alphas powers vs) (i * F.m + b) j =
      (gfMul F (powRec F (alphas.getD j 0) i) (vs.getD j 0)).testBit b := by
  induction powers generalizing i vs with
  | zero => simp at hi
  | succ powers ih =>
    have hj' : j < vs.length := hlen ▸ hj
    cases i with
    | zero =>
      have hone : gfMul F 1 (vs.getD j 0) = vs.getD j 0 := by
        have hlt : vs.getD j 0 < 2 ^ F.m := by
          rw [List.getD_eq_getElem _ _ hj']
          exact hv _ (List.getElem_mem hj')
        apply eq_of_elem_eq hF (gfMul_lt hF) hlt
        rw [elem_gfMul hF, elem_one hF, one_mul]
      rw [Nat.zero_mul, Nat.zero_add, powRec, hone, ← entryOf_hbuildPowerRows vs hb j, entryOf, entryOf, hbuildRows,
        List.getD_append _ _ _ _ (by simpa using hb)]
    | succ i =>
      have hnext : entryOf (hbuildRows F alphas (powers + 1) vs) ((i + 1) * F.m + b) j =
          entryOf (hbuildRows F alphas powers (List.zipWith (gfMul F) vs alphas)) (i * F.m + b) j := by
        rw [entryOf, entryOf, hbuildRows, List.getD_append_right _ _ _ _ (by simp [Nat.succ_mul]; omega),
          length_hbuildPowerRows, Nat.succ_mul, Nat.add_right_comm, Nat.add_sub_cancel]
      have hvalue : (List.zipWith (gfMul F) vs alphas).getD j 0 = gfMul F (vs.getD j 0) (alphas.getD j 0) := by
        rw [List.getD_eq_getElem _ _ (by simp [hj, hj']), List.getElem_zipWith, List.getD_eq_getElem _ _ hj,
          List.getD_eq_getElem _ _ hj']
      have hbound : ∀ v ∈ List.zipWith (gfMul F) vs alphas, v < 2 ^ F.m := by
        intro v hv
        obtain ⟨k, hk, rfl⟩ := List.mem_iff_getElem.mp hv
        rw [List.getElem_zipWith]
        exact gfMul_lt hF
      rw [hnext, ih (Nat.lt_of_succ_lt_succ hi) (by simp [hlen]) hbound, hvalue]
      congr 1
      apply eq_of_elem_eq hF (gfMul_lt hF) (gfMul_lt hF)
      simp only [elem_gfMul hF, powRec]
      ring

/-! ### Its inputs and its result -/

section
variable {s : State}

/-- The support, as its elements. -/
theorem State.support?_of_written (h : s.fm.Written s.cfg.suppBase.toNat s.pN) :
    ∃ alphas, s.support? = some alphas ∧ alphas.length = s.pN ∧
      ∀ j < s.pN, alphas.getD j 0 = s.elemAt (s.cfg.suppBase.toNat + j) := by
  obtain ⟨cs, hcs⟩ := Option.isSome_iff_exists.mp (State.fmVals?_isSome.mpr h)
  obtain ⟨hlen, helem⟩ := State.maskM_of_fmVals? hcs
  refine ⟨cs.map (maskM s.field), by rw [State.support?, hcs, Option.map_some], by rw [List.length_map, hlen], ?_⟩
  intro j hj
  rw [← helem j hj, List.getD_eq_getElem _ _ (by simpa [hlen] using hj), List.getElem_map,
    List.getD_eq_getElem _ _ (hlen.symm ▸ hj)]

/-- `g(α_j)` (R180). -/
def State.goppaValue (s : State) (j : Nat) : Nat :=
  s.polyAt s.cfg.polyBase.toNat s.pT (s.elemAt (s.cfg.suppBase.toNat + j))

/-- With its inputs written, HBUILD finds the matrix of R181, and RETRY exactly for a root of g in the support. -/
theorem State.hbuild?_of_written (hcfg : FieldConfigured s) (hsupp : s.fm.Written s.cfg.suppBase.toNat s.pN)
    (hpoly : s.fm.Written s.cfg.polyBase.toNat (s.pT + 1)) :
    ∃ rows retry, s.hbuild? = some (rows, retry) ∧ (retry = true ↔ ∃ j < s.pN, s.goppaValue j = 0) ∧
      ∀ i < s.pT, ∀ b < s.pM, ∀ j < s.pN, entryOf rows (i * s.pM + b) j =
        (gfMul s.field (powRec s.field (s.elemAt (s.cfg.suppBase.toNat + j)) i)
          (powRec s.field (s.goppaValue j) (2 ^ s.pM - 2))).testBit b := by
  obtain ⟨alphas, halphas, hlen, helem⟩ := State.support?_of_written hsupp
  obtain ⟨g, hg⟩ := Option.isSome_iff_exists.mp (State.fmVals?_isSome.mpr hpoly)
  have hvalues : supportValues s.field g alphas = (List.range s.pN).map s.goppaValue := by
    refine List.ext_getElem (by simp [supportValues, hlen]) fun j hj _ => ?_
    have hj' : j < alphas.length := by simpa [supportValues] using hj
    simp only [supportValues, List.getElem_map, List.getElem_range]
    rw [State.polyEval_eq_polyAt hcfg hg, State.goppaValue, ← helem j (hlen ▸ hj'), List.getD_eq_getElem _ _ hj']
  refine ⟨_, _, by rw [State.hbuild?, halphas, State.genPoly?, hg], ?_, fun i hi b hb j hj => ?_⟩
  · simp [hvalues]
  · have hstart (j : Nat) : gfInv s.field (s.goppaValue j) = powRec s.field (s.goppaValue j) (2 ^ s.pM - 2) :=
      gfPow_eq_powRec hcfg _ _
    have hcolumns : ((supportValues s.field g alphas).map (gfInv s.field)).getD j 0 =
        powRec s.field (s.goppaValue j) (2 ^ s.pM - 2) := by
      rw [hvalues, List.getD_eq_getElem _ _ (by simpa using hj), List.getElem_map, List.getElem_map, List.getElem_range,
        hstart]
    have hrows := entryOf_hbuildRows hcfg (alphas := alphas) (vs := (supportValues s.field g alphas).map (gfInv s.field))
      hi hb (hlen.symm ▸ hj) (by simp [supportValues]) fun v hv => by
        obtain ⟨y, _, rfl⟩ := List.mem_map.mp hv
        exact gfPow_lt hcfg _ _
    rw [hcolumns, helem j hj] at hrows
    exact hrows

end

/-- Settles O22, by the entries of the matrix computed and of the one written. -/
theorem hbuildWritesTheGoppaMatrix : Obligations.HbuildWritesTheGoppaMatrix := by
  intro s hcfg hregions hsupp hpoly point g
  obtain ⟨_, hstrides, _⟩ := id hregions
  have hstride : s.nw ≤ s.cfg.hStride.toNat := hstrides (s.cfg.hStride.toNat, s.nw) (by simp)
  obtain ⟨rows, retry, hrows, hretry, hentry⟩ := State.hbuild?_of_written hcfg.1 hsupp hpoly
  have hlen := State.length_hbuild? hrows
  have heffect : hbuildEffect s = complete (if retry then .retry else .ok) (s.putH rows) := by
    rw [hbuildEffect, hrows]
  refine ⟨_, (exec_of_ok (i := .hbuild) ((blockError_eq_none s .hbuild).mpr ⟨hcfg, hregions⟩)).trans
    (congrArg _ heffect), fun hroot => ?_, fun hnone => ?_, fun i hi b hb j hj => ?_, fun r hr j hpad hj => ?_,
    fun a ha => ?_⟩
  · rw [if_pos (hretry.mpr hroot)]
    rfl
  · rw [if_neg fun h => by obtain ⟨j, hj, hzero⟩ := hretry.mp h; exact hnone j hj hzero]
    rfl
  · have hr : i * s.pM + b < s.pR := by
      calc i * s.pM + b < (i + 1) * s.pM := by rw [Nat.succ_mul]; omega
        _ ≤ s.pT * s.pM := Nat.mul_le_mul_right _ hi
        _ = s.pR := Nat.mul_comm _ _
    rw [complete_bm, State.bit?_putH hlen hr (lt_of_wordsFor_le hstride hj), decide_eq_true hj, Bool.true_and,
      hentry i hi b hb j hj]
    rfl
  · rw [complete_bm, State.bit?_putH hlen hr hj, decide_eq_false (Nat.not_lt.mpr hpad), Bool.false_and]
  · exact Mem.read?_putRows_outside _ _ _ _ _ (hlen ▸ ha)

end Sys2Proof.Machine
end

section
/-! PROOFS. Matrices over GF(2) as functions: their kernels, what the row and column operations of Gauss-Jordan elimination do
to them, and which columns lie in the span of those before them (R183). -/

namespace Sys2Proof.Machine

/-! ### Sums of truth values -/

/-- They are the sums of the ring of truth values. -/
theorem xorBits_eq_sum (f : Nat → Bool) (n : Nat) : xorBits f n = ∑ i ∈ Finset.range n, f i := by
  induction n with
  | zero => rfl
  | succ n ih => rw [Finset.sum_range_succ, ← ih]; rfl

theorem xorBits_xor (f g : Nat → Bool) (n : Nat) : xorBits (fun i => f i ^^ g i) n = (xorBits f n ^^ xorBits g n) := by
  simp only [xorBits_eq_sum]
  exact Finset.sum_add_distrib

/-- The order of the terms does not matter. -/
theorem xorBits_swapIndex (f : Nat → Bool) {a b n : Nat} (ha : a < n) (hb : b < n) :
    xorBits (fun i => f (swapIndex (a, b) i)) n = xorBits f n := by
  simp only [xorBits_eq_sum]
  refine Finset.sum_equiv (Equiv.swap a b) (fun i => ?_) fun i _ => congrArg f (Equiv.swap_apply_def a b i).symm
  rw [Finset.mem_range, Finset.mem_range, Equiv.swap_apply_def]
  split
  · omega
  · split <;> omega

/-- A sum over a beginning of the range. -/
theorem xorBits_restrict (f : Nat → Bool) {c n : Nat} (h : c ≤ n) :
    xorBits (fun i => decide (i < c) && f i) n = xorBits f c := by
  induction n with
  | zero => rw [Nat.le_zero.mp h]; rfl
  | succ n ih =>
    rcases Nat.eq_or_lt_of_le h with rfl | hlt
    · exact xorBits_congr fun i hi => by simp [hi]
    · rw [xorBits, ih (Nat.le_of_lt_succ hlt)]
      simp [Nat.not_lt.mpr (Nat.le_of_lt_succ hlt)]

/-! ### Exchanges -/

theorem swapIndex_lt {a b i n : Nat} (ha : a < n) (hb : b < n) (hi : i < n) : swapIndex (a, b) i < n := by
  unfold swapIndex
  split
  · exact hb
  · split
    · exact ha
    · exact hi

@[simp] theorem swapIndex_swapIndex (x : Nat × Nat) (i : Nat) : swapIndex x (swapIndex x i) = i := by
  have hswap (i : Nat) : swapIndex x i = Equiv.swap x.1 x.2 i := (Equiv.swap_apply_def x.1 x.2 i).symm
  rw [hswap, hswap, Equiv.swap_apply_self]

@[simp] theorem swapIndex_left (a b : Nat) : swapIndex (a, b) a = b := if_pos rfl

theorem swapIndex_of_ne {a b i : Nat} (ha : i ≠ a) (hb : i ≠ b) : swapIndex (a, b) i = i :=
  (if_neg ha).trans (if_neg hb)

/-! ### Kernels -/

/-- A matrix over GF(2). -/
abbrev BitMatrix : Type := Nat → Nat → Bool

section
variable {R N : Nat} {p q : BitMatrix}

/-- The product of row `r` with a vector. -/
def BitMatrix.dot (N : Nat) (p : BitMatrix) (v : Nat → Bool) (r : Nat) : Bool := xorBits (fun c => p r c && v c) N

/-- The vector is in the kernel of the first `R` rows. -/
def BitMatrix.Kills (R N : Nat) (p : BitMatrix) (v : Nat → Bool) : Prop := ∀ r < R, p.dot N v r = false

/-- The two matrices have one kernel. -/
def SameKernel (R N : Nat) (p q : BitMatrix) : Prop := ∀ v, p.Kills R N v ↔ q.Kills R N v

/-- The kernel depends on the entries in the matrix only. -/
theorem SameKernel.of_eq (h : ∀ r < R, ∀ c < N, p r c = q r c) : SameKernel R N p q :=
  fun v => forall₂_congr fun r hr => by
    rw [BitMatrix.dot, BitMatrix.dot, xorBits_congr fun c hc => by rw [h r hr c hc]]

theorem SameKernel.trans {p' : BitMatrix} (h : SameKernel R N p q) (h' : SameKernel R N q p') : SameKernel R N p p' :=
  fun v => (h v).trans (h' v)

/-- Two rows exchanged. -/
theorem SameKernel.swapRows {a b : Nat} (ha : a < R) (hb : b < R) :
    SameKernel R N (fun r => p (swapIndex (a, b) r)) p := by
  intro v
  constructor
  · intro h r hr
    have hrow := h _ (swapIndex_lt ha hb hr)
    rwa [BitMatrix.dot, swapIndex_swapIndex] at hrow
  · exact fun h r hr => h _ (swapIndex_lt ha hb hr)

/-- One row added to some of the others. -/
theorem SameKernel.addRow {c : Nat} (hc : c < R) (P : Nat → Prop) [DecidablePred P] (hP : ¬ P c) :
    SameKernel R N (fun r k => if P r then p r k ^^ p c k else p r k) p := by
  intro v
  have hdot (r : Nat) : BitMatrix.dot N (fun r k => if P r then p r k ^^ p c k else p r k) v r =
      if P r then p.dot N v r ^^ p.dot N v c else p.dot N v r := by
    by_cases hr : P r
    · simp only [BitMatrix.dot, if_pos hr, ← xorBits_xor, Bool.and_xor_distrib_right]
    · simp only [BitMatrix.dot, if_neg hr]
  simp only [BitMatrix.Kills, hdot]
  constructor
  · intro h r hr
    have hcc : p.dot N v c = false := by simpa [hP] using h c hc
    simpa [hcc] using h r hr
  · intro h r hr
    simp [h r hr, h c hc]

/-- The same two columns exchanged in both. -/
theorem SameKernel.swapColumns {a b : Nat} (h : SameKernel R N p q) (ha : a < N) (hb : b < N) :
    SameKernel R N (fun r k => p r (swapIndex (a, b) k)) (fun r k => q r (swapIndex (a, b) k)) := by
  have hmove (p : BitMatrix) (v : Nat → Bool) : BitMatrix.Kills R N (fun r k => p r (swapIndex (a, b) k)) v ↔
      p.Kills R N fun k => v (swapIndex (a, b) k) := by
    refine forall₂_congr fun r _ => ?_
    rw [BitMatrix.dot, BitMatrix.dot, ← xorBits_swapIndex (fun k => p r k && v (swapIndex (a, b) k)) ha hb]
    simp only [swapIndex_swapIndex]
  intro v
  rw [hmove, hmove, h]

/-! ### Dependent columns -/

/-- Column `k` of the first `R` rows is the sum of the columns below `c` that `v` names. -/
def BitMatrix.Combines (R : Nat) (p : BitMatrix) (c k : Nat) (v : Nat → Bool) : Prop :=
  ∀ r < R, p r k = xorBits (fun i => v i && p r i) c

/-- Column `k` together with the columns below `c` that `v` names. -/
def dependency (c k : Nat) (v : Nat → Bool) (i : Nat) : Bool := (decide (i < c) && v i) ^^ decide (k = i)

/-- A column is a sum of others exactly if together they are in the kernel. -/
theorem BitMatrix.kills_dependency {c k : Nat} (hc : c ≤ N) (hk : k < N) (v : Nat → Bool) :
    p.Kills R N (dependency c k v) ↔ p.Combines R c k v := by
  refine forall₂_congr fun r _ => ?_
  have hterm (i : Nat) : (p r i && dependency c k v i) =
      ((decide (i < c) && (v i && p r i)) ^^ (decide (k = i) && p r i)) := by
    rw [dependency, Bool.and_xor_distrib_left, Bool.and_comm (p r i), Bool.and_comm (p r i), Bool.and_assoc]
  rw [BitMatrix.dot]
  simp only [hterm]
  rw [xorBits_xor, xorBits_restrict _ hc, xorBits_identityRow, decide_eq_true hk, Bool.true_and, bne_eq_false_iff_eq,
    eq_comm]

/-- Matrices with one kernel have the same dependencies among their columns. -/
theorem SameKernel.combines_iff (h : SameKernel R N p q) {c k : Nat} (hc : c ≤ N) (hk : k < N) (v : Nat → Bool) :
    p.Combines R c k v ↔ q.Combines R c k v := by
  rw [← BitMatrix.kills_dependency hc hk, ← BitMatrix.kills_dependency hc hk]
  exact h _

/-- The first `c` columns are those of the identity. -/
def BitMatrix.ReducedTo (R : Nat) (p : BitMatrix) (c : Nat) : Prop := ∀ r < R, ∀ k < c, p r k = decide (r = k)

/-- Behind an identity block a column is the sum of the columns its bits name, if it has no bit below the block. -/
theorem BitMatrix.ReducedTo.combines_iff {c : Nat} (h : p.ReducedTo R c) (k : Nat) (v : Nat → Bool) :
    p.Combines R c k v ↔ ∀ r < R, p r k = (decide (r < c) && v r) := by
  refine forall₂_congr fun r hr => ?_
  rw [xorBits_congr fun i hi => by rw [h r hr i hi, Bool.and_comm], xorBits_identityRow]

/-- The reduced matrix with a given kernel is unique (R182). -/
theorem SameKernel.eq_of_reducedTo (h : SameKernel R N p q) (hp : p.ReducedTo R R) (hq : q.ReducedTo R R) (hRN : R ≤ N)
    {r k : Nat} (hr : r < R) (hk : k < N) : p r k = q r k := by
  have hpk : p.Combines R R k fun i => p i k := (hp.combines_iff k _).mpr fun i hi => by simp [hi]
  have hqk := (hq.combines_iff k _).mp ((h.combines_iff hRN hk _).mp hpk) r hr
  simpa [hr] using hqk.symm

/-! ### An independent left block -/

/-- The first `R` columns of the first `R` rows are independent. -/
def BitMatrix.LeftIndependent (R : Nat) (p : BitMatrix) : Prop := ∀ v, p.Kills R R v → ∀ c < R, v c = false

/-- None of them is a sum of those before it. -/
theorem BitMatrix.LeftIndependent.not_combines (h : p.LeftIndependent R) {c : Nat} (hc : c < R) (v : Nat → Bool) :
    ¬ p.Combines R c c v := by
  intro hv
  have hbit := h _ ((BitMatrix.kills_dependency hc.le hc v).mpr hv) c hc
  simp [dependency] at hbit

theorem BitMatrix.ReducedTo.leftIndependent (h : p.ReducedTo R R) : p.LeftIndependent R := by
  intro v hv c hc
  have hdot := hv c hc
  rw [BitMatrix.dot, xorBits_congr fun i hi => by rw [h c hc i hi], xorBits_identityRow, decide_eq_true hc,
    Bool.true_and] at hdot
  exact hdot

/-- A vector is in the kernel of the left block exactly if it is in the whole matrix's, zero from column R on. -/
theorem BitMatrix.kills_left (hRN : R ≤ N) (v : Nat → Bool) :
    p.Kills R N (fun i => decide (i < R) && v i) ↔ p.Kills R R v := by
  refine forall₂_congr fun r _ => ?_
  rw [BitMatrix.dot, BitMatrix.dot, ← xorBits_restrict _ hRN, xorBits_congr fun c _ => Bool.and_left_comm _ _ _]

theorem SameKernel.leftIndependent (h : SameKernel R N p q) (hRN : R ≤ N) (hp : p.LeftIndependent R) :
    q.LeftIndependent R := by
  intro v hv
  rw [← BitMatrix.kills_left hRN, ← h, BitMatrix.kills_left hRN] at hv
  exact hp v hv

end

end Sys2Proof.Machine
end

section
/-! PROOFS. The steps of GAUSS (R183, R184): what each does to the entries of the matrix, and what it finds or fails to find. -/

namespace Sys2Proof.Machine

/-! ### Operations on rows and columns -/

theorem testBit_swapColumns (c j row k : Nat) : (swapColumns c j row).testBit k = row.testBit (swapIndex (c, j) k) := by
  by_cases heq : row.testBit c = row.testBit j
  · rw [swapColumns, if_pos heq]
    unfold swapIndex
    split
    · next hc => rw [hc, heq]
    · split
      · next hj => rw [hj, heq]
      · rfl
  · have hcj : c ≠ j := fun h => heq (by rw [h])
    rw [swapColumns, if_neg heq]
    simp only [Nat.testBit_xor, Nat.one_shiftLeft, Nat.testBit_two_pow]
    unfold swapIndex
    split
    · next hc =>
      subst hc
      simp only [decide_true, hcj.symm, decide_false, Bool.xor_true, Bool.xor_false]
      exact Bool.not_eq.mpr heq
    · next hc =>
      split
      · next hj =>
        subst hj
        simp only [decide_true, hcj, decide_false, Bool.xor_true, Bool.xor_false]
        exact Bool.not_eq.mpr (Ne.symm heq)
      · next hj => simp [Ne.symm hc, Ne.symm hj]

theorem entryOf_map_swapColumns (rows : List Nat) (c j r k : Nat) :
    entryOf (rows.map (swapColumns c j)) r k = entryOf rows r (swapIndex (c, j) k) := by
  by_cases hr : r < rows.length
  · simp [entryOf, hr, testBit_swapColumns]
  · simp [entryOf, Nat.not_lt.mp hr]

theorem entryOf_swapRows (rows : List Nat) {c p : Nat} (hc : c < rows.length) (hp : p < rows.length) (r k : Nat) :
    entryOf (swapRows rows c p) r k = entryOf rows (swapIndex (c, p) r) k := by
  have hrow : (swapRows rows c p).getD r 0 = rows.getD (swapIndex (c, p) r) 0 := by
    simp only [swapRows, List.getD_eq_getElem?_getD, List.getElem?_set, List.length_set, hc, hp, if_true, swapIndex]
    by_cases hrp : p = r
    · by_cases hrc : r = c <;> simp [hrp, hrc]
    · by_cases hrc : c = r
      · simp [hrp, hrc]
      · simp [hrp, hrc, Ne.symm hrp, Ne.symm hrc]
  rw [entryOf, hrow, entryOf]

/-- Row `c` is added to every other row with a bit in column `c`. -/
theorem entryOf_clearColumn (rows : List Nat) (c r k : Nat) : entryOf (clearColumn rows c) r k =
    if r ≠ c ∧ entryOf rows r c = true then entryOf rows r k ^^ entryOf rows c k else entryOf rows r k := by
  unfold entryOf clearColumn
  by_cases hr : r < rows.length
  · simp only [List.getD_eq_getElem?_getD, List.getElem?_mapIdx, List.getElem?_eq_getElem hr, Option.map_some,
      Option.getD_some]
    split
    · exact Nat.testBit_xor _ _ _
    · rfl
  · simp [List.getD_eq_getElem?_getD, Nat.not_lt.mp hr]

/-! ### Looking for a pivot -/

theorem pivotRow?_eq_find (rows : List Nat) (c col : Nat) :
    pivotRow? rows c col = (List.range' c (rows.length - c)).find? fun r => entryOf rows r col := by
  rw [pivotRow?, List.range_eq_range', List.drop_range', Nat.zero_add, Nat.mul_one]
  rfl

theorem pivotRow?_eq_none {rows : List Nat} {c col : Nat} :
    pivotRow? rows c col = none ↔ ∀ r < rows.length, c ≤ r → entryOf rows r col = false := by
  simp only [pivotRow?_eq_find, List.find?_range'_eq_none, Bool.not_eq_true']
  exact ⟨fun h r hr hc => h r hc (by omega), fun h r hc hr => h r (by omega) hc⟩

theorem pivotRow?_eq_some {rows : List Nat} {c col p : Nat} (h : pivotRow? rows c col = some p) :
    c ≤ p ∧ p < rows.length ∧ entryOf rows p col = true := by
  rw [pivotRow?_eq_find, List.find?_range'_eq_some] at h
  obtain ⟨hp, hmem, _⟩ := h
  rw [List.mem_range'_1] at hmem
  exact ⟨by omega, by omega, hp⟩

/-- A swap of columns `c` and `j` (R184). -/
def Elimination.exchange (e : Elimination) (c j : Nat) : Elimination :=
  { rows := e.rows.map (swapColumns c j), swaps := e.swaps ++ [(c, j)] }

theorem pivotRow?_exchange (e : Elimination) (c j k : Nat) :
    pivotRow? (e.exchange c j).rows c k = pivotRow? e.rows c (swapIndex (c, j) k) := by
  simp only [pivotRow?_eq_find, Elimination.exchange, List.length_map, entryOf_map_swapColumns]

/-- A swap is allowed, and column `j` is the least one of column `c`'s window that has a pivot (R184). -/
structure Elimination.Finds (pv : Pivoting) (c : Nat) (e : Elimination) (j : Nat) : Prop where
  enabled : pv.enabled = true
  room : e.swaps.length ≠ pv.maxSwaps
  after : c < j
  inWindow : j ≤ min (c + pv.window) (pv.columns - 1)
  pivot : (pivotRow? e.rows c j).isSome = true
  least : ∀ k, c < k → k < j → pivotRow? e.rows c k = none

theorem pivotSearch_eq_some {pv : Pivoting} {c : Nat} {e e' : Elimination} (h : pivotSearch pv c e = some e') :
    ∃ j, e.Finds pv c j ∧ e' = e.exchange c j := by
  unfold pivotSearch at h
  split at h
  · simp at h
  · next hon =>
    simp only [Bool.or_eq_true, Bool.not_eq_true', beq_iff_eq, not_or, Bool.not_eq_false] at hon
    split at h
    · simp at h
    · next j hj =>
      obtain ⟨hpivot, hmem, hleast⟩ := List.find?_range'_eq_some.mp hj
      rw [List.mem_range'_1] at hmem
      exact ⟨j, ⟨hon.1, hon.2, by omega, by omega, hpivot, fun k hck hkj => by simpa using hleast k hck hkj⟩,
        (Option.some.inj h).symm⟩

/-- The search fails with pivoting off, PIV_MAX swaps used, or no pivot in the window (R184). -/
theorem pivotSearch_eq_none {pv : Pivoting} {c : Nat} {e : Elimination} : pivotSearch pv c e = none ↔
    pv.enabled = false ∨ e.swaps.length = pv.maxSwaps ∨
      ∀ j, c < j → j ≤ min (c + pv.window) (pv.columns - 1) → pivotRow? e.rows c j = none := by
  have hwindow : ((List.range' (c + 1) (min (c + pv.window) (pv.columns - 1) - c)).find?
      fun j => (pivotRow? e.rows c j).isSome) = none ↔
      ∀ j, c < j → j ≤ min (c + pv.window) (pv.columns - 1) → pivotRow? e.rows c j = none := by
    simp only [List.find?_range'_eq_none, Bool.not_eq_true', Option.isSome_eq_false_iff, Option.isNone_iff_eq_none]
    exact ⟨fun h j hcj hj => h j hcj (by omega), fun h j hcj hj => h j hcj (by omega)⟩
  rw [← hwindow]
  unfold pivotSearch
  split
  · next hoff =>
    simp only [Bool.or_eq_true, Bool.not_eq_true', beq_iff_eq] at hoff
    simp only [true_iff]
    tauto
  · next hon =>
    simp only [Bool.or_eq_true, Bool.not_eq_true', beq_iff_eq, not_or] at hon
    simp only [hon, Bool.true_eq_false, false_or]
    generalize List.find? _ _ = found
    cases found <;> simp

/-! ### A column's turn -/

/-- With a pivot the column stays; without one it is exchanged with the column found. -/
theorem findPivot_eq_some {pv : Pivoting} {c : Nat} {e e' : Elimination} (h : findPivot pv c e = some e') :
    (e' = e ∧ (pivotRow? e.rows c c).isSome = true) ∨
    (pivotRow? e.rows c c = none ∧ ∃ j, e.Finds pv c j ∧ e' = e.exchange c j) := by
  unfold findPivot at h
  split at h
  · next hpivot => exact .inl ⟨(Option.some.inj h).symm, hpivot⟩
  · next hpivot => exact .inr ⟨by simpa using hpivot, pivotSearch_eq_some h⟩

/-- Either way the column has a pivot then. -/
theorem pivotRow?_of_findPivot {pv : Pivoting} {c : Nat} {e e' : Elimination} (h : findPivot pv c e = some e') :
    (pivotRow? e'.rows c c).isSome = true := by
  rcases findPivot_eq_some h with ⟨rfl, hpivot⟩ | ⟨_, j, hfinds, rfl⟩
  · exact hpivot
  · rw [pivotRow?_exchange, swapIndex_left]
    exact hfinds.pivot

/-- A column's turn fails only if the column has no pivot and the search finds no other. -/
theorem eliminateColumn_eq_none {pv : Pivoting} {c : Nat} {e : Elimination} (h : eliminateColumn pv c e = none) :
    pivotRow? e.rows c c = none ∧ pivotSearch pv c e = none := by
  cases hfind : findPivot pv c e with
  | some e' =>
    have hpivot := pivotRow?_of_findPivot hfind
    rw [eliminateColumn, hfind, Option.bind_some, reduceColumn, Option.map_eq_none_iff] at h
    simp [h] at hpivot
  | none =>
    unfold findPivot at hfind
    split at hfind
    · simp at hfind
    · next hpivot => exact ⟨by simpa using hpivot, hfind⟩

/-- How an elimination up to column `last` may stop before column `stop`. -/
inductive GaussEnd.StopsAt (pv : Pivoting) (last : Nat) : GaussEnd → Nat → Prop
  | reduced (e : Elimination) : StopsAt pv last (.reduced e) last
  | singular {e : Elimination} {stop : Nat} (hlt : stop < last) (hnone : eliminateColumn pv stop e = none) :
      StopsAt pv last (.singular e) stop

/-- What every column's turn keeps holds where the elimination stops. -/
theorem eliminate_induction {pv : Pivoting} {last : Nat} {I : Nat → Elimination → Prop}
    (hstep : ∀ c < last, ∀ e e', I c e → eliminateColumn pv c e = some e' → I (c + 1) e') {count c : Nat}
    {e : Elimination} (hlast : c + count = last) (h : I c e) :
    ∃ stop, (eliminate pv count c e).StopsAt pv last stop ∧ I stop (eliminate pv count c e).elimination := by
  induction count generalizing c e with
  | zero => exact ⟨c, by subst hlast; exact .reduced e, h⟩
  | succ count ih =>
    rw [eliminate]
    split
    · next hnone => exact ⟨c, .singular (by omega) hnone, h⟩
    · next e' hsome => exact ih (by omega) (hstep c (by omega) e e' h hsome)

end Sys2Proof.Machine
end

section
/-! PROOFS. What an elimination keeps, column by column (R183, R184): the kernel of the permuted entry matrix, the identity block
so far, and that its swaps are those the rule asks for. -/

namespace Sys2Proof.Machine

section
variable {s : State} {pv : Pivoting} {c : Nat} {e e' : Elimination}

/-! ### The matrix -/

/-- Before column `c` the matrix has the kernel of the permuted entry matrix, and its first `c` columns are reduced. -/
structure Elimination.Reduces (s : State) (c : Nat) (e : Elimination) : Prop where
  length : e.rows.length = s.pR
  kernel : SameKernel s.pR s.pN (entryOf e.rows) (s.permutedBit e.swaps)
  reduced : BitMatrix.ReducedTo s.pR (entryOf e.rows) c

/-- A column of the permuted entry matrix is in the span of those before column `c` exactly if the matrix has no bit of it
in rows `c …` (R183's note). -/
theorem Elimination.Reduces.inSpan_iff (h : e.Reduces s c) (hc : c ≤ s.pN) {k : Nat} (hk : k < s.pN) :
    s.InSpan e.swaps c k ↔ pivotRow? e.rows c k = none := by
  have hspan : s.InSpan e.swaps c k ↔ ∃ v : Nat → Bool, ∀ r < s.pR, entryOf e.rows r k = (decide (r < c) && v r) :=
    exists_congr fun v => ((h.kernel.combines_iff hc hk v).symm.trans (h.reduced.combines_iff k v))
  rw [hspan, pivotRow?_eq_none, h.length]
  constructor
  · rintro ⟨v, hv⟩ r hr hcr
    simp [hv r hr, Nat.not_lt.mpr hcr]
  · refine fun hzero => ⟨fun r => entryOf e.rows r k, fun r hr => ?_⟩
    by_cases hrc : r < c
    · simp [hrc]
    · simp [hrc, hzero r hr (Nat.not_lt.mp hrc)]

/-- A swap with a later column keeps the block and permutes the kernel. -/
theorem Elimination.Reduces.exchange (h : e.Reduces s c) {j : Nat} (hcj : c < j) (hj : j < s.pN) :
    (e.exchange c j).Reduces s c where
  length := by rw [Elimination.exchange, List.length_map, h.length]
  kernel := by
    have hswap := h.kernel.swapColumns (hcj.trans hj) hj
    have hrows : entryOf (e.exchange c j).rows = fun r k => entryOf e.rows r (swapIndex (c, j) k) :=
      funext₂ fun r k => entryOf_map_swapColumns e.rows c j r k
    have hsource : s.permutedBit (e.exchange c j).swaps = fun r k => s.permutedBit e.swaps r (swapIndex (c, j) k) :=
      funext₂ fun r k => by rw [State.permutedBit, Elimination.exchange, sourceColumn_concat, State.permutedBit]
    rwa [hrows, hsource]
  reduced := fun r hr k hk => by
    rw [Elimination.exchange, entryOf_map_swapColumns, swapIndex_of_ne (by omega) (by omega), h.reduced r hr k hk]

theorem Elimination.Reduces.findPivot (h : e.Reduces s c) (hN : pv.columns = s.pN) (hc : c < s.pN)
    (hfind : findPivot pv c e = some e') : e'.Reduces s c := by
  rcases findPivot_eq_some hfind with ⟨rfl, _⟩ | ⟨_, j, hfinds, rfl⟩
  · exact h
  · have hj := hfinds.inWindow
    exact h.exchange hfinds.after (by omega)

/-- The pivot row brought to row `c` still leaves the block, and has its bit in column `c`. -/
theorem reducedTo_swapRows {rows : List Nat} {R p : Nat} (h : BitMatrix.ReducedTo R (entryOf rows) c)
    (hlen : rows.length = R) (hcp : c ≤ p) (hp : p < R) (hbit : entryOf rows p c = true) :
    BitMatrix.ReducedTo R (entryOf (swapRows rows c p)) c ∧ entryOf (swapRows rows c p) c c = true := by
  have hc : c < R := Nat.lt_of_le_of_lt hcp hp
  have hentry := entryOf_swapRows rows (hlen.symm ▸ hc) (hlen.symm ▸ hp)
  refine ⟨fun r hr k hk => ?_, by rw [hentry, swapIndex_left, hbit]⟩
  have hsame : swapIndex (c, p) r = k ↔ r = k := by
    unfold swapIndex
    split
    · omega
    · split <;> omega
  rw [hentry, h _ (swapIndex_lt hc hp hr) k hk]
  exact decide_eq_decide.mpr hsame

/-- Clearing the rest of column `c` extends the block by it. -/
theorem reducedTo_clearColumn {rows : List Nat} {R : Nat} (h : BitMatrix.ReducedTo R (entryOf rows) c) (hc : c < R)
    (hbit : entryOf rows c c = true) : BitMatrix.ReducedTo R (entryOf (clearColumn rows c)) (c + 1) := by
  intro r hr k hk
  rw [entryOf_clearColumn]
  rcases Nat.lt_succ_iff_lt_or_eq.mp hk with hlt | rfl
  · have hpivotRow : entryOf rows c k = false := by
      rw [h c hc k hlt]
      exact decide_eq_false (by omega)
    rw [hpivotRow, Bool.xor_false, ite_self, h r hr k hlt]
  · by_cases hrk : r = k
    · simp [hrk, hbit]
    · cases hrow : entryOf rows r k <;> simp [hrk, hbit]

theorem Elimination.Reduces.reduceColumn (h : e.Reduces s c) (hreduce : reduceColumn c e = some e') :
    e'.Reduces s (c + 1) ∧ e'.swaps = e.swaps := by
  obtain ⟨p, hpivot, rfl⟩ := Option.map_eq_some_iff.mp hreduce
  obtain ⟨hcp, hp, hbit⟩ := pivotRow?_eq_some hpivot
  have hp' : p < s.pR := h.length ▸ hp
  have hc : c < s.pR := Nat.lt_of_le_of_lt hcp hp'
  obtain ⟨hblock, hdiag⟩ := reducedTo_swapRows h.reduced h.length hcp hp' hbit
  have hswap : SameKernel s.pR s.pN (entryOf (swapRows e.rows c p)) (entryOf e.rows) := by
    have hentry : entryOf (swapRows e.rows c p) = fun r => entryOf e.rows (swapIndex (c, p) r) :=
      funext₂ fun r k => entryOf_swapRows e.rows (Nat.lt_of_le_of_lt hcp hp) hp r k
    rw [hentry]
    exact .swapRows hc hp'
  have hclear : SameKernel s.pR s.pN (entryOf (clearColumn (swapRows e.rows c p) c)) (entryOf (swapRows e.rows c p)) := by
    have hentry : entryOf (clearColumn (swapRows e.rows c p) c) = _ := funext₂ fun r k => entryOf_clearColumn _ c r k
    rw [hentry]
    exact .addRow hc _ (by simp)
  exact ⟨⟨by rw [length_clearColumn, length_swapRows, h.length], (hclear.trans hswap).trans h.kernel,
    reducedTo_clearColumn hblock hc hdiag⟩, rfl⟩

/-! ### The swaps -/

/-- Where the search for column `c` ends (R184). -/
def State.lastOfWindow (s : State) (c : Nat) : Nat := min (c + s.pivW) (s.pN - 1)

/-- The swaps before column `stop` are those R184 makes: at a column in the span of those before it, with the least column
of the window outside that span. -/
structure State.FollowsPivotRule (s : State) (stop : Nat) (swaps : List (Nat × Nat)) : Prop where
  ordered : swaps.Pairwise fun x y => x.1 < y.1
  swapped : ∀ x ∈ swaps, x.1 < stop ∧ x.1 < x.2 ∧ x.2 ≤ s.lastOfWindow x.1 ∧
    s.InSpan (swapsBefore swaps x.1) x.1 x.1 ∧ ¬ s.InSpan (swapsBefore swaps x.1) x.1 x.2 ∧
    ∀ k, x.1 < k → k < x.2 → s.InSpan (swapsBefore swaps x.1) x.1 k
  kept : ∀ c < stop, (∀ x ∈ swaps, x.1 ≠ c) → ¬ s.InSpan (swapsBefore swaps c) c c

theorem State.FollowsPivotRule.nil (s : State) : s.FollowsPivotRule 0 [] := ⟨.nil, by simp, by simp⟩

/-- A column outside the span needs no swap. -/
theorem State.FollowsPivotRule.keep {swaps : List (Nat × Nat)} (h : s.FollowsPivotRule c swaps)
    (hout : ¬ s.InSpan swaps c c) : s.FollowsPivotRule (c + 1) swaps where
  ordered := h.ordered
  swapped := fun x hx => ⟨Nat.lt_succ_of_lt (h.swapped x hx).1, (h.swapped x hx).2⟩
  kept := fun k hk hnone => by
    rcases Nat.lt_succ_iff_lt_or_eq.mp hk with hlt | rfl
    · exact h.kept k hlt hnone
    · rwa [swapsBefore_eq_self fun x hx => (h.swapped x hx).1]

/-- A column inside the span is swapped. -/
theorem State.FollowsPivotRule.swap {swaps : List (Nat × Nat)} (h : s.FollowsPivotRule c swaps) {j : Nat} (hcj : c < j)
    (hj : j ≤ s.lastOfWindow c) (hin : s.InSpan swaps c c) (hout : ¬ s.InSpan swaps c j)
    (hleast : ∀ k, c < k → k < j → s.InSpan swaps c k) : s.FollowsPivotRule (c + 1) (swaps ++ [(c, j)]) where
  ordered := List.pairwise_append.mpr ⟨h.ordered, List.pairwise_singleton _ _, fun x hx y hy => by
    rw [List.mem_singleton.mp hy]
    exact (h.swapped x hx).1⟩
  swapped := fun x hx => by
    rcases List.mem_append.mp hx with hold | hnew
    · obtain ⟨hlt, hrule⟩ := h.swapped x hold
      rw [swapsBefore_concat_of_le swaps hlt.le]
      exact ⟨Nat.lt_succ_of_lt hlt, hrule⟩
    · rw [List.mem_singleton.mp hnew, swapsBefore_concat_of_le swaps (Nat.le_refl c),
        swapsBefore_eq_self fun x hx => (h.swapped x hx).1]
      exact ⟨Nat.lt_succ_self c, hcj, hj, hin, hout, hleast⟩
  kept := fun k hk hnone => by
    have hne : c ≠ k := hnone (c, j) (by simp)
    rw [swapsBefore_concat_of_le swaps (by simp only; omega)]
    exact h.kept k (by omega) fun x hx => hnone x (List.mem_append_left _ hx)

theorem State.FollowsPivotRule.findPivot (h : s.FollowsPivotRule c e.swaps) (hred : e.Reduces s c) (hc : c < s.pN)
    (hfind : findPivot s.pivoting c e = some e') : s.FollowsPivotRule (c + 1) e'.swaps := by
  have hspan {k : Nat} (hk : k < s.pN) := hred.inSpan_iff hc.le hk
  have hout {k : Nat} (hk : k < s.pN) (hpivot : (pivotRow? e.rows c k).isSome = true) : ¬ s.InSpan e.swaps c k := by
    rw [hspan hk]
    exact Option.isSome_iff_ne_none.mp hpivot
  rcases findPivot_eq_some hfind with ⟨rfl, hpivot⟩ | ⟨hnone, j, hfinds, rfl⟩
  · exact h.keep (hout hc hpivot)
  · obtain ⟨_, _, hcj, hwindow, hpivot, hleast⟩ := hfinds
    have hj : j < s.pN := by
      simp only [State.pivoting] at hwindow
      omega
    exact h.swap hcj hwindow ((hspan hc).mpr hnone) (hout hj hpivot) fun k hck hkj =>
      (hspan (hkj.trans hj)).mpr (hleast k hck hkj)

/-! ### The whole elimination -/

/-- What an elimination keeps. -/
structure Elimination.Sound (s : State) (c : Nat) (e : Elimination) : Prop where
  reduces : e.Reduces s c
  follows : s.FollowsPivotRule c e.swaps

theorem Elimination.Sound.eliminateColumn (h : e.Sound s c) (hc : c < s.pN)
    (helim : eliminateColumn s.pivoting c e = some e') : e'.Sound s (c + 1) := by
  obtain ⟨e₁, hfind, hreduce⟩ := Option.bind_eq_some_iff.mp helim
  obtain ⟨hreduces, hswaps⟩ := (h.reduces.findPivot rfl hc hfind).reduceColumn hreduce
  exact ⟨hreduces, hswaps ▸ h.follows.findPivot h.reduces hc hfind⟩

/-- The entry matrix, before the first column. -/
theorem Elimination.sound_start {rows : List Nat}
    (h : s.bm.readRows? s.cfg.hStride.toNat s.pN s.cfg.hBase.toNat s.pR = some rows) :
    Elimination.Sound s 0 { rows := rows, swaps := [] } where
  reduces := {
    length := length_of_readRows? h
    kernel := .of_eq fun r hr k hk => by
      rw [State.permutedBit_nil, Mem.bitOf, Mem.bit?_of_readRows? h hr hk, Option.getD_some]
    reduced := fun _ _ _ hk => absurd hk (Nat.not_lt_zero _) }
  follows := .nil s

/-- How GAUSS ends (R182): sound before the column where it stops. -/
theorem State.gauss?_of_written (hlt : s.pR < s.pN)
    (h : s.bm.RowsWritten s.cfg.hBase.toNat s.cfg.hStride.toNat s.pR s.pN) :
    ∃ r stop, s.gauss? = some r ∧ r.StopsAt s.pivoting s.pR stop ∧ r.elimination.Sound s stop := by
  obtain ⟨rows, hrows⟩ := Option.isSome_iff_exists.mp (Mem.readRows?_isSome.mpr h)
  obtain ⟨stop, hstops, hsound⟩ := eliminate_induction (I := fun c e => e.Sound s c)
    (fun c hc _ _ hs helim => hs.eliminateColumn (hc.trans hlt) helim) (Nat.zero_add _) (Elimination.sound_start hrows)
  exact ⟨_, stop, by rw [State.gauss?, hrows, Option.map_some], hstops, hsound⟩

end

end Sys2Proof.Machine
end

section
/-! PROOFS. GAUSS as a command (R182 to R184): the support and the swap log after its swaps, the H region at either end, and with
that O23 and O24. -/

namespace Sys2Proof.Machine

/-! ### The support and the swap log -/

/-- One exchange of support words, with its log entry at `log` (R184). -/
def Mem.exchange (fm : Mem 16) (supp log : Nat) (x : Nat × Nat) (a b : FWord) : Mem 16 :=
  (((fm.write (supp + x.1) b).write (supp + x.2) a).write log (zext16 x.1)).write (log + 1) (zext16 x.2)

theorem applySwaps_cons {supp perm n : Nat} {x : Nat × Nat} {fm : Mem 16} {a b : FWord} (rest : List (Nat × Nat))
    (ha : fm.read? (supp + x.1) = some a) (hb : fm.read? (supp + x.2) = some b) :
    applySwaps supp perm n (x :: rest) fm = applySwaps supp perm (n + 1) rest (fm.exchange supp (perm + 2 * n) x a b) := by
  rw [applySwaps, ha, hb]
  rfl

theorem Mem.read?_exchange {supp log : Nat} {x : Nat × Nat} {fm : Mem 16} {a b : FWord}
    (ha : fm.read? (supp + x.1) = some a) (hb : fm.read? (supp + x.2) = some b) {i : Nat} (hlog : supp + i ≠ log)
    (hlog' : supp + i ≠ log + 1) : (fm.exchange supp log x a b).read? (supp + i) = fm.read? (supp + swapIndex x i) := by
  rw [Mem.exchange, Mem.read?_write_other _ _ hlog', Mem.read?_write_other _ _ hlog, Mem.read?_write, Mem.read?_write]
  simp only [Nat.add_left_cancel_iff, swapIndex]
  by_cases h1 : i = x.1
  · by_cases h2 : i = x.2
    · rw [if_pos h2, if_pos h1, ← h2, h1, ha]
    · rw [if_neg h2, if_pos h1, if_pos h1, hb]
  · by_cases h2 : i = x.2
    · rw [if_pos h2, if_neg h1, if_pos h2, ha]
    · rw [if_neg h2, if_neg h1, if_neg h1, if_neg h2]

/-- What the swaps of a GAUSS make of FM: a support of `cols` words permuted with the columns, and the log from `log` on. -/
structure SwapsApplied (supp log cols : Nat) (swaps : List (Nat × Nat)) (fm fm' : Mem 16) : Prop where
  logged : ∀ k x, swaps[k]? = some x → fm'.read? (log + 2 * k) = some (BitVec.ofNat 16 x.1) ∧
    fm'.read? (log + 2 * k + 1) = some (BitVec.ofNat 16 x.2)
  permuted : ∀ i < cols, fm'.read? (supp + i) = fm.read? (supp + sourceColumn swaps i)
  frame : ∀ a, a < supp ∨ supp + cols ≤ a → a < log ∨ log + 2 * swaps.length ≤ a → fm'.read? a = fm.read? a

theorem SwapsApplied.nil (supp log cols : Nat) (fm : Mem 16) : SwapsApplied supp log cols [] fm fm :=
  ⟨by simp, fun _ _ => rfl, fun _ _ _ => rfl⟩

/-- The words the swaps write, as two runs. -/
theorem not_mem_swapAddrs {supp log cols a : Nat} {swaps : List (Nat × Nat)}
    (hcols : ∀ x ∈ swaps, x.1 < cols ∧ x.2 < cols) (hsupp : a < supp ∨ supp + cols ≤ a)
    (hlog : a < log ∨ log + 2 * swaps.length ≤ a) : a ∉ swapAddrs supp log swaps := by
  simp only [swapAddrs, List.mem_append, List.mem_flatMap, List.mem_cons, List.not_mem_nil, or_false,
    List.mem_range'_1, not_or, not_exists, not_and]
  refine ⟨fun x hx => ?_, by omega⟩
  obtain ⟨h1, h2⟩ := hcols x hx
  omega

theorem sourceColumn_lt {cols : Nat} {swaps : List (Nat × Nat)} (hcols : ∀ x ∈ swaps, x.1 < cols ∧ x.2 < cols) {i : Nat}
    (hi : i < cols) : sourceColumn swaps i < cols := by
  induction swaps with
  | nil => exact hi
  | cons x rest ih =>
    obtain ⟨h1, h2⟩ := hcols x (by simp)
    exact swapIndex_lt h1 h2 (ih fun y hy => hcols y (by simp [hy]))

/-- Over a written support, apart from the log, every swap is made (R86, R184). -/
theorem applySwaps_of_written {supp perm cols total n : Nat} {swaps : List (Nat × Nat)} {fm : Mem 16}
    (hwritten : fm.Written supp cols) (hcols : ∀ x ∈ swaps, x.1 < cols ∧ x.2 < cols) (htotal : n + swaps.length ≤ total)
    (hapart : ∀ i < cols, supp + i < perm ∨ perm + 2 * total ≤ supp + i) :
    ∃ fm', applySwaps supp perm n swaps fm = some fm' ∧ SwapsApplied supp (perm + 2 * n) cols swaps fm fm' := by
  induction swaps generalizing n fm with
  | nil => exact ⟨fm, rfl, .nil _ _ _ _⟩
  | cons x rest ih =>
    obtain ⟨hc, hj⟩ := hcols x (by simp)
    have hrest : ∀ y ∈ rest, y.1 < cols ∧ y.2 < cols := fun y hy => hcols y (by simp [hy])
    have hroom : n + 1 + rest.length ≤ total := by
      rw [List.length_cons] at htotal
      omega
    obtain ⟨a, ha⟩ := Option.isSome_iff_exists.mp (hwritten x.1 hc)
    obtain ⟨b, hb⟩ := Option.isSome_iff_exists.mp (hwritten x.2 hj)
    have hone {i : Nat} (hi : i < cols) : (fm.exchange supp (perm + 2 * n) x a b).read? (supp + i) =
        fm.read? (supp + swapIndex x i) := by
      have := hapart i hi
      exact Mem.read?_exchange ha hb (by omega) (by omega)
    obtain ⟨fm', hfm', happlied⟩ := ih (n := n + 1) (fm := fm.exchange supp (perm + 2 * n) x a b)
      (fun i hi => by rw [hone hi]; exact hwritten _ (swapIndex_lt hc hj hi)) hrest hroom
    have hall := (applySwaps_cons (n := n) (perm := perm) rest ha hb).trans hfm'
    have hkeep {k : Nat} (hk : k < 2) : fm'.read? (perm + 2 * n + k) =
        (fm.exchange supp (perm + 2 * n) x a b).read? (perm + 2 * n + k) := by
      refine applySwaps_frame hfm' _ (not_mem_swapAddrs hrest ?_ (.inl (by omega)))
      by_contra hin
      have := hapart (perm + 2 * n + k - supp) (by omega)
      omega
    refine ⟨fm', hall, fun k y hy => ?_, fun i hi => ?_, fun a hsupp hlog =>
      applySwaps_frame hall a (not_mem_swapAddrs hcols hsupp hlog)⟩
    · cases k with
      | zero =>
        obtain rfl : x = y := by simpa using hy
        refine ⟨(hkeep (k := 0) (by omega)).trans ?_, (hkeep (k := 1) (by omega)).trans (Mem.read?_write_self _ _ _)⟩
        exact (Mem.read?_write_other _ _ (by omega)).trans (Mem.read?_write_self _ _ _)
      | succ k =>
        have hnext := happlied.logged k y (by simpa using hy)
        rwa [show perm + 2 * (n + 1) + 2 * k = perm + 2 * n + 2 * (k + 1) by omega] at hnext
    · rw [happlied.permuted i hi, hone (sourceColumn_lt hrest hi)]
      rfl

section
variable {s : State}

/-- A GAUSS whose support is written where pivoting is on makes all its swaps. -/
theorem gauss_applySwaps (hc : blockError s .gauss = none)
    (hsupp : s.cfg.pivotEn = true → s.fm.Written s.cfg.suppBase.toNat s.pN) {e : Elimination}
    (he : e.SwapsOk s.pivoting) :
    ∃ fm, applySwaps s.cfg.suppBase.toNat s.cfg.permBase.toNat 0 e.swaps s.fm = some fm ∧
      SwapsApplied s.cfg.suppBase.toNat s.cfg.permBase.toNat s.pN e.swaps s.fm fm := by
  obtain ⟨hcols, hmax, hoff⟩ := he
  cases hp : s.cfg.pivotEn with
  | false =>
    rw [hoff hp]
    exact ⟨s.fm, rfl, .nil _ _ _ _⟩
  | true =>
    obtain ⟨_, _, _, _, hapart⟩ := (blockError_eq_none s .gauss).mp hc
    simp only [footprint, hp, if_true, List.pairwise_cons, List.mem_cons, List.not_mem_nil, or_false] at hapart
    have hSP : s.suppRegion.Apart s.permRegion := hapart.2.1 _ rfl
    refine applySwaps_of_written (n := 0) (total := s.pivMax) (hsupp hp) hcols ((Nat.zero_add _).trans_le hmax)
      fun i hi => ?_
    by_contra hin
    have hsame := hSP .fm (s.cfg.suppBase.toNat + i)
    simp only [Region.Has, State.suppRegion, State.permRegion, true_and] at hsame
    omega

/-! ### The end of a GAUSS -/

theorem gaussEffect_of_swaps {r : GaussEnd} {fm : Mem 16} (hr : s.gauss? = some r)
    (hfm : applySwaps s.cfg.suppBase.toNat s.cfg.permBase.toNat 0 r.elimination.swaps s.fm = some fm) :
    gaussEffect s = gaussFinish r { s with fm := fm } := by
  rw [gaussEffect, hr]
  simp only [hfm]

/-- Draws in BM change it and the draw count only. -/
theorem State.drawBm_eq (as : List Nat) (s : State) :
    s.drawBm as = { s with bm := (s.drawBm as).bm, drawNo := (s.drawBm as).drawNo } := by
  induction as generalizing s with
  | nil => rfl
  | cons a as ih => exact ih _

@[simp] theorem gaussFinish_permCnt (r : GaussEnd) (s : State) :
    (gaussFinish r s).permCnt = BitVec.ofNat 16 r.elimination.swaps.length := by
  cases r with
  | reduced e => rfl
  | singular e => exact State.drawBm_permCnt _ _

theorem gaussFinish_reduced (e : Elimination) (s : State) : gaussFinish (.reduced e) s =
    { s.finished .ok with permCnt := BitVec.ofNat 16 e.swaps.length, bm := (s.putH e.rows).bm } := rfl

theorem gaussFinish_singular (e : Elimination) (s : State) : gaussFinish (.singular e) s =
    { s.finished .retry with
      permCnt := BitVec.ofNat 16 e.swaps.length, bm := (gaussFinish (.singular e) s).bm
      drawNo := (gaussFinish (.singular e) s).drawNo } := by
  simp only [gaussFinish]
  rw [State.drawBm_eq]
  rfl

/-! ### Where the elimination stops -/

/-- Where a GAUSS stops short, the column lies in the span of those before it, and no swap is left (R184). -/
theorem Elimination.Sound.inSpan_of_stuck {e : Elimination} {stop : Nat} (h : e.Sound s stop) (hlt : stop < s.pN)
    (hnone : Machine.eliminateColumn s.pivoting stop e = none) :
    s.InSpan e.swaps stop stop ∧ (s.cfg.pivotEn = false ∨ e.swaps.length = s.pivMax ∨
      ∀ j, stop < j → j ≤ s.lastOfWindow stop → s.InSpan e.swaps stop j) := by
  obtain ⟨hpivot, hsearch⟩ := eliminateColumn_eq_none hnone
  have hspan {k : Nat} (hk : k < s.pN) := h.reduces.inSpan_iff hlt.le hk
  refine ⟨(hspan hlt).mpr hpivot, (pivotSearch_eq_none.mp hsearch).imp_right (Or.imp_right fun hall j hj hwindow => ?_)⟩
  have hjN : j < s.pN := by
    unfold State.lastOfWindow at hwindow
    omega
  exact (hspan hjN).mpr (hall j hj hwindow)

/-- The H region after a GAUSS that ended OK: an identity block, zero padding, and the kernel of the permuted matrix. -/
theorem Elimination.Reduces.putH {e : Elimination} (h : e.Reduces s s.pR) (hRN : s.pR ≤ s.pN)
    (hstride : s.nw ≤ s.cfg.hStride.toNat) :
    let row := fun r => s.cfg.hBase.toNat + r * s.cfg.hStride.toNat
    (∀ r < s.pR, ∀ c < s.pR, (s.putH e.rows).bm.bit? (row r) c = some (decide (r = c))) ∧
    (∀ r < s.pR, ∀ c, s.pN ≤ c → c < 32 * s.cfg.hStride.toNat → (s.putH e.rows).bm.bit? (row r) c = some false) ∧
    SameKernel s.pR s.pN (fun r c => (s.putH e.rows).bm.bitOf (row r) c) (s.permutedBit e.swaps) := by
  intro row
  have hentry {r c : Nat} (hr : r < s.pR) (hc : c < s.pN) :
      (s.putH e.rows).bm.bit? (row r) c = some (entryOf e.rows r c) := by
    rw [State.bit?_putH h.length hr (lt_of_wordsFor_le hstride hc), decide_eq_true hc, Bool.true_and]
  refine ⟨fun r hr c hc => ?_, fun r hr c hpad hc => ?_, .trans (.of_eq fun r hr c hc => ?_) h.kernel⟩
  · rw [hentry hr (hc.trans_le hRN), h.reduced r hr c hc]
  · rw [State.bit?_putH h.length hr hc, decide_eq_false (Nat.not_lt.mpr hpad), Bool.false_and]
  · rw [Mem.bitOf, hentry hr hc, Option.getD_some]

end

/-- Settles O23, by what the elimination keeps and where it stops. -/
theorem gaussReducesThePermutedMatrix : Obligations.GaussReducesThePermutedMatrix := by
  intro s hcfg hregions hwritten hsupp row last
  obtain ⟨_, _, _, hRN⟩ := id hcfg
  obtain ⟨_, hstrides, _⟩ := id hregions
  have hstride : s.nw ≤ s.cfg.hStride.toNat := hstrides (s.cfg.hStride.toNat, s.nw) (by simp)
  have hc : blockError s .gauss = none := (blockError_eq_none s .gauss).mpr ⟨hcfg, hregions⟩
  obtain ⟨r, stop, hr, hstops, hsound⟩ := State.gauss?_of_written hRN hwritten
  obtain ⟨hlen, hswaps⟩ := gauss?_keeps hc hr
  obtain ⟨fm, hfm, happlied⟩ := gauss_applySwaps hc hsupp hswaps
  obtain ⟨_, hmax, hoff⟩ := id hswaps
  have hbm : s.bm.Fills (s.hRegion.Has .bm) _ := gaussFinish_bm_fills { s with fm := fm } hlen
  have hcount : (BitVec.ofNat 16 r.elimination.swaps.length).toNat = r.elimination.swaps.length := by
    rw [BitVec.toNat_ofNat]
    exact Nat.mod_eq_of_lt (Nat.lt_of_le_of_lt hmax (BitVec.isLt _))
  have hstop : stop ≤ s.pR := by
    cases hstops with
    | reduced => exact le_rfl
    | singular hlt => exact hlt.le
  refine ⟨_, r.elimination.swaps, stop, (exec_of_ok (i := .gauss) hc).trans (congrArg _ (gaussEffect_of_swaps hr hfm)),
    hsound.follows.ordered, hstop, hsound.follows.swapped, hsound.follows.kept, hmax, hoff,
    (congrArg BitVec.toNat (gaussFinish_permCnt _ _)).trans hcount, ?_⟩
  rw [gaussFinish_fm, gaussFinish_permCnt]
  refine ⟨happlied.logged, happlied.permuted, happlied.frame, fun a ha => hbm.frame a fun hin => ?_, ?_⟩
  · obtain ⟨_, hge, hlt⟩ := hin
    simp only [State.hRegion] at hge hlt
    omega
  · cases hstops with
    | singular hlt hnone =>
      obtain ⟨hspan, hstuck⟩ := hsound.inSpan_of_stuck (hlt.trans hRN) hnone
      refine .inl ⟨gaussFinish_singular _ _, hlt, hspan, hstuck, fun k hk => hbm.filled _ ⟨rfl, ?_, ?_⟩⟩
      · exact Nat.le_add_right _ _
      · exact Nat.add_lt_add_left hk _
    | reduced e =>
      obtain ⟨hblock, hpad, hkernel⟩ := hsound.reduces.putH hRN.le hstride
      exact .inr ⟨gaussFinish_reduced _ _, rfl, hblock, hpad, hkernel⟩

/-! ### Without usable pivoting -/

section
variable {s : State}

/-- Pivoting is off, or has no window or no swap to use (R182). -/
abbrev State.CannotSwap (s : State) : Prop := s.cfg.pivotEn = false ∨ s.pivW = 0 ∨ s.pivMax = 0

theorem eliminateColumn_swaps_nil (h : s.CannotSwap) {c : Nat} {e e' : Elimination} (he : e.swaps = [])
    (helim : eliminateColumn s.pivoting c e = some e') : e'.swaps = [] := by
  obtain ⟨e₁, hfind, hreduce⟩ := Option.bind_eq_some_iff.mp helim
  obtain ⟨_, _, rfl⟩ := Option.map_eq_some_iff.mp hreduce
  rcases findPivot_eq_some hfind with ⟨rfl, _⟩ | ⟨_, j, ⟨hon, hroom, hcj, hwindow, _⟩, _⟩
  · exact he
  · simp only [State.pivoting, he, List.length_nil] at hon hroom hwindow
    rcases h with hoff | hW | hmax
    · simp [hoff] at hon
    · omega
    · omega

theorem gauss?_swaps_nil (h : s.CannotSwap) {r : GaussEnd} (hr : s.gauss? = some r) : r.elimination.swaps = [] := by
  obtain ⟨rows, _, rfl⟩ := Option.map_eq_some_iff.mp hr
  obtain ⟨_, _, hnil⟩ := eliminate_induction (pv := s.pivoting) (I := fun _ e => e.swaps = [])
    (fun _ _ _ _ he helim => eliminateColumn_swaps_nil h he helim) (Nat.zero_add s.pR)
    (e := { rows := rows, swaps := [] }) rfl
  exact hnil

/-- Such a GAUSS writes no FM word. -/
theorem gaussEffect_fm_of_cannotSwap (h : s.CannotSwap) : (gaussEffect s).fm = s.fm := by
  have haddrs : s.gaussFmAddrs = [] := by
    have hmay : s.maySwap = false := by
      rcases h with h | h | h <;> simp [State.maySwap, h]
    simp [State.gaussFmAddrs, hmay]
  cases hr : s.gauss? with
  | none =>
    rw [gaussEffect, hr, haddrs, gaussUndefined_fm]
    exact State.drawBm_fm _ s
  | some r =>
    rw [gaussEffect_of_swaps hr (fm := s.fm) (by rw [gauss?_swaps_nil h hr, applySwaps]), gaussFinish_fm]

/-! ### An independent left block -/

/-- The first R columns of H are independent. -/
abbrev State.LeftIndependent (s : State) : Prop := BitMatrix.LeftIndependent s.pR (s.permutedBit [])

/-- Before a first swap the entry matrix is as it was. -/
theorem State.not_inSpan_of_leftIndependent (h : s.LeftIndependent) {c : Nat} (hc : c < s.pR) :
    ¬ s.InSpan [] c c :=
  fun ⟨v, hv⟩ => h.not_combines hc v hv

/-- The first swap of a list that follows the rule is at a dependent column. -/
theorem State.FollowsPivotRule.eq_nil {stop : Nat} {swaps : List (Nat × Nat)} (h : s.FollowsPivotRule stop swaps)
    (hind : s.LeftIndependent) (hstop : stop ≤ s.pR) : swaps = [] := by
  cases swaps with
  | nil => rfl
  | cons x rest =>
    obtain ⟨hlt, _, _, hspan, _⟩ := h.swapped x (by simp)
    have hnone : swapsBefore (x :: rest) x.1 = [] := by
      have hlater := (List.pairwise_cons.mp h.ordered).1
      simp only [swapsBefore, List.filter_eq_nil_iff, List.mem_cons, forall_eq_or_imp, decide_eq_true_eq]
      exact ⟨Nat.lt_irrefl _, fun y hy => Nat.not_lt.mpr (hlater y hy).le⟩
    rw [hnone] at hspan
    exact absurd hspan (State.not_inSpan_of_leftIndependent hind (hlt.trans_le hstop))

section
variable (hRN : s.pR < s.pN) (hwritten : s.bm.RowsWritten s.cfg.hBase.toNat s.cfg.hStride.toNat s.pR s.pN)
include hRN hwritten

/-- An independent left block is reduced with no swap. -/
theorem State.gauss?_of_leftIndependent (hind : s.LeftIndependent) :
    ∃ e, s.gauss? = some (.reduced e) ∧ e.swaps = [] ∧ e.Reduces s s.pR := by
  obtain ⟨r, stop, hr, hstops, hsound⟩ := State.gauss?_of_written hRN hwritten
  cases hstops with
  | reduced e => exact ⟨e, hr, hsound.follows.eq_nil hind le_rfl, hsound.reduces⟩
  | @singular e _ hlt hnone =>
    have hspan := (hsound.inSpan_of_stuck (hlt.trans hRN) hnone).1
    have hnil : e.swaps = [] := hsound.follows.eq_nil hind hlt.le
    rw [show GaussEnd.elimination (.singular e) = e from rfl, hnil] at hspan
    exact absurd hspan (State.not_inSpan_of_leftIndependent hind hlt)

/-- Without a swap, a dependent left block cannot be reduced. -/
theorem State.gauss?_of_not_leftIndependent (hdep : ¬ s.LeftIndependent) (h : s.CannotSwap) :
    ∃ e, s.gauss? = some (.singular e) ∧ e.swaps = [] := by
  obtain ⟨r, stop, hr, hstops, hsound⟩ := State.gauss?_of_written hRN hwritten
  have hnil := gauss?_swaps_nil h hr
  cases hstops with
  | singular => exact ⟨_, hr, hnil⟩
  | reduced e =>
    have hkernel := hsound.reduces.kernel
    rw [hnil] at hkernel
    exact absurd (hkernel.leftIndependent hRN.le hsound.reduces.reduced.leftIndependent) hdep

/-- The effect on an independent left block. -/
theorem gaussEffect_of_leftIndependent (hind : s.LeftIndependent) :
    ∃ e : Elimination, e.swaps = [] ∧ e.Reduces s s.pR ∧
      gaussEffect s = { s.finished .ok with permCnt := 0, bm := (s.putH e.rows).bm } := by
  obtain ⟨e, hr, hnil, hred⟩ := State.gauss?_of_leftIndependent hRN hwritten hind
  refine ⟨e, hnil, hred, ?_⟩
  rw [gaussEffect_of_swaps hr (fm := s.fm) (by rw [GaussEnd.elimination, hnil, applySwaps]), gaussFinish_reduced, hnil]
  rfl

end

end

/-- Settles O24, by the first column where a swap is asked for, and by the uniqueness of the reduced matrix. -/
theorem gaussWithoutPivotingReducesInvertibleBlocks : Obligations.GaussWithoutPivotingReducesInvertibleBlocks := by
  constructor
  · intro s hcfg hregions hwritten row independent
    obtain ⟨_, _, _, hRN⟩ := id hcfg
    obtain ⟨_, hstrides, _⟩ := id hregions
    have hstride : s.nw ≤ s.cfg.hStride.toNat := hstrides (s.cfg.hStride.toNat, s.nw) (by simp)
    have hindependent : independent ↔ s.LeftIndependent := Iff.rfl
    refine ⟨gaussEffect s, exec_of_ok (i := .gauss) ((blockError_eq_none s .gauss).mpr ⟨hcfg, hregions⟩),
      fun hind => ?_, fun hdep hcannot => ?_, fun hid r hr c hc => ?_⟩
    · obtain ⟨e, _, _, heffect⟩ := gaussEffect_of_leftIndependent hRN hwritten (hindependent.mp hind)
      rw [heffect]
    · obtain ⟨e, hr, hnil⟩ := State.gauss?_of_not_leftIndependent hRN hwritten (mt hindependent.mpr hdep) hcannot
      rw [gaussEffect_of_swaps hr (fm := s.fm) (by rw [GaussEnd.elimination, hnil, applySwaps]), gaussFinish_singular, hnil]
      rfl
    · have hreduced : BitMatrix.ReducedTo s.pR (s.permutedBit []) s.pR := hid
      obtain ⟨e, hnil, hred, heffect⟩ := gaussEffect_of_leftIndependent hRN hwritten hreduced.leftIndependent
      have hkernel := hred.kernel
      rw [hnil] at hkernel
      obtain ⟨rows, hrows⟩ := Option.isSome_iff_exists.mp (Mem.readRows?_isSome.mpr hwritten)
      have hbit := Mem.bit?_of_readRows? hrows hr hc
      have hold : s.permutedBit [] r c = entryOf rows r c := by
        rw [State.permutedBit_nil, Mem.bitOf, hbit, Option.getD_some]
      have hsame := hkernel.eq_of_reducedTo hred.reduced hreduced hRN.le hr hc
      rw [heffect, State.bit?_putH hred.length hr (lt_of_wordsFor_le hstride hc), decide_eq_true hc, Bool.true_and, hsame,
        hold, hbit]
  · intro s t ht hcannot
    rcases exec_cases ht with ⟨_, _, rfl⟩ | ⟨_, rfl⟩
    · rfl
    · exact gaussEffect_fm_of_cannotSwap hcannot

end Sys2Proof.Machine
end

section
/-! PROOFS. SAMPLE (R200, R201, R202): the indices that a run of words brings, where the loop stops on them, the vector it
writes, and with that O28 to O32. -/

namespace Sys2Proof.Machine

/-! ### The indices a run of words brings -/

section
variable {F : GField} {n t max : Nat}

theorem sampleNext_nodup {acc : List Nat} (h : acc.Nodup) (w : FWord) : (sampleNext F n acc w).Nodup := by
  unfold sampleNext
  split
  · exact h
  · next hnew =>
    rw [← List.concat_eq_append]
    exact h.concat fun hmem => hnew (.inr hmem)

/-- A word brings its index if that is in range, whether or not it is there already. -/
theorem mem_sampleNext {acc : List Nat} {w : FWord} {j : Nat} :
    j ∈ sampleNext F n acc w ↔ j ∈ acc ∨ j = w.toNat % 2 ^ F.m ∧ j < n := by
  rw [← maskM_eq_mod, sampleNext]
  split
  · next hold =>
    refine ⟨.inl, fun h => h.elim id ?_⟩
    rintro ⟨rfl, hlt⟩
    exact hold.resolve_left (Nat.not_le.mpr hlt)
  · next hnew =>
    rw [List.mem_append, List.mem_singleton]
    refine or_congr_right (iff_self_and.mpr ?_)
    rintro rfl
    exact Nat.not_le.mp fun hle => hnew (.inl hle)

/-- The accepted indices after a run of words, in acceptance order (R200). -/
def acceptedIndices (F : GField) (n : Nat) (ws : List FWord) : List Nat := ws.foldl (sampleNext F n) []

theorem acceptedIndices_concat (ws : List FWord) (w : FWord) :
    acceptedIndices F n (ws ++ [w]) = sampleNext F n (acceptedIndices F n ws) w := List.foldl_concat _ _ _ _

theorem acceptedIndices_nodup (ws : List FWord) : (acceptedIndices F n ws).Nodup := by
  induction ws using List.reverseRecOn with
  | nil => exact List.nodup_nil
  | append_singleton ws w ih =>
    rw [acceptedIndices_concat]
    exact sampleNext_nodup ih w

theorem mem_acceptedIndices {ws : List FWord} {j : Nat} :
    j ∈ acceptedIndices F n ws ↔ (∃ w ∈ ws, w.toNat % 2 ^ F.m = j) ∧ j < n := by
  induction ws using List.reverseRecOn with
  | nil => simp [acceptedIndices]
  | append_singleton ws w ih =>
    rw [acceptedIndices_concat, mem_sampleNext, ih]
    simp only [List.mem_append, List.mem_singleton, or_and_right, exists_or, exists_eq_left, eq_comm (a := j)]

/-! ### Where the loop stops -/

theorem sampleLoop_of_full {acc : List Nat} (h : t ≤ acc.length) (ws : List FWord) (d : Nat) :
    sampleLoop F n t max ws acc d = .accepted acc d ws := by
  cases ws <;> rw [sampleLoop, if_pos h]

theorem sampleLoop_of_bound {acc : List Nat} (h : acc.length < t) (ws : List FWord) :
    sampleLoop F n t max ws acc max = .exhausted max ws := by
  cases ws <;> rw [sampleLoop, if_neg (Nat.not_le.mpr h), if_pos rfl]

theorem sampleLoop_of_empty {acc : List Nat} (h : acc.length < t) {d : Nat} (hd : d ≠ max) :
    sampleLoop F n t max [] acc d = .starved acc d := by
  rw [sampleLoop, if_neg (Nat.not_le.mpr h), if_neg hd]

theorem sampleLoop_of_word {acc : List Nat} (h : acc.length < t) {d : Nat} (hd : d ≠ max) (w : FWord) (ws : List FWord) :
    sampleLoop F n t max (w :: ws) acc d = sampleLoop F n t max ws (sampleNext F n acc w) (d + 1) := by
  rw [sampleLoop, if_neg (Nat.not_le.mpr h), if_neg hd]

/-- The loop runs through words that it has room for and of which no proper prefix brings T indices. -/
theorem sampleLoop_append {ws : List FWord} {acc : List Nat} {d : Nat}
    (hshort : ∀ k < ws.length, ((ws.take k).foldl (sampleNext F n) acc).length < t) (hroom : d + ws.length ≤ max)
    (rest : List FWord) : sampleLoop F n t max (ws ++ rest) acc d =
      sampleLoop F n t max rest (ws.foldl (sampleNext F n) acc) (d + ws.length) := by
  induction ws generalizing acc d with
  | nil => rfl
  | cons w ws ih =>
    have hfirst : acc.length < t := hshort 0 (Nat.zero_lt_succ _)
    rw [List.length_cons] at hroom
    have hlater := ih (acc := sampleNext F n acc w) (d := d + 1) (fun k hk => hshort (k + 1) (Nat.succ_lt_succ hk)) (by omega)
    rw [List.cons_append, sampleLoop_of_word hfirst (by omega), hlater, List.foldl_cons, List.length_cons, Nat.add_assoc,
      Nat.add_comm 1]

/-- A loop that runs out of words had neither T indices nor SAMPLE_MAX words at any point before. -/
theorem open_of_sampleLoop_starved {ws : List FWord} {acc acc' : List Nat} {d d' : Nat}
    (h : sampleLoop F n t max ws acc d = .starved acc' d') : acc.length < t ∧ d ≠ max := by
  have hlt : acc.length < t := by
    by_contra hfull
    rw [sampleLoop_of_full (Nat.not_lt.mp hfull)] at h
    cases h
  refine ⟨hlt, ?_⟩
  rintro rfl
  rw [sampleLoop_of_bound hlt] at h
  cases h

/-- A loop that ran out of words goes on from where it stopped. -/
theorem sampleLoop_append_of_starved {ws : List FWord} {acc acc' : List Nat} {d d' : Nat}
    (h : sampleLoop F n t max ws acc d = .starved acc' d') (rest : List FWord) :
    sampleLoop F n t max (ws ++ rest) acc d = sampleLoop F n t max rest acc' d' := by
  induction ws generalizing acc d with
  | nil =>
    obtain ⟨hlt, hd⟩ := open_of_sampleLoop_starved h
    rw [sampleLoop_of_empty hlt hd] at h
    cases h
    rfl
  | cons w ws ih =>
    obtain ⟨hlt, hd⟩ := open_of_sampleLoop_starved h
    rw [sampleLoop_of_word hlt hd] at h
    rw [List.cons_append, sampleLoop_of_word hlt hd, ih h]

end

/-! ### The vector it writes (R87, R202) -/

theorem testBit_indicatorVec (indices : List Nat) (j : Nat) : (indicatorVec indices).testBit j = decide (j ∈ indices) := by
  induction indices using List.reverseRecOn with
  | nil => simp [indicatorVec]
  | append_singleton is i ih =>
    have hlast : indicatorVec (is ++ [i]) = indicatorVec is ||| 1 <<< i := List.foldl_concat _ _ _ _
    rw [hlast, Nat.testBit_or, ih, Nat.one_shiftLeft, Nat.testBit_two_pow]
    simp [eq_comm]

/-- A vector written reads back, zero beyond its bits (R87). -/
theorem Mem.bit?_putVec (m : Mem 32) {b n v j : Nat} (hj : j < 32 * wordsFor n) :
    (m.putVec b n v).bit? b j = some (decide (j < n) && v.testBit j) := by
  have hrow := Mem.bit?_putRows (b := b) (st := wordsFor n) (n := n) m (rows := [v]) (r := 0) Nat.zero_lt_one hj
  rw [Nat.zero_mul] at hrow
  exact hrow

theorem countBits_eq_card (f : Nat → Bool) (n : Nat) : countBits f n = ((Finset.range n).filter fun i => f i).card := by
  induction n with
  | zero => rfl
  | succ n ih =>
    rw [countBits, ih, Finset.range_add_one, Finset.filter_insert]
    cases f n <;> simp

/-- Distinct positions, all of them counted. -/
theorem countBits_eq_length {is : List Nat} {n : Nat} (hnodup : is.Nodup) (hlt : ∀ i ∈ is, i < n) {f : Nat → Bool}
    (hf : ∀ j < n, f j = decide (j ∈ is)) : countBits f n = is.length := by
  rw [countBits_eq_card, ← List.toFinset_card_of_nodup hnodup]
  congr 1
  ext j
  rw [Finset.mem_filter, Finset.mem_range, List.mem_toFinset]
  refine ⟨fun ⟨hj, h⟩ => ?_, fun h => ⟨hlt j h, ?_⟩⟩
  · rwa [hf j hj, decide_eq_true_iff] at h
  · rwa [hf j (hlt j h), decide_eq_true_iff]

/-! ### One turn -/

section
variable {s : State}

/-- The loop of the turn, with what it starts from (R48, R200). -/
def State.sampleEnd (s : State) : SampleEnd :=
  sampleLoop s.field s.pN s.pT s.cfg.sampleMax.toNat s.rngAtHand s.sampleAccepted s.sampleConsumed

theorem sampleEffect_of_accepted {acc : List Nat} {d : Nat} {rest : List FWord} (h : s.sampleEnd = .accepted acc d rest) :
    sampleEffect s = sampleFinish .ok (indicatorVec acc) d (rest ++ s.rngBehind) s := by
  rw [State.sampleEnd] at h
  rw [sampleEffect, h]

theorem sampleEffect_of_exhausted {d : Nat} {rest : List FWord} (h : s.sampleEnd = .exhausted d rest) :
    sampleEffect s = sampleFinish .retry 0 d (rest ++ s.rngBehind) s := by
  rw [State.sampleEnd] at h
  rw [sampleEffect, h]

theorem sampleEffect_of_starved {acc : List Nat} {d : Nat} (h : s.sampleEnd = .starved acc d) :
    sampleEffect s = sampleHold acc d s.rngBehind s := by
  rw [State.sampleEnd] at h
  rw [sampleEffect, h]

theorem exec_sample (hc : blockError s .sample = none) : exec .sample s = .next (sampleEffect s) :=
  exec_of_ok (i := .sample) hc

/-- Everything a turn of SAMPLE can do. -/
theorem exec_sample_cases {t : State} (h : exec .sample s = .next t) :
    (∃ code, t = raise code s) ∨ (blockError s .sample = none ∧ t = sampleEffect s) :=
  (exec_cases h).imp_left fun ⟨code, _, ht⟩ => ⟨code, ht⟩

/-- Only a loop that ran out of words leaves SAMPLE in flight (R201). -/
theorem sampleEnd_of_busy (hbusy : (sampleEffect s).busy = true) : ∃ acc d, s.sampleEnd = .starved acc d := by
  cases h : s.sampleEnd with
  | starved acc d => exact ⟨acc, d, rfl⟩
  | accepted =>
    rw [sampleEffect_of_accepted h] at hbusy
    cases hbusy
  | exhausted =>
    rw [sampleEffect_of_exhausted h] at hbusy
    cases hbusy

/-- Only a loop that brought T indices ends OK (R200, R202). -/
theorem sampleEnd_of_ok (hdone : (sampleEffect s).inflight = none) (hok : (sampleEffect s).status.result = .ok) :
    ∃ acc d rest, s.sampleEnd = .accepted acc d rest := by
  cases h : s.sampleEnd with
  | accepted acc d rest => exact ⟨acc, d, rest, rfl⟩
  | exhausted =>
    rw [sampleEffect_of_exhausted h] at hok
    cases hok
  | starved =>
    rw [sampleEffect_of_starved h] at hdone
    cases hdone

theorem sampleFinish_eq (res : CmdResult) (e d : Nat) (rng : List FWord) : sampleFinish res e d rng s =
    { s.finished res with bm := (sampleFinish res e d rng s).bm, draws := BitVec.ofNat 32 d, rng := rng } := rfl

theorem bit?_sampleFinish (res : CmdResult) (e d : Nat) (rng : List FWord) {j : Nat} (hj : j < 32 * s.nw) :
    (sampleFinish res e d rng s).bm.bit? s.cfg.eBase.toNat j = some (decide (j < s.pN) && e.testBit j) := by
  rw [sampleFinish_bm]
  exact Mem.bit?_putVec _ hj

theorem sampleFinish_sameBmOutside (res : CmdResult) (e d : Nat) (rng : List FWord) :
    SameBmOutside s.cfg.eBase.toNat s.nw s (sampleFinish res e d rng s) := fun a ha =>
  (Mem.putVec_fills s.bm s.cfg.eBase.toNat s.pN e).frame a fun ⟨hge, hlt⟩ =>
    ha.elim (Nat.not_lt.mpr hge) (Nat.not_le.mpr hlt)

/-- An unbounded turn leaves nothing of the progress, the FIFO and RNG_WAIT that it started from: only where the loop stops
shows in its end. -/
theorem sampleEffect_sampleHold {acc : List Nat} {d : Nat} {rng : List FWord} (hquota : s.quota = none)
    (hend : (sampleHold acc d rng s).sampleEnd = s.sampleEnd) : sampleEffect (sampleHold acc d rng s) = sampleEffect s := by
  have hbehind : (sampleHold acc d rng s).rngBehind = s.rngBehind := by
    simp [State.rngBehind, hquota]
  cases h : s.sampleEnd with
  | accepted => rw [sampleEffect_of_accepted h, sampleEffect_of_accepted (hend.trans h), hbehind]; rfl
  | exhausted => rw [sampleEffect_of_exhausted h, sampleEffect_of_exhausted (hend.trans h), hbehind]; rfl
  | starved => rw [sampleEffect_of_starved h, sampleEffect_of_starved (hend.trans h), hbehind]; rfl

/-- A turn bounded to `q` words that ran out of them leaves the loop of the next turn to stop where one turn would have. -/
theorem sampleEnd_sampleHold {q d : Nat} {acc : List Nat}
    (h : State.sampleEnd { s with quota := some q } = .starved acc d) :
    (sampleHold acc d (s.rng.drop q) { s with quota := none }).sampleEnd = State.sampleEnd { s with quota := none } := by
  have hrun := sampleLoop_append_of_starved h (s.rng.drop q)
  rw [show State.rngAtHand { s with quota := some q } = s.rng.take q from rfl, List.take_append_drop] at hrun
  exact hrun.symm

/-! ### A turn of a SAMPLE just accepted, over the words of the FIFO -/

/-- `A` of R200 after the first `k` words, in acceptance order. -/
def State.acceptedAfter (s : State) (k : Nat) : List Nat := acceptedIndices s.field s.pN (s.rng.take k)

theorem State.nodup_acceptedAfter (s : State) (k : Nat) : (s.acceptedAfter k).Nodup := acceptedIndices_nodup _

theorem State.toFinset_acceptedAfter (s : State) (k : Nat) : (s.acceptedAfter k).toFinset = s.indicesAfter k := by
  ext j
  rw [List.mem_toFinset, State.acceptedAfter, mem_acceptedIndices]
  simp only [State.indicesAfter, Finset.mem_filter, List.mem_toFinset, List.mem_map]
  rfl

theorem State.length_acceptedAfter (s : State) (k : Nat) : (s.acceptedAfter k).length = (s.indicesAfter k).card := by
  rw [← State.toFinset_acceptedAfter, List.toFinset_card_of_nodup (s.nodup_acceptedAfter k)]

theorem State.card_indicesAfter_mono (s : State) {k k' : Nat} (h : k ≤ k') :
    (s.indicesAfter k).card ≤ (s.indicesAfter k').card := by
  refine Finset.card_le_card (Finset.filter_subset_filter _ fun j hj => ?_)
  rw [List.mem_toFinset] at hj ⊢
  exact ((List.take_sublist_take_left h).map _).subset hj

section
variable (hfresh : s.inflight = some { word := 0x14, accepted := [], consumed := 0 }) (hquota : s.quota = none)
include hfresh hquota

/-- The loop runs through the first `k` words if SAMPLE_MAX allows them and no shorter run of words brings T indices. -/
theorem State.sampleEnd_of_fresh {k : Nat} (hk : k ≤ s.rng.length) (hmax : k ≤ s.cfg.sampleMax.toNat)
    (hshort : ∀ k' < k, (s.indicesAfter k').card < s.pT) : s.sampleEnd =
      sampleLoop s.field s.pN s.pT s.cfg.sampleMax.toNat (s.rng.drop k) (s.acceptedAfter k) k := by
  have hstart : s.sampleEnd = sampleLoop s.field s.pN s.pT s.cfg.sampleMax.toNat s.rng [] 0 := by
    simp [State.sampleEnd, State.rngAtHand, State.sampleAccepted, State.sampleConsumed, hfresh, hquota]
  have hlen : (s.rng.take k).length = k := List.length_take_of_le hk
  have hrun := sampleLoop_append (F := s.field) (n := s.pN) (ws := s.rng.take k) (acc := []) (d := 0)
    (t := s.pT) (max := s.cfg.sampleMax.toNat) (fun k' hk' => ?_) (by omega) (s.rng.drop k)
  · rw [List.take_append_drop, hlen, Nat.zero_add] at hrun
    rw [hstart, hrun]
    rfl
  · rw [hlen] at hk'
    rw [List.take_take, Nat.min_eq_left hk'.le]
    exact (s.length_acceptedAfter k').trans_lt (hshort k' hk')

theorem sampleEffect_of_fresh_accepted {k : Nat} (hk : k ≤ s.rng.length) (hmax : k ≤ s.cfg.sampleMax.toNat)
    (hfull : (s.indicesAfter k).card = s.pT) (hshort : ∀ k' < k, (s.indicesAfter k').card < s.pT) :
    sampleEffect s = sampleFinish .ok (indicatorVec (s.acceptedAfter k)) k (s.rng.drop k) s := by
  have hend := State.sampleEnd_of_fresh hfresh hquota hk hmax hshort
  rw [sampleLoop_of_full (hfull.symm.trans (s.length_acceptedAfter k).symm).le] at hend
  simp [sampleEffect_of_accepted hend, State.rngBehind, hquota]

theorem sampleEffect_of_fresh_exhausted (hmax : s.cfg.sampleMax.toNat ≤ s.rng.length)
    (hfew : (s.indicesAfter s.cfg.sampleMax.toNat).card < s.pT) :
    sampleEffect s =
      sampleFinish .retry 0 s.cfg.sampleMax.toNat (s.rng.drop s.cfg.sampleMax.toNat) s := by
  have hend := State.sampleEnd_of_fresh hfresh hquota hmax le_rfl
    fun k hk => (s.card_indicesAfter_mono hk.le).trans_lt hfew
  rw [sampleLoop_of_bound ((s.length_acceptedAfter _).trans_lt hfew)] at hend
  simp [sampleEffect_of_exhausted hend, State.rngBehind, hquota]

theorem sampleEffect_of_fresh_starved (hmax : s.rng.length < s.cfg.sampleMax.toNat)
    (hfew : (s.indicesAfter s.rng.length).card < s.pT) :
    sampleEffect s = sampleHold (s.acceptedAfter s.rng.length) s.rng.length [] s := by
  have hend := State.sampleEnd_of_fresh hfresh hquota le_rfl hmax.le
    fun k hk => (s.card_indicesAfter_mono hk.le).trans_lt hfew
  rw [List.drop_length, sampleLoop_of_empty ((s.length_acceptedAfter _).trans_lt hfew) hmax.ne] at hend
  simp [sampleEffect_of_starved hend, State.rngBehind, hquota]

end

end

/-- Settles O28, by the accepted indices after the first `k` words. -/
theorem sampleWritesTheFirstTIndices : Obligations.SampleWritesTheFirstTIndices := by
  intro s k hcfg hregions hfresh hquota hk hmax hfull hshort
  have hc : blockError s .sample = none := (blockError_eq_none s .sample).mpr ⟨hcfg, hregions⟩
  have heffect := sampleEffect_of_fresh_accepted hfresh hquota hk hmax hfull hshort
  refine ⟨_, (exec_sample hc).trans (congrArg _ heffect), sampleFinish_eq _ _ _ _, fun j hj => ?_,
    fun j hpad hj => ?_, sampleFinish_sameBmOutside _ _ _ _⟩
  · rw [bit?_sampleFinish _ _ _ _ (lt_of_wordsFor_le le_rfl hj), decide_eq_true hj, Bool.true_and, testBit_indicatorVec,
      ← s.toFinset_acceptedAfter k]
    simp only [List.mem_toFinset]
  · rw [bit?_sampleFinish _ _ _ _ hj, decide_eq_false (Nat.not_lt.mpr hpad), Bool.false_and]

/-- Settles O29, by the accepted indices after SAMPLE_MAX words. -/
theorem sampleRetriesAtTheBound : Obligations.SampleRetriesAtTheBound := by
  intro s hcfg hregions hfresh hquota hmax hfew
  have hc : blockError s .sample = none := (blockError_eq_none s .sample).mpr ⟨hcfg, hregions⟩
  have heffect := sampleEffect_of_fresh_exhausted hfresh hquota hmax hfew
  have hstate := sampleFinish_eq (s := s) .retry 0 s.cfg.sampleMax.toNat (s.rng.drop s.cfg.sampleMax.toNat)
  rw [BitVec.ofNat_toNat, BitVec.setWidth_eq] at hstate
  refine ⟨_, (exec_sample hc).trans (congrArg _ heffect), hstate, fun j hj => ?_,
    sampleFinish_sameBmOutside _ _ _ _⟩
  rw [bit?_sampleFinish _ _ _ _ hj, Nat.zero_testBit, Bool.and_false]

/-- Settles O30, by the accepted indices after all the words at hand. -/
theorem sampleWaitsForWords : Obligations.SampleWaitsForWords := by
  intro s hcfg hregions hfresh hquota hmax hfew
  have hc : blockError s .sample = none := (blockError_eq_none s .sample).mpr ⟨hcfg, hregions⟩
  have heffect := sampleEffect_of_fresh_starved hfresh hquota hmax hfew
  exact ⟨_, _, (exec_sample hc).trans (congrArg _ heffect), rfl, rfl, rfl, rfl, s.nodup_acceptedAfter _,
    s.toFinset_acceptedAfter _⟩

/-- Settles O31: only a turn that ran out of words leaves SAMPLE in flight, and the loop goes on from there. -/
theorem sampleTurnsCompose : Obligations.SampleTurnsCompose := by
  intro s t q ht hbusy
  rcases exec_sample_cases ht with ⟨_, rfl⟩ | ⟨hc, rfl⟩
  · cases hbusy
  · obtain ⟨acc, d, hend⟩ := sampleEnd_of_busy hbusy
    rw [sampleEffect_of_starved hend]
    calc exec .sample (sampleHold acc d (s.rng.drop q) { s with quota := none })
      _ = .next (sampleEffect (sampleHold acc d (s.rng.drop q) { s with quota := none })) := exec_sample hc
      _ = .next (sampleEffect { s with quota := none }) :=
        congrArg _ (sampleEffect_sampleHold rfl (sampleEnd_sampleHold hend))
      _ = exec .sample { s with quota := none } := (exec_sample (s := { s with quota := none }) hc).symm

/-- Settles O32: the indices accepted are distinct, below N, and T of them. -/
theorem sampledVectorHasWeightT : Obligations.SampledVectorHasWeightT := by
  intro s t hinv ht hdone hok
  rcases exec_sample_cases ht with ⟨_, rfl⟩ | ⟨_, rfl⟩
  · cases hok
  · obtain ⟨hnodup, hlt, hT, hle, hmax⟩ := hinv.progress
    obtain ⟨acc, d, rest, hend⟩ := sampleEnd_of_ok hdone hok
    have hsound : s.sampleEnd.Ok s.pN s.pT s.cfg.sampleMax.toNat s.rngAtHand :=
      sampleLoop_ok _ _ _ _ _ _ _ ⟨hnodup, hlt, hT, hle⟩ hmax
    rw [hend] at hsound
    obtain ⟨⟨hnodup, hlt, _⟩, hlen, _⟩ := hsound
    rw [sampleEffect_of_accepted hend, ← hlen]
    refine countBits_eq_length hnodup hlt fun j hj => ?_
    rw [Mem.bitOf, bit?_sampleFinish _ _ _ _ (lt_of_wordsFor_le le_rfl hj), decide_eq_true hj, Bool.true_and,
      testBit_indicatorVec, Option.getD_some]

end Sys2Proof.Machine
end

section
/-! PROOFS. SYND (R210, R211): in both modes it multiplies one matrix by e, H itself or `[I | T]`; from the entries of that
matrix its result bit by bit (O26), the agreement of the modes and the linearity in e (O27). -/

namespace Sys2Proof.Machine

/-! ### Sums over a row -/

/-- The model's parity of a vector is the sum of its first bits. -/
theorem parity_eq_xorBits (n v : Nat) : parity n v = xorBits (fun c => v.testBit c) n := by
  induction n with
  | zero => rfl
  | succ n ih => rw [xorBits, ← ih, parity, List.range_succ, List.foldl_concat, parity]

/-- A product of a row and a vector, bit by bit. -/
theorem parity_and (n v w : Nat) : parity n (v &&& w) = xorBits (fun c => v.testBit c && w.testBit c) n := by
  simp only [parity_eq_xorBits, Nat.testBit_and]

/-- A sum over a row split in two. -/
theorem xorBits_add (f : Nat → Bool) (a b : Nat) :
    xorBits f (a + b) = (xorBits f a ^^ xorBits (fun c => f (a + c)) b) := by
  simp only [xorBits_eq_sum]
  exact Finset.sum_range_add f a b

/-! ### Bits of written words -/

section
variable {m m' : Mem 32} {b st n rows : Nat}

theorem Mem.bitOf_of_readVec? {v j : Nat} (h : m.readVec? b n = some v) (hj : j < n) : m.bitOf b j = v.testBit j := by
  rw [Mem.bitOf, Mem.bit?_of_readVec? h hj, Option.getD_some]

theorem Mem.bitOf_of_readRows? {vs : List Nat} (h : m.readRows? st n b rows = some vs) {r c : Nat} (hr : r < vs.length)
    (hc : c < n) : m.bitOf (b + r * st) c = vs[r].testBit c := by
  rw [Mem.bitOf, Mem.bit?_of_readRows? h (length_of_readRows? h ▸ hr) hc, Option.getD_some, entryOf,
    List.getD_eq_getElem _ _ hr]

/-- A word of a row lies in the region of its matrix (R84, R86). -/
theorem row_word_lt {r k : Nat} (hr : r < rows) (hk : k < st) : r * st + k < rows * st :=
  calc r * st + k
    _ < r * st + st := Nat.add_lt_add_left hk _
    _ = (r + 1) * st := (Nat.succ_mul r st).symm
    _ ≤ rows * st := Nat.mul_le_mul_right st hr

/-- An entry of a matrix is the same in two memories that agree on its region. -/
theorem Mem.bitOf_congr_of_region (h : ∀ a, Region.Has ⟨.bm, b, rows * st⟩ .bm a → m'.read? a = m.read? a)
    (hst : wordsFor n ≤ st) {r c : Nat} (hr : r < rows) (hc : c < n) :
    m'.bitOf (b + r * st) c = m.bitOf (b + r * st) c := by
  have hword := row_word_lt hr ((div_lt_wordsFor hc).trans_le hst)
  have hread := h (b + r * st + c / 32) ⟨rfl, by simp only; omega, by simp only; omega⟩
  rw [Mem.bitOf, Mem.bitOf, Mem.bit?, Mem.bit?, hread]

end

/-! ### The matrix of a mode (R210) -/

section
variable {s : State} {mode : SyndMode} {flags : BitVec 4}

/-- The matrix region SYND reads. -/
def State.syndRegion (s : State) : SyndMode → Region
  | .full => s.hRegion
  | .systematic => s.pkRegion

/-- Its stride, and the words that hold a row. -/
def State.syndStride (s : State) : SyndMode → Nat × Nat
  | .full => s.hStrideRule
  | .systematic => s.pkStrideRule

/-- The regions of SYND pass the checks of R86. -/
abbrev State.SyndRegionsAccepted (s : State) (flags : BitVec 4) : Prop :=
  RegionsAccepted s.params [s.eRegion, s.syndRegion (syndMode flags)] [⟨.bm, s.syndOut flags, s.rw⟩]
    [s.syndStride (syndMode flags)]

/-- The words that hold the rows of the matrix have been written. -/
abbrev State.SyndRowsWritten (s : State) (mode : SyndMode) : Prop :=
  ∀ r < s.pR, s.bm.Written ((s.syndRegion mode).first + r * (s.syndStride mode).1) (s.syndStride mode).2

/-- The entries of the R × N matrix SYND multiplies e by: those of H, or those of `[I | T]` (R211). -/
def State.syndEntry (s : State) : SyndMode → Nat → Nat → Bool
  | .full, r, c => s.bm.bitOf (s.cfg.hBase.toNat + r * s.cfg.hStride.toNat) c
  | .systematic, r, c =>
    if c < s.pR then decide (r = c) else s.bm.bitOf (s.cfg.pkBase.toNat + r * s.cfg.pkStride.toNat) (c - s.pR)

theorem State.syndEntry_left (r : Nat) {c : Nat} (hc : c < s.pR) : s.syndEntry .systematic r c = decide (r = c) :=
  if_pos hc

theorem State.syndEntry_right (r c : Nat) : s.syndEntry .systematic r (s.pR + c) =
    s.bm.bitOf (s.cfg.pkBase.toNat + r * s.cfg.pkStride.toNat) c := by
  rw [State.syndEntry, if_neg (Nat.not_lt.mpr (Nat.le_add_right _ _)), Nat.add_sub_cancel_left]

/-- Position `r` of the product of that matrix and e. -/
def State.syndBit (s : State) (mode : SyndMode) (r : Nat) : Bool :=
  xorBits (fun c => s.syndEntry mode r c && s.bm.bitOf s.cfg.eBase.toNat c) s.pN

theorem footprint_synd_eq (s : State) (flags : BitVec 4) : footprint s (.synd flags) =
    ⟨[s.eRegion, s.syndRegion (syndMode flags)], [⟨.bm, s.syndOut flags, s.rw⟩], [s.syndStride (syndMode flags)]⟩ := by
  simp only [footprint]
  cases syndMode flags <;> rfl

/-- Rows that fit their stride are written once their region is. -/
theorem State.syndRowsWritten_of_region (h : s.bm.Written (s.syndRegion mode).first (s.syndRegion mode).len)
    (hst : (s.syndStride mode).2 ≤ (s.syndStride mode).1) : s.SyndRowsWritten mode := by
  have hlen : (s.syndRegion mode).len = s.pR * (s.syndStride mode).1 := by cases mode <;> rfl
  intro r hr k hk
  rw [Nat.add_assoc]
  exact h _ (hlen ▸ row_word_lt hr (hk.trans_le hst))

/-- The matrix is the same beside any memory that agrees on its region. -/
theorem State.syndEntry_congr_of_region {m : Mem 32}
    (h : ∀ a, (s.syndRegion mode).Has .bm a → m.read? a = s.bm.read? a)
    (hst : (s.syndStride mode).2 ≤ (s.syndStride mode).1) {r c : Nat} (hr : r < s.pR) (hc : c < s.pN) :
    ({ s with bm := m } : State).syndEntry mode r c = s.syndEntry mode r c := by
  cases mode with
  | full => exact Mem.bitOf_congr_of_region h hst hr hc
  | systematic =>
    rcases Nat.lt_or_ge c s.pR with hleft | hright
    · exact (State.syndEntry_left (s := { s with bm := m }) r hleft).trans (State.syndEntry_left r hleft).symm
    · obtain ⟨c, rfl⟩ := Nat.exists_eq_add_of_le hright
      have hT := Mem.bitOf_congr_of_region h hst hr (Nat.lt_sub_iff_add_lt'.mpr hc)
      exact (State.syndEntry_right r c).trans (hT.trans (State.syndEntry_right r c).symm)

/-- With MODE 1 the identity block takes `e_r` and the rest of the row is that of T (R210). -/
theorem State.syndBit_systematic (hRN : s.pR ≤ s.pN) {r : Nat} (hr : r < s.pR) : s.syndBit .systematic r =
    (s.bm.bitOf s.cfg.eBase.toNat r ^^ xorBits (fun c =>
      s.bm.bitOf (s.cfg.pkBase.toNat + r * s.cfg.pkStride.toNat) c && s.bm.bitOf s.cfg.eBase.toNat (s.pR + c)) s.pK) := by
  have hleft : xorBits (fun c => s.syndEntry .systematic r c && s.bm.bitOf s.cfg.eBase.toNat c) s.pR =
      s.bm.bitOf s.cfg.eBase.toNat r := by
    rw [xorBits_congr fun c hc => by rw [State.syndEntry_left r hc], xorBits_identityRow, decide_eq_true hr,
      Bool.true_and]
  have hN : s.pN = s.pR + s.pK := (Nat.add_sub_of_le hRN).symm
  rw [State.syndBit, hN, xorBits_add, hleft]
  simp only [State.syndEntry_right]

/-! ### What SYND writes -/

theorem State.syndromeFull_of_read {e : Nat} {rows : List Nat} (he : s.bm.readVec? s.cfg.eBase.toNat s.pN = some e)
    (hrows : s.bm.readRows? s.cfg.hStride.toNat s.pN s.cfg.hBase.toNat s.pR = some rows) :
    syndromeFull s.pN e rows = (List.range s.pR).map (s.syndBit .full) := by
  have hlen := length_of_readRows? hrows
  refine List.ext_getElem (by simp [syndromeFull, hlen]) fun r hr _ => ?_
  rw [syndromeFull, List.length_map] at hr
  simp only [syndromeFull, List.getElem_map, List.getElem_range, parity_and]
  exact xorBits_congr fun c hc => by
    rw [State.syndEntry, Mem.bitOf_of_readRows? hrows hr hc, Mem.bitOf_of_readVec? he hc]

theorem State.syndromeSystematic_of_read (hRN : s.pR < s.pN) {e : Nat} {rows : List Nat}
    (he : s.bm.readVec? s.cfg.eBase.toNat s.pN = some e)
    (hrows : s.bm.readRows? s.cfg.pkStride.toNat s.pK s.cfg.pkBase.toNat s.pR = some rows) :
    syndromeSystematic s.pR s.pK e rows = (List.range s.pR).map (s.syndBit .systematic) := by
  have hlen := length_of_readRows? hrows
  refine List.ext_getElem (by simp [syndromeSystematic, hlen]) fun r hr _ => ?_
  rw [syndromeSystematic, List.length_mapIdx] at hr
  have hrR : r < s.pR := hlen ▸ hr
  simp only [syndromeSystematic, List.getElem_mapIdx, List.getElem_map, List.getElem_range, parity_and,
    Nat.testBit_shiftRight]
  rw [State.syndBit_systematic hRN.le hrR, Mem.bitOf_of_readVec? he (hrR.trans hRN)]
  refine congrArg _ (xorBits_congr fun c hc => ?_)
  rw [Mem.bitOf_of_readRows? hrows hr hc, Mem.bitOf_of_readVec? he (Nat.add_lt_of_lt_sub' hc)]

/-- Once its inputs are written, SYND computes that product. -/
theorem State.syndrome?_of_written (hRN : s.pR < s.pN) (he : s.bm.Written s.cfg.eBase.toNat s.nw)
    (hrows : s.SyndRowsWritten mode) : s.syndrome? mode = some ((List.range s.pR).map (s.syndBit mode)) := by
  obtain ⟨e, he⟩ := Option.isSome_iff_exists.mp (Mem.readVec?_isSome.mpr he)
  cases mode with
  | full =>
    have hH : s.bm.RowsWritten s.cfg.hBase.toNat s.cfg.hStride.toNat s.pR s.pN := hrows
    obtain ⟨rows, hrows⟩ := Option.isSome_iff_exists.mp (Mem.readRows?_isSome.mpr hH)
    rw [← State.syndromeFull_of_read he hrows]
    simp only [State.syndrome?, he, hrows]
  | systematic =>
    have hPK : s.bm.RowsWritten s.cfg.pkBase.toNat s.cfg.pkStride.toNat s.pR s.pK := hrows
    obtain ⟨rows, hrows⟩ := Option.isSome_iff_exists.mp (Mem.readRows?_isSome.mpr hPK)
    rw [← State.syndromeSystematic_of_read hRN he hrows]
    simp only [State.syndrome?, he, hrows]

/-- SYND's end once it has a syndrome: the region at `out`, and RESULT OK. -/
def syndFinish (out : Nat) (y : List Bool) (s : State) : State :=
  complete .ok { s with bm := s.bm.putVec out s.pR (packBits y) }

section
variable (hwf : (Instr.synd flags).wellFormed = true) (hcfg : CodeConfigured s) (hregions : s.SyndRegionsAccepted flags)
  (he : s.bm.Written s.cfg.eBase.toNat s.nw) (hrows : s.SyndRowsWritten (syndMode flags))
include hwf hcfg hregions he hrows

theorem exec_synd_eq : exec (.synd flags) s =
    .next (syndFinish (s.syndOut flags) ((List.range s.pR).map (s.syndBit (syndMode flags))) s) := by
  obtain ⟨_, _, _, hRN⟩ := id hcfg
  have hc : firstError s (.synd flags) = none := by
    rw [firstError, hwf]
    exact (blockError_eq_none s _).mpr ⟨hcfg, footprint_synd_eq s flags ▸ hregions⟩
  rw [exec_of_ok hc, effect, syndEffect, State.syndrome?_of_written hRN he hrows]
  rfl

/-- SYND in full: the product where OUT says, zero beyond it, and nothing else (R210, R87). -/
theorem exec_synd : ∃ t, exec (.synd flags) s = .next t ∧ t = { s.finished .ok with bm := t.bm } ∧
    (∀ r < s.pR, t.bm.bit? (s.syndOut flags) r = some (s.syndBit (syndMode flags) r)) ∧
    (∀ r, s.pR ≤ r → r < 32 * s.rw → t.bm.bit? (s.syndOut flags) r = some false) ∧
    SameBmOutside (s.syndOut flags) s.rw s t := by
  refine ⟨_, exec_synd_eq hwf hcfg hregions he hrows, rfl, fun r hr => ?_, fun r hpad hr => ?_, fun a ha => ?_⟩
  · rw [syndFinish, complete_bm, Mem.bit?_putVec _ (lt_of_wordsFor_le le_rfl hr), decide_eq_true hr, Bool.true_and,
      testBit_packBits]
    simp [hr]
  · rw [syndFinish, complete_bm, Mem.bit?_putVec _ hr, decide_eq_false (Nat.not_lt.mpr hpad), Bool.false_and]
  · exact (Mem.putVec_fills _ _ _ _).frame a fun ⟨hge, hlt⟩ => ha.elim (Nat.not_lt.mpr hge) (Nat.not_le.mpr hlt)

end

/-! ### The modes and sums of vectors (R211) -/

/-- Where H holds `[I | T]`, both modes have the same matrix and so the same product. -/
theorem State.syndBit_modes_agree
    (hI : ∀ r < s.pR, ∀ c < s.pR, s.bm.bitOf (s.cfg.hBase.toNat + r * s.cfg.hStride.toNat) c = decide (r = c))
    (hT : ∀ r < s.pR, ∀ c < s.pK, s.bm.bitOf (s.cfg.hBase.toNat + r * s.cfg.hStride.toNat) (s.pR + c) =
      s.bm.bitOf (s.cfg.pkBase.toNat + r * s.cfg.pkStride.toNat) c)
    {r : Nat} (hr : r < s.pR) : s.syndBit .full r = s.syndBit .systematic r := by
  refine xorBits_congr fun c hc => congrArg (· && _) ?_
  rcases Nat.lt_or_ge c s.pR with hleft | hright
  · exact (hI r hr c hleft).trans (State.syndEntry_left r hleft).symm
  · obtain ⟨c, rfl⟩ := Nat.exists_eq_add_of_le hright
    exact (hT r hr c (Nat.lt_sub_iff_add_lt'.mpr hc)).trans (State.syndEntry_right r c).symm

/-- With the configuration and the matrix region of `s`, SYND writes the product of the matrix of `s` and its own e. -/
theorem exec_synd_of_sameMatrix {u : State} (hparams : u.params = s.params) (hsame : u.cfg = s.cfg)
    (hwf : (Instr.synd flags).wellFormed = true) (hcfg : CodeConfigured s) (hregions : s.SyndRegionsAccepted flags)
    (hinputs : u.bm.Written s.cfg.eBase.toNat s.nw ∧
      u.bm.Written (s.syndRegion (syndMode flags)).first (s.syndRegion (syndMode flags)).len ∧
      ∀ a, (s.syndRegion (syndMode flags)).Has .bm a → u.bm.read? a = s.bm.read? a) :
    ∃ t, exec (.synd flags) u = .next t ∧ ∀ r < s.pR, t.bm.bitOf (s.syndOut flags) r =
      xorBits (fun c => s.syndEntry (syndMode flags) r c && u.bm.bitOf s.cfg.eBase.toNat c) s.pN := by
  obtain ⟨u, rfl⟩ : ∃ v : State, u = { v with params := s.params, cfg := s.cfg } := ⟨u, by rw [← hparams, ← hsame]⟩
  obtain ⟨he, hmatrix, hagree⟩ := hinputs
  obtain ⟨_, hstrides, _⟩ := id hregions
  have hst : (s.syndStride (syndMode flags)).2 ≤ (s.syndStride (syndMode flags)).1 := hstrides _ (List.mem_singleton_self _)
  obtain ⟨t, ht, _, hbits, _⟩ := exec_synd (s := { u with params := s.params, cfg := s.cfg }) hwf hcfg hregions he
    (State.syndRowsWritten_of_region hmatrix hst)
  refine ⟨t, ht, fun r hr => ?_⟩
  have hbit := congrArg (Option.getD · false) (hbits r hr)
  exact hbit.trans (xorBits_congr fun c hc => congrArg (· && _) (State.syndEntry_congr_of_region hagree hst hr hc))

end

/-- Settles O26: the matrix of the mode, times e, where OUT says. -/
theorem syndWritesTheMatrixVectorProduct : Obligations.SyndWritesTheMatrixVectorProduct := by
  intro s out hcfg he
  obtain ⟨_, _, _, hRN⟩ := id hcfg
  refine ⟨fun flags hflags hregions hH => ?_, fun flags hflags hregions hT => ?_⟩
  · rcases hflags with ⟨rfl, rfl⟩ | ⟨rfl, rfl⟩ <;> exact exec_synd rfl hcfg hregions he hH
  · have hoperands : (Instr.synd flags).wellFormed = true ∧ syndMode flags = .systematic ∧ s.syndOut flags = out := by
      rcases hflags with ⟨rfl, rfl⟩ | ⟨rfl, rfl⟩ <;> exact ⟨rfl, rfl, rfl⟩
    obtain ⟨hwf, hmode, rfl⟩ := hoperands
    have hsynd := exec_synd hwf hcfg (s := s)
    rw [State.SyndRegionsAccepted, hmode] at hsynd
    obtain ⟨t, ht, hstate, hbits, hrest⟩ := hsynd hregions he hT
    exact ⟨t, ht, hstate, fun r hr => (hbits r hr).trans (congrArg some (State.syndBit_systematic hRN.le hr)), hrest⟩

/-- Settles O27: with `[I | T]` in H the two matrices are the same, and a product is linear in its vector. -/
theorem syndModesAgreeAndAreLinear : Obligations.SyndModesAgreeAndAreLinear := by
  refine ⟨?_, ?_⟩
  · intro s hcfg he hH hPK hfull hsystematic hI hT
    have hproduct : (List.range s.pR).map (s.syndBit .full) = (List.range s.pR).map (s.syndBit .systematic) :=
      List.map_congr_left fun r hr => State.syndBit_modes_agree hI hT (List.mem_range.mp hr)
    have h0 := exec_synd_eq (flags := 0) rfl hcfg hfull he hH
    have h1 : exec (.synd 1) s =
        .next (syndFinish s.cfg.sBase.toNat ((List.range s.pR).map (s.syndBit .systematic)) s) :=
      exec_synd_eq rfl hcfg hsystematic he hPK
    rw [← hproduct] at h1
    exact ⟨_, h0, h1, rfl⟩
  · intro s0 s1 s2 flags matrix stride hcfg hflags hregions hparams1 hparams2 hcfg1 hcfg2 hinputs hsum
    have hoperands : (Instr.synd flags).wellFormed = true ∧ matrix = s0.syndRegion (syndMode flags) ∧
        stride = s0.syndStride (syndMode flags) ∧ s0.cfg.sBase.toNat = s0.syndOut flags := by
      rcases hflags with ⟨rfl, hmatrix, hstride⟩ | ⟨rfl, hmatrix, hstride⟩ <;> exact ⟨rfl, hmatrix, hstride, rfl⟩
    obtain ⟨hwf, rfl, rfl, hout⟩ := hoperands
    rw [hout] at hregions ⊢
    have hsynd (u : State) (hu : u ∈ [s0, s1, s2]) (hparams : u.params = s0.params) (hsame : u.cfg = s0.cfg) :=
      exec_synd_of_sameMatrix hparams hsame hwf hcfg hregions (hinputs u hu)
    obtain ⟨t0, ht0, hbits0⟩ := hsynd s0 (by simp) rfl rfl
    obtain ⟨t1, ht1, hbits1⟩ := hsynd s1 (by simp) hparams1 hcfg1
    obtain ⟨t2, ht2, hbits2⟩ := hsynd s2 (by simp) hparams2 hcfg2
    refine ⟨t0, t1, t2, ht0, ht1, ht2, fun r hr => ?_⟩
    rw [hbits0 r hr, hbits1 r hr, hbits2 r hr, ← xorBits_xor]
    exact xorBits_congr fun c hc => by rw [hsum c hc, Bool.and_xor_distrib_left]

end Sys2Proof.Machine
end

section
/-! PROOFS. The syndrome-decoding engine (44_decode.md). What each command reads and writes is a list of values `f 0 … f (n−1)`,
so each of its loops is a sum or a recurrence over the index; with that DSYND (O33), BM (O34), ROOTS (O35) and CHECK (O36). -/

namespace Sys2Proof.Machine

/-! ### Objects in FM, element by element (R83, R85) -/

section
variable {s : State} {base len : Nat}

/-- A written FM object, masked to M bits, is the list of its elements. -/
theorem State.maskedVals?_of_written (h : s.fm.Written base len) :
    (s.fmVals? base len).map (fun vs => vs.map (maskM s.field)) = some ((List.range len).map fun j => s.elemAt (base + j)) := by
  obtain ⟨vs, hvs⟩ := Option.isSome_iff_exists.mp (State.fmVals?_isSome.mpr h)
  obtain ⟨rfl, helem⟩ := State.maskM_of_fmVals? hvs
  rw [hvs, Option.map_some]
  refine congrArg some (List.ext_getElem (by simp) fun j hj _ => ?_)
  rw [List.length_map] at hj
  rw [List.getElem_map, List.getElem_map, List.getElem_range, ← helem j hj, List.getD_eq_getElem _ _ hj]

/-- `α_i` (R85). -/
def State.supportPoint (s : State) (i : Nat) : Nat := s.elemAt (s.cfg.suppBase.toNat + i)

theorem State.support?_eq_map (h : s.fm.Written s.cfg.suppBase.toNat s.pN) :
    s.support? = some ((List.range s.pN).map s.supportPoint) :=
  State.maskedVals?_of_written h

theorem State.synSet?_eq_map {set : Nat} (h : s.fm.Written (s.synRegion set).first (2 * s.pT)) :
    s.synSet? set = some ((List.range (2 * s.pT)).map fun j => s.elemAt ((s.synRegion set).first + j)) :=
  State.maskedVals?_of_written h

/-- The values written to FM read back. -/
theorem State.read?_putFm (s : State) (base : Nat) {f : Nat → Nat} {j : Nat} (hj : j < len) :
    (s.putFm base ((List.range len).map f)).fm.read? (base + j) = some (BitVec.ofNat 16 (f j)) := by
  rw [putFm_fm, Mem.read?_writeN, if_pos (by simp [hj]), Nat.add_sub_cancel_left]
  simp [hj, zext16]

theorem State.read?_putFm_outside (s : State) (base : Nat) (f : Nat → Nat) {a : Nat} (ha : a < base ∨ base + len ≤ a) :
    (s.putFm base ((List.range len).map f)).fm.read? a = s.fm.read? a :=
  Mem.read?_writeN_outside _ _ _ _ (by simpa using ha)

end

/-! ### Vectors in BM, bit by bit (R11, R87) -/

/-- A vector read has the bits of its words, and none beyond its length (R87). -/
theorem Mem.testBit_of_readVec? {m : Mem 32} {b n v : Nat} (h : m.readVec? b n = some v) (j : Nat) :
    v.testBit j = (decide (j < n) && m.bitOf b j) := by
  by_cases hj : j < n
  · rw [Mem.bitOf_of_readVec? h hj, decide_eq_true hj, Bool.true_and]
  · obtain ⟨ws, _, rfl⟩ := Option.map_eq_some_iff.mp h
    rw [Nat.testBit_mod_two_pow, decide_eq_false hj, Bool.false_and, Bool.false_and]

/-- Two vectors read are the same exactly if their bits are. -/
theorem Mem.readVec?_eq_iff {m : Mem 32} {b b' n v v' : Nat} (h : m.readVec? b n = some v) (h' : m.readVec? b' n = some v') :
    v = v' ↔ ∀ j < n, m.bitOf b j = m.bitOf b' j := by
  refine ⟨fun heq j hj => ?_, fun hbits => Nat.eq_of_testBit_eq fun j => ?_⟩
  · rw [Mem.bitOf_of_readVec? h hj, Mem.bitOf_of_readVec? h' hj, heq]
  · rw [Mem.testBit_of_readVec? h, Mem.testBit_of_readVec? h']
    by_cases hj : j < n
    · rw [hbits j hj]
    · rw [decide_eq_false hj, Bool.false_and, Bool.false_and]

/-! ### Sums, and operations with 0 -/

theorem xorSum_zero (n : Nat) : xorSum (fun _ => 0) n = 0 := by
  induction n with
  | zero => rfl
  | succ n ih => rw [xorSum, ih, Nat.xor_zero]

theorem xorSum_congr {f g : Nat → Nat} {n : Nat} (h : ∀ i < n, f i = g i) : xorSum f n = xorSum g n := by
  induction n with
  | zero => rfl
  | succ n ih => rw [xorSum, xorSum, ih fun i hi => h i (by omega), h n (by omega)]

section
variable {F : GField}

theorem gfMul_zero_right (hF : F.Legal) (u : Nat) : gfMul F u 0 = 0 :=
  eq_of_elem_eq hF (gfMul_lt hF) (Nat.two_pow_pos _) (by rw [elem_gfMul hF, elem_zero, mul_zero])

theorem gfMul_zero_left (hF : F.Legal) (u : Nat) : gfMul F 0 u = 0 :=
  eq_of_elem_eq hF (gfMul_lt hF) (Nat.two_pow_pos _) (by rw [elem_gfMul hF, elem_zero, zero_mul])

theorem gfAdd_zero_right {u : Nat} (hu : u < 2 ^ F.m) : gfAdd F u 0 = u := by
  rw [gfAdd, maskM_id F hu, maskM_id F (Nat.two_pow_pos _), Nat.xor_zero]

end

/-! ### DSYND (R220) -/

section
variable {F : GField}

/-- The running product of R220 runs through the powers by R144's recurrence. -/
theorem gfPowers_eq_map (hF : F.Legal) (a : Nat) {c : Nat} (hc : c < 2 ^ F.m) (len : Nat) :
    gfPowers F a c len = (List.range len).map fun j => gfMul F (powRec F a j) c := by
  induction len generalizing c with
  | zero => rfl
  | succ len ih =>
    have hfirst : gfMul F (powRec F a 0) c = c :=
      eq_of_elem_eq hF (gfMul_lt hF) hc (by rw [elem_gfMul hF, powRec, elem_one hF, one_mul])
    have hnext (j : Nat) : gfMul F (powRec F a j) (gfMul F c a) = gfMul F (powRec F a (j + 1)) c := by
      apply eq_of_elem_eq hF (gfMul_lt hF) (gfMul_lt hF)
      simp only [elem_gfMul hF, powRec]
      ring
    simp only [gfPowers, ih (gfMul_lt hF), List.range_succ_eq_map, List.map_cons, List.map_map, hfirst, hnext]
    rfl

/-- Lists added up place by place. -/
theorem foldl_gfAdd_eq_xorSum {len : Nat} {f : Nat → Nat → Nat} (hf : ∀ i j, f i j < 2 ^ F.m) (n : Nat) :
    (List.range n).foldl (fun acc i => List.zipWith (gfAdd F) acc ((List.range len).map (f i))) (List.replicate len 0) =
      (List.range len).map fun j => xorSum (fun i => f i j) n := by
  induction n with
  | zero => exact List.ext_getElem (by simp) fun j _ _ => by simp [xorSum]
  | succ n ih =>
    have hadd (j : Nat) : gfAdd F (xorSum (fun i => f i j) n) (f n j) = xorSum (fun i => f i j) (n + 1) := by
      rw [gfAdd, maskM_id F (xorSum_lt (fun i => hf i j) n), maskM_id F (hf n j), xorSum]
    rw [List.range_succ, List.foldl_concat, ih, List.zipWith_map, List.zipWith_self]
    simp only [hadd]

end

section
variable {s : State}

/-- `α_i^j / g(α_i)^2` (R220). -/
def State.dsyndQuotient (s : State) (i j : Nat) : Nat :=
  gfMul s.field (powRec s.field (s.supportPoint i) j)
    (powRec s.field (gfMul s.field (s.goppaValue i) (s.goppaValue i)) (2 ^ s.pM - 2))

/-- `s_j` of the vector `v` (R220). -/
def State.dsyndElem (s : State) (v : Nat → Bool) (j : Nat) : Nat :=
  xorSum (fun i => if v i then s.dsyndQuotient i j else 0) s.pN

theorem State.dsyndTerm_eq_map (hcfg : FieldConfigured s) {g : List Nat} (hg : s.genPoly? = some g) (len i : Nat) (b : Bool) :
    dsyndTerm s.field g len (s.supportPoint i) b = (List.range len).map fun j => if b then s.dsyndQuotient i j else 0 := by
  have hvalue : polyEval s.field g (s.supportPoint i) = s.goppaValue i := State.polyEval_eq_polyAt hcfg hg _
  have hinv (u : Nat) : gfInv s.field u = powRec s.field u (2 ^ s.pM - 2) := gfPow_eq_powRec hcfg _ _
  rw [dsyndTerm, hvalue, hinv]
  cases b with
  | false =>
    rw [if_neg Bool.false_ne_true, gfPowers_eq_map hcfg _ (Nat.two_pow_pos _)]
    simp only [gfMul_zero_right (F := s.field) hcfg, if_neg Bool.false_ne_true]
  | true =>
    rw [if_pos rfl, gfPowers_eq_map hcfg _ (powRec_lt hcfg _ _)]
    rfl

/-- Once its inputs are written, DSYND computes the sums of R220. -/
theorem State.dsynd?_of_written (hcfg : FieldConfigured s) (hsupp : s.fm.Written s.cfg.suppBase.toNat s.pN)
    (hpoly : s.fm.Written s.cfg.polyBase.toNat (s.pT + 1)) {src : DsyndSrc} {w : Nat} (hw : s.dsyndVec? src = some w) :
    s.dsynd? src = some ((List.range (2 * s.pT)).map (s.dsyndElem w.testBit)) := by
  obtain ⟨g, hg⟩ := Option.isSome_iff_exists.mp (State.fmVals?_isSome.mpr hpoly)
  have hlt (i j : Nat) : (if w.testBit i then s.dsyndQuotient i j else 0) < 2 ^ s.field.m := by
    split
    · exact gfMul_lt hcfg
    · exact Nat.two_pow_pos _
  have hindexed : ((List.range s.pN).map s.supportPoint).zipIdx = (List.range s.pN).map fun i => (s.supportPoint i, i) :=
    List.ext_getElem (by simp) fun i _ _ => by simp
  rw [State.dsynd?, State.support?_eq_map hsupp, State.genPoly?, hg, hw]
  simp only [dsyndSum, hindexed, List.foldl_map, State.dsyndTerm_eq_map hcfg hg, foldl_gfAdd_eq_xorSum hlt]
  rfl

end

/-- Settles O33: the sums of R220, over the bits of the vector that SRC names. -/
theorem dsyndWritesTheDoubledSyndrome : Obligations.DsyndWritesTheDoubledSyndrome := by
  intro s flags v input out hcfg hsrc hregions hsupp hpoly hvec point g
  obtain ⟨hc, hout, w, hw, hbits⟩ : firstError s (.dsynd flags) = none ∧ (s.synRegion (dsyndSrc flags).set).first = out ∧
      ∃ w, s.dsyndVec? (dsyndSrc flags) = some w ∧ ∀ i < s.pN, w.testBit i = v i := by
    rcases hsrc with ⟨rfl, hv, rfl, rfl⟩ | ⟨rfl, hv, rfl, rfl⟩
    · obtain ⟨w, hw⟩ := Option.isSome_iff_exists.mp (Mem.readVec?_isSome.mpr hvec)
      exact ⟨(blockError_eq_none s (.dsynd 0)).mpr ⟨hcfg, hregions⟩, rfl, w, hw,
        fun i _ => by rw [hv, Mem.testBit_of_readVec? hw]⟩
    · obtain ⟨w, hw⟩ := Option.isSome_iff_exists.mp (Mem.readVec?_isSome.mpr hvec)
      refine ⟨(blockError_eq_none s (.dsynd 1)).mpr ⟨hcfg, ?_⟩, ?_, w, hw,
        fun i hi => by rw [hv, Mem.bitOf_of_readVec? hw hi]⟩
      · rw [footprint_dsynd s (by decide)]
        exact hregions
      · exact congrArg (_ + ·) (Nat.mul_one _)
  subst hout
  have hsums : s.dsyndElem w.testBit = s.dsyndElem v := funext fun j => xorSum_congr fun i hi => by rw [hbits i hi]
  have heffect : dsyndEffect flags s = complete .ok
      (s.putFm (s.synRegion (dsyndSrc flags).set).first ((List.range (2 * s.pT)).map (s.dsyndElem v))) := by
    rw [dsyndEffect, State.dsynd?_of_written hcfg.1 hsupp hpoly hw, hsums]
  exact ⟨_, (exec_of_ok hc).trans (congrArg _ heffect), rfl, fun j hj => s.read?_putFm _ hj,
    fun a ha => s.read?_putFm_outside _ _ ha⟩

/-! ### BM (R221) -/

section
variable {F : GField} {t n : Nat} {syn : Nat → Nat}

/-- The arrays of R221 up to index T, as the model holds them. -/
def BmLoop.arrays (t : Nat) (x : BmLoop) : BmState :=
  { c := (List.range (t + 1)).map x.c, b := (List.range (t + 1)).map x.b, l := x.l, lastD := x.lastD }

theorem BmState.start_eq_arrays : BmState.start t = (bmLoop F t syn 0).arrays t := by
  have hunit (k : Nat) : (List.replicate (t + 1) 0).set k 1 = (List.range (t + 1)).map fun i => if i = k then 1 else 0 :=
    List.ext_getElem (by simp) fun i _ _ => by simp [List.getElem_set, eq_comm]
  rw [BmState.start, hunit, hunit]
  rfl

theorem bmDiscrepancy_eq_xorSum (hn : n < 2 * t) (c : Nat → Nat) :
    bmDiscrepancy F t ((List.range (2 * t)).map syn) n ((List.range (t + 1)).map c) =
      xorSum (fun i => gfMul F (c i) (syn (n - i))) (min n t + 1) := by
  have hfold (f : Nat → Nat) (k : Nat) : (List.range k).foldl (fun acc i => acc ^^^ f i) 0 = xorSum f k := by
    induction k with
    | zero => rfl
    | succ k ih => rw [List.range_succ, List.foldl_concat, ih, xorSum]
  rw [bmDiscrepancy, hfold]
  refine xorSum_congr fun i hi => ?_
  rw [List.getD_eq_getElem _ _ (by simp; omega), List.getD_eq_getElem _ _ (by simp; omega)]
  simp

/-- An iteration of the model is one of R221: its arrays end at T, and B moves up by one place. -/
theorem bmStep_arrays (hF : F.Legal) (hn : n < 2 * t) (x : BmLoop) :
    bmStep F t ((List.range (2 * t)).map syn) (x.arrays t) n = (x.next F t syn n).arrays t := by
  have hinv : gfInv F x.lastD = powRec F x.lastD (2 ^ F.m - 2) := gfPow_eq_powRec hF _ _
  have hshift (b : Nat → Nat) : 0 :: ((List.range (t + 1)).map b).take t =
      (List.range (t + 1)).map fun i => if i = 0 then 0 else b (i - 1) := by
    rw [← List.map_take, List.take_range, Nat.min_eq_left (Nat.le_succ t), List.range_succ_eq_map (n := t), List.map_cons,
      List.map_map]
    rfl
  simp only [bmStep, BmLoop.arrays, BmLoop.next, bmDiscrepancy_eq_xorSum hn, hinv, List.zipWith_map, List.zipWith_self]
  split <;> simp only [hshift]

/-- 2T iterations of the model are 2T of R221. -/
theorem bmRun_eq_arrays (hF : F.Legal) :
    bmRun F t ((List.range (2 * t)).map syn) = (bmLoop F t syn (2 * t)).arrays t := by
  have key : ∀ n ≤ 2 * t, (List.range n).foldl (bmStep F t ((List.range (2 * t)).map syn)) (BmState.start t) =
      (bmLoop F t syn n).arrays t := by
    intro n
    induction n with
    | zero => exact fun _ => BmState.start_eq_arrays
    | succ n ih =>
      intro hn
      rw [List.range_succ, List.foldl_concat, ih (by omega), bmStep_arrays hF (by omega), bmLoop]
  exact key _ le_rfl

/-- `C[0]` stays 1, for `B[0]` stays 0. -/
theorem bmLoop_c_zero (hF : F.Legal) (n : Nat) : (bmLoop F t syn n).c 0 = 1 ∧ (bmLoop F t syn n).b 0 = 0 := by
  induction n with
  | zero => exact ⟨rfl, rfl⟩
  | succ n ih =>
    obtain ⟨hc, hb⟩ := ih
    refine ⟨?_, rfl⟩
    rw [bmLoop, BmLoop.next]
    simp only [hc, hb, gfMul_zero_right hF, gfAdd_zero_right hF.one_lt]

/-- With syndromes all zero every discrepancy is 0, so C and L stay as they are. -/
theorem bmLoop_of_zero (hF : F.Legal) (hsyn : ∀ j < 2 * t, syn j = 0) (hn : n ≤ 2 * t) :
    (bmLoop F t syn n).l = 0 ∧ ∀ i, (bmLoop F t syn n).c i = if i = 0 then 1 else 0 := by
  induction n with
  | zero => exact ⟨rfl, fun _ => rfl⟩
  | succ n ih =>
    obtain ⟨hl, hc⟩ := ih (by omega)
    have hd : xorSum (fun i => gfMul F ((bmLoop F t syn n).c i) (syn (n - i))) (min n t + 1) = 0 :=
      (xorSum_congr fun i _ => by rw [hsyn (n - i) (by omega), gfMul_zero_right hF]).trans (xorSum_zero _)
    have hkeep (i : Nat) : gfAdd F ((bmLoop F t syn n).c i) 0 = (bmLoop F t syn n).c i := by
      rw [hc]
      split
      · exact gfAdd_zero_right hF.one_lt
      · exact gfAdd_zero_right (Nat.two_pow_pos _)
    rw [bmLoop, BmLoop.next]
    simp only [hd, gfMul_zero_left hF, hkeep]
    exact ⟨hl, hc⟩

end

section
variable {s : State}

/-- R221's loop over set 0 at its end. -/
def State.bmOut (s : State) : BmLoop :=
  bmLoop s.field s.pT (fun j => s.elemAt (s.cfg.scrBase.toNat + j)) (2 * s.pT)

theorem bmEffect_of_written (hcfg : FieldConfigured s) (hsyn : s.fm.Written s.cfg.scrBase.toNat (2 * s.pT)) :
    bmEffect s = complete .ok { s.putFm s.cfg.locBase.toNat ((List.range (s.pT + 1)).map fun k => s.bmOut.c (s.pT - k)) with
      bmL := BitVec.ofNat 17 s.bmOut.l } := by
  have hset : s.synSet? 0 = some ((List.range (2 * s.pT)).map fun j => s.elemAt (s.cfg.scrBase.toNat + j)) :=
    State.synSet?_eq_map hsyn
  have hreverse : ((List.range (s.pT + 1)).map s.bmOut.c).reverse =
      (List.range (s.pT + 1)).map fun k => s.bmOut.c (s.pT - k) := List.ext_getElem (by simp) fun k _ _ => by simp
  simp only [bmEffect, hset, bmRun_eq_arrays (F := s.field) hcfg, ← hreverse]
  rfl

end

/-- Settles O34: the model's run is the loop of R221 with its arrays cut off at T. -/
theorem bmRunsTheRecurrence : Obligations.BmRunsTheRecurrence := by
  intro s hcfg hregions hsyn out
  have heffect := bmEffect_of_written hcfg.1 hsyn
  have hloc {k : Nat} (hk : k ≤ s.pT) : (bmEffect s).fm.read? (s.cfg.locBase.toNat + k) =
      some (BitVec.ofNat 16 (out.c (s.pT - k))) := by
    rw [heffect]
    exact s.read?_putFm _ (Nat.lt_succ_of_le hk)
  refine ⟨_, exec_of_ok (i := .bm) ((blockError_eq_none s .bm).mpr ⟨hcfg, hregions⟩), ?_, fun k hk => hloc hk,
    fun a ha => ?_, ?_, fun hzero => ?_⟩
  · rw [effect, heffect]
    rfl
  · rw [effect, heffect]
    exact s.read?_putFm_outside _ _ ha
  · rw [effect, hloc le_rfl, Nat.sub_self, (bmLoop_c_zero hcfg.1 _).1]
    rfl
  · obtain ⟨hl, hc⟩ := bmLoop_of_zero (F := s.field) hcfg.1 hzero le_rfl
    refine ⟨?_, fun k hk => ?_⟩
    · rw [effect, heffect]
      exact congrArg (BitVec.ofNat 17) hl
    · rw [effect, hloc hk.le, hc, if_neg (by omega)]
      rfl

/-! ### ROOTS (R222) -/

/-- Whether `σ(α_i) = 0` (R222). -/
def State.locatorVanishes (s : State) (i : Nat) : Bool :=
  decide (s.polyAt s.cfg.locBase.toNat s.pT (s.supportPoint i) = 0)

theorem State.roots?_of_written {s : State} (hcfg : FieldConfigured s) (hsupp : s.fm.Written s.cfg.suppBase.toNat s.pN)
    (hloc : s.fm.Written s.cfg.locBase.toNat (s.pT + 1)) :
    s.roots? = some ((List.range s.pN).map s.locatorVanishes) := by
  obtain ⟨sigma, hsigma⟩ := Option.isSome_iff_exists.mp (State.fmVals?_isSome.mpr hloc)
  rw [State.roots?, State.support?_eq_map hsupp, State.locator?, hsigma]
  simp only [List.map_map, Function.comp_def, State.polyEval_eq_polyAt hcfg hsigma]
  rfl

/-- Settles O35: each bit is whether the locator is 0 at its point, zero beyond the support. -/
theorem rootsMarksTheLocatorsRoots : Obligations.RootsMarksTheLocatorsRoots := by
  intro s hcfg hregions hsupp hloc
  have heffect : rootsEffect s = complete .ok
      { s with bm := s.bm.putVec s.cfg.eBase.toNat s.pN (packBits ((List.range s.pN).map s.locatorVanishes)) } := by
    rw [rootsEffect, State.roots?_of_written hcfg.1 hsupp hloc]
  refine ⟨_, (exec_of_ok (i := .roots) ((blockError_eq_none s .roots).mpr ⟨hcfg, hregions⟩)).trans
    (congrArg _ heffect), rfl, fun i hi => ?_, fun i hpad hi => ?_, fun a ha => ?_⟩
  · rw [complete_bm, Mem.bit?_putVec _ (lt_of_wordsFor_le le_rfl hi), decide_eq_true hi, Bool.true_and, testBit_packBits,
      List.getD_eq_getElem _ _ (by simpa using hi), List.getElem_map, List.getElem_range]
    rfl
  · rw [complete_bm, Mem.bit?_putVec _ hi, decide_eq_false (Nat.not_lt.mpr hpad), Bool.false_and]
  · exact (Mem.putVec_fills _ _ _ _).frame a fun ⟨hge, hlt⟩ => ha.elim (Nat.not_lt.mpr hge) (Nat.not_le.mpr hlt)

/-! ### CHECK (R223) -/

theorem popcount_eq_countBits (n v : Nat) : popcount n v = countBits v.testBit n := by
  induction n with
  | zero => rfl
  | succ n ih =>
    rw [countBits, ← ih, popcount, List.range_succ, List.filter_append, List.length_append, popcount]
    cases h : v.testBit n <;> simp [h]

theorem countBits_congr {f g : Nat → Bool} {n : Nat} (h : ∀ i < n, f i = g i) : countBits f n = countBits g n := by
  induction n with
  | zero => rfl
  | succ n ih => rw [countBits, countBits, ih fun i hi => h i (by omega), h n (by omega)]

theorem countBits_le (f : Nat → Bool) (n : Nat) : countBits f n ≤ n := by
  rw [countBits_eq_card]
  exact (Finset.card_filter_le _ _).trans_eq (Finset.card_range n)

/-- The word CHK reads, field by field (R35). -/
theorem toNat_chkWord {w : Nat} (hw : w < 2 ^ 17) (weq eq : Bool) : (chkWord w weq eq).toNat =
    w + 2 ^ 29 * weq.toNat + 2 ^ 30 * eq.toNat + 2 ^ 31 * (weq && eq).toNat := by
  simp only [chkWord, bit, toNat_append_eq, BitVec.toNat_ofBool, BitVec.toNat_ofNat]
  omega

theorem maskWord_eq (ok : Bool) : maskWord ok = if ok.toNat = 1 then 0xFFFFFFFF else 0 := by cases ok <;> rfl

theorem toNat_and (a b : Bool) : (a && b).toNat = a.toNat * b.toNat := by cases a <;> simp

section
variable {s : State}

/-- CHECK with CMP 0 compares S and S2 bit by bit. -/
theorem State.syndromesEqual?_reencryption (hs : s.bm.Written s.cfg.sBase.toNat s.rw)
    (hs2 : s.bm.Written s.cfg.s2Base.toNat s.rw) : ∃ eq, s.syndromesEqual? .reencryption = some eq ∧
      (eq = true ↔ ∀ r < s.pR, s.bm.bitOf s.cfg.sBase.toNat r = s.bm.bitOf s.cfg.s2Base.toNat r) := by
  obtain ⟨c, hc⟩ := Option.isSome_iff_exists.mp (Mem.readVec?_isSome.mpr hs)
  obtain ⟨c2, hc2⟩ := Option.isSome_iff_exists.mp (Mem.readVec?_isSome.mpr hs2)
  refine ⟨c == c2, by rw [State.syndromesEqual?, hc, hc2], ?_⟩
  rw [beq_iff_eq, Mem.readVec?_eq_iff hc hc2]

/-- CHECK with CMP 1 compares the two sets of doubled syndromes element by element. -/
theorem State.syndromesEqual?_doubledSyndrome (h : s.fm.Written s.cfg.scrBase.toNat (4 * s.pT)) :
    ∃ eq, s.syndromesEqual? .doubledSyndrome = some eq ∧
      (eq = true ↔ ∀ j < 2 * s.pT,
        s.elemAt (s.cfg.scrBase.toNat + j) = s.elemAt (s.cfg.scrBase.toNat + 2 * s.pT + j)) := by
  have hset (set : Nat) (hlt : set < 2) : s.synSet? set =
      some ((List.range (2 * s.pT)).map fun j => s.elemAt (s.cfg.scrBase.toNat + 2 * s.pT * set + j)) := by
    refine State.synSet?_eq_map fun k hk => ?_
    have hinside : 2 * s.pT * set + k < 4 * s.pT := by
      have := Nat.mul_le_mul_left (2 * s.pT) (Nat.le_of_lt_succ hlt)
      omega
    rw [State.synRegion, Nat.add_assoc]
    exact h _ hinside
  refine ⟨_, by rw [State.syndromesEqual?, hset 0 (by decide), hset 1 (by decide)], ?_⟩
  rw [beq_iff_eq, List.map_inj_left]
  simp only [List.mem_range, Nat.mul_zero, Nat.add_zero, Nat.mul_one]

/-- The weight and the verdict CHECK reports, once what it compares is known. -/
theorem State.check?_of_written (he : s.bm.Written s.cfg.eBase.toNat s.nw) {cmp : CheckCmp} {eq : Bool}
    (heq : s.syndromesEqual? cmp = some eq) :
    s.check? cmp = some (countBits (fun i => s.bm.bitOf s.cfg.eBase.toNat i) s.pN, eq) := by
  obtain ⟨e, he⟩ := Option.isSome_iff_exists.mp (Mem.readVec?_isSome.mpr he)
  rw [State.check?, he, heq]
  simp only [popcount_eq_countBits, countBits_congr fun i hi => (Mem.bitOf_of_readVec? he hi).symm]

end

/-- Settles O36: the weight of e and the comparison that CMP selects make up both words. -/
theorem checkReportsWeightAndEquality : Obligations.CheckReportsWeightAndEquality := by
  intro s flags inputs same hcfg hcmp hregions hwritten weight
  have hbm {b len : Nat} (hr : ⟨.bm, b, len⟩ ∈ inputs) : s.bm.Written b len := fun k hk =>
    (hwritten _ hr (b + k)).2 ⟨rfl, Nat.le_add_right b k, Nat.add_lt_add_left hk b⟩
  have hfm {b len : Nat} (hr : ⟨.fm, b, len⟩ ∈ inputs) : s.fm.Written b len := fun k hk =>
    (hwritten _ hr (b + k)).1 ⟨rfl, Nat.le_add_right b k, Nat.add_lt_add_left hk b⟩
  obtain ⟨hc, he, eq, heq, hsame⟩ : firstError s (.check flags) = none ∧ s.bm.Written s.cfg.eBase.toNat s.nw ∧
      ∃ eq, s.syndromesEqual? (checkCmp flags) = some eq ∧ (eq = true ↔ same) := by
    rcases hcmp with ⟨rfl, rfl, hsame⟩ | ⟨rfl, rfl, hsame⟩
    · rw [hsame]
      exact ⟨(blockError_eq_none s (.check 0)).mpr ⟨hcfg, hregions⟩, hbm (by simp),
        State.syndromesEqual?_reencryption (hbm (by simp)) (hbm (by simp))⟩
    · rw [hsame]
      exact ⟨(blockError_eq_none s (.check 1)).mpr ⟨hcfg, hregions⟩, hbm (by simp),
        State.syndromesEqual?_doubledSyndrome (hfm (by simp))⟩
  have hlt : weight < 2 ^ 17 := (countBits_le _ _).trans_lt s.cfg.paramN.isLt
  have heffect : checkEffect flags s = complete .ok { s with
      chk := chkWord weight (weight == s.pT) eq, mask := maskWord (weight == s.pT && eq) } := by
    rw [checkEffect, State.check?_of_written he heq]
  refine ⟨_, (weight == s.pT).toNat, eq.toNat, (weight == s.pT && eq).toNat,
    (exec_of_ok hc).trans (congrArg _ heffect), rfl, ?_, ?_, toNat_and _ _, Bool.toNat_le _, Bool.toNat_le _,
    toNat_chkWord hlt _ _, maskWord_eq _⟩
  · rw [Bool.toNat_eq_one, beq_iff_eq]
  · rw [Bool.toNat_eq_one, hsame]

end Sys2Proof.Machine
end

section
/-! PROOFS. NOP (45_control.md): the one legal word of its opcode, and its completion (O10). -/

namespace Sys2Proof.Machine

/-- NOP's row has no operand: every bit beyond the opcode must be zero (R115). -/
theorem decode_of_opcode_zero {w : BWord} (hop : Decode.opcode w = 0) :
    decode w = if w = 0 then .ok .nop else .error .mustBeZero := by
  have hrow : opcodeRow? (Decode.opcode w) = some ⟨"NOP", 0xFFFFFFFF, 0, fun _ => .nop⟩ := by rw [hop]; rfl
  have hzero : w = 0 ↔ w &&& 0xFFFFFF00 = 0 := eq_iff_opcode_and_rest.trans (and_iff_right hop)
  rw [decode_of_row hrow]
  exact if_congr hzero.symm rfl rfl

/-- Settles O10: only 0 has opcode 0 and no further bit, and NOP has no check to fail in any state. -/
theorem nopOnlyCompletes : Obligations.NopOnlyCompletes := by
  refine ⟨fun w hw => decode_of_opcode_zero ?_, fun s => exec_of_ok (i := .nop) rfl⟩
  rwa [← BitVec.toNat_inj, toNat_opcode]

end Sys2Proof.Machine
end

section
/-! PROOFS. The life of a command (60_exceptions.md): what starts one (O7, O8), and how its engine turn ends, in STATUS and in
what is in flight (O9, O37, O39). -/

namespace Sys2Proof.Machine

/-! ### How a command starts (R250, R251) -/

/-- Settles O7, by whether a command is in flight. -/
theorem cmdWriteIsAcceptedOrDropped : Obligations.CmdWriteIsAcceptedOrDropped := by
  refine fun s w => ⟨fun hidle => ?_, fun hbusy => ?_⟩
  · rw [write_cmd, writeCmd, hidle]
    rfl
  · rw [write_cmd, writeCmd, hbusy]
    rfl

section
variable {s t : State}

theorem WriteEffect.starts {v : BWord} {r : Reg} {c : InFlight} (h : WriteEffect v s r t) (hidle : s.inflight = none)
    (hc : t.inflight = some c) : r = .cmd ∧ c.word = v := by
  have hold : t.inflight ≠ s.inflight := by simp [hidle, hc]
  cases h with
  | cmd =>
    rw [writeCmd, State.busy_eq_false_iff.mpr hidle] at hc
    cases hc
    exact ⟨rfl, rfl⟩
  | ctrl =>
    unfold writeCtrl at hc
    split at hc
    · exact nomatch hc
    · exact absurd (hc.symm.trans hidle) (by simp)
  | rngIn =>
    unfold pushRng at hold
    split at hold <;> exact absurd rfl hold
  | _ => exact absurd rfl hold

theorem readReg_inflight (r : Reg) (s : State) : (readReg r s).2.inflight = s.inflight := by
  rcases readReg_state r s with heq | heq | ⟨_, heq⟩ | heq | heq | heq | heq <;> rw [heq] <;> rfl

/-- Of all transfers only a full-word CMD write starts a command, and the word written is its word. -/
theorem busTransfer_starts {x : Transfer} {c : InFlight} (hidle : s.inflight = none)
    (hc : (busTransfer x s).inflight = some c) : x = .write 0x00C 0xF c.word := by
  cases x with
  | read a be =>
    have hkeep : (busTransfer (.read a be) s).inflight = s.inflight := by
      cases hserved : served a be with
      | false => rw [busTransfer_read_refused hserved]; rfl
      | true => rw [busTransfer_read hserved rfl]; exact readReg_inflight _ s
    simp [hkeep, hidle] at hc
  | write a be v =>
    cases hserved : served a be with
    | false =>
      rw [busTransfer_write_refused hserved] at hc
      simp [hidle] at hc
    | true =>
      rw [busTransfer_write hserved rfl] at hc
      obtain ⟨hreg, hword⟩ := (writeReg_effect (regAt a) v s).starts hidle hc
      have hbe : be = 0xF := by simp [served] at hserved; exact hserved.2
      rw [regAt_inj (a := 0x00C) (by decide) hreg, hbe, hword]

/-- The engine starts nothing by itself (R269). -/
theorem engineTurn_starts_nothing (hidle : s.inflight = none) (ht : engineTurn s = .next t) : t.inflight = none := by
  rw [engineTurn_of_idle hidle] at ht
  cases ht
  exact hidle

end

/-- Settles O8: engine turns and resets leave an idle engine idle, so the event was a transfer. -/
theorem onlyACmdWriteStartsACommand : Obligations.OnlyACmdWriteStartsACommand := by
  refine ⟨fun s t c ht hidle hc => ?_, fun s => read_register (r := .cmd) (by decide) s⟩
  rcases step_cases ht with ⟨_, hturn⟩ | ⟨q, rest, _, hturn⟩ | ⟨x, rest, hin, rfl⟩ | ⟨rest, _, rfl⟩ | ⟨rest, _, rfl⟩
  · simp [engineTurn_starts_nothing (s := { s with quota := none }) hidle hturn] at hc
  · simp [engineTurn_starts_nothing (s := { s with inputs := rest, quota := q }) hidle hturn] at hc
  · exact ⟨rest, busTransfer_starts (s := { s with inputs := rest }) hidle hc ▸ hin⟩
  · exact nomatch hc
  · exact nomatch hc

/-! ### How a command's turn ends once its checks have passed (R252, R253) -/

/-- What becomes of STATUS and of the command in flight when a command has had its effect: it completes with OK, one of
three commands with RETRY (R259), or SAMPLE goes on waiting (R201). -/
inductive TurnEnd (s : State) (i : Instr) (t : State) : Prop where
  | ok (h : CompletedWith .ok s t)
  | retry (hi : i = .hbuild ∨ i = .gauss ∨ i = .sample) (h : CompletedWith .retry s t)
  | waiting (hi : i = .sample) (hbusy : t.inflight ≠ none) (w : Bool) (h : t.status = { s.status with rngWait := w })

section
variable {s t u : State} {i : Instr}

theorem completedWith_complete (res : CmdResult) (h : u.status = s.status) : CompletedWith res s (complete res u) :=
  ⟨rfl, by rw [complete_status, h]; rfl⟩

/-- A draw for RESULT is OK or RETRY (R91, R253). -/
theorem turnEnd_completeDrawn (hi : i = .hbuild ∨ i = .gauss ∨ i = .sample) (h : u.status = s.status) :
    TurnEnd s i (completeDrawn u) := by
  unfold completeDrawn
  split
  · exact .retry hi (completedWith_complete .retry h)
  · exact .ok (completedWith_complete .ok h)

theorem hbuildEffect_turnEnd (s : State) : TurnEnd s .hbuild (hbuildEffect s) := by
  unfold hbuildEffect
  split
  · next rows retry _ =>
    cases retry with
    | true => exact .retry (.inl rfl) (completedWith_complete .retry rfl)
    | false => exact .ok (completedWith_complete .ok rfl)
  · exact turnEnd_completeDrawn (.inl rfl) (by simp)

theorem gaussUndefined_turnEnd (as : List Nat) (s : State) : TurnEnd s .gauss (gaussUndefined as s) :=
  turnEnd_completeDrawn (.inr (.inl rfl)) (by simp)

theorem gaussFinish_turnEnd (r : GaussEnd) (h : u.status = s.status) : TurnEnd s .gauss (gaussFinish r u) := by
  cases r with
  | reduced => exact .ok (completedWith_complete .ok h)
  | singular => exact .retry (.inr (.inl rfl)) (completedWith_complete .retry (by simpa using h))

theorem gaussEffect_turnEnd (s : State) : TurnEnd s .gauss (gaussEffect s) := by
  unfold gaussEffect
  split
  · exact gaussUndefined_turnEnd _ s
  · split
    · exact gaussFinish_turnEnd _ rfl
    · exact gaussUndefined_turnEnd _ s

theorem sampleEffect_turnEnd (s : State) : TurnEnd s .sample (sampleEffect s) := by
  unfold sampleEffect
  split
  · exact .ok (completedWith_complete .ok rfl)
  · exact .retry (.inr (.inr rfl)) (completedWith_complete .retry rfl)
  · exact .waiting rfl (by simp) _ (sampleHold_status _ _ _ s)

/-- How every command's effect ends. -/
theorem effect_turnEnd (i : Instr) (s : State) : TurnEnd s i (effect i s) := by
  cases i with
  | nop | fadd | fmul | fsqr | finv | fpow | ftr | fmov | fli | fst => exact .ok (completedWith_complete .ok rfl)
  | fld | peval => exact .ok (completedWith_complete .ok (setFOrDraw_status s _ _))
  | hbuild => exact hbuildEffect_turnEnd s
  | gauss => exact gaussEffect_turnEnd s
  | sample => exact sampleEffect_turnEnd s
  | pkext | synd | dsynd | bm | roots | check =>
    refine .ok (completedWith_complete .ok ?_)
    split <;> simp

/-- Everything a command does to STATUS and to what is in flight: a non-zero error code raised, or its effect's end. -/
theorem exec_turnEnd (ht : exec i s = .next t) :
    (∃ code, code ≠ .none ∧ t = s.refusedWith code) ∨ TurnEnd s i t := by
  rcases exec_cases ht with ⟨code, hcode, rfl⟩ | ⟨_, rfl⟩
  · have hne : code ≠ .none := fun h => firstError_ne s i (h ▸ hcode)
    refine .inl ⟨code, hne, ?_⟩
    simp [raise, State.refusedWith, Status.raised, hne]
  · exact .inr (effect_turnEnd i s)

theorem TurnEnd.result_ne_error (h : TurnEnd s i t) (hdone : t.inflight = none) : t.status.result ≠ .error := by
  cases h with
  | ok h | retry _ h =>
    obtain ⟨_, hst⟩ := h
    rw [hst]
    exact nofun
  | waiting _ hbusy => exact absurd hdone hbusy

/-- A command that ends in ERROR has been refused by its checks (R256). -/
theorem exec_eq_refusedWith (ht : exec i s = .next t) (hdone : t.inflight = none) (herr : t.status.result = .error) :
    t = s.refusedWith t.status.errCode ∧ t.status.errCode ≠ .none := by
  rcases exec_turnEnd ht with ⟨code, hne, rfl⟩ | hend
  · exact ⟨rfl, hne⟩
  · exact absurd herr (hend.result_ne_error hdone)

/-- A refusal takes back what acceptance put in flight, so against the idle state only STATUS differs (R256). -/
theorem refusedWith_accept (hidle : s.inflight = none) (w : BWord) (code : ErrCode) :
    (accept w s).refusedWith code = { s with status := ((accept w s).refusedWith code).status } := by
  simp [State.refusedWith, accept, hidle]

/-! ### Every step and every command answers a next state (R260) -/

theorem exec_answers (i : Instr) (s : State) : ∃ t, exec i s = .next t := by
  cases h : firstError s i with
  | some code => exact ⟨_, exec_of_error h⟩
  | none => exact ⟨_, exec_of_ok h⟩

theorem engineTurn_answers (s : State) : ∃ t, engineTurn s = .next t := by
  cases hc : s.inflight with
  | none => exact ⟨s, engineTurn_of_idle hc⟩
  | some c =>
    cases hd : decode c.word with
    | error e => exact ⟨_, engineTurn_of_illegal hc hd⟩
    | ok i => exact engineTurn_of_legal hc hd ▸ exec_answers i s

theorem step_answers (s : State) : ∃ t, step s = .next t := by
  cases h : s.inputs with
  | nil => exact step_of_noInput h ▸ engineTurn_answers _
  | cons e rest =>
    cases e with
    | engine q => exact step_of_engine h ▸ engineTurn_answers _
    | bus | hwReset | powerCycle => exact ⟨_, step_of_event h⟩

end

/-- Settles O9, by how a command's turn ends. -/
theorem everyTurnAnswersAndOnlySampleMayHold : Obligations.EveryTurnAnswersAndOnlySampleMayHold := by
  refine ⟨step_answers, fun i s => ?_⟩
  obtain ⟨t, ht⟩ := exec_answers i s
  refine ⟨t, ht, ?_⟩
  rcases exec_turnEnd ht with ⟨code, hne, rfl⟩ | ⟨hdone, hst⟩ | ⟨_, hdone, hst⟩ | ⟨hi, hbusy, w, hst⟩
  · simp [State.refusedWith, Status.raised, hne]
  · simp [hdone, hst, Status.completed]
  · simp [hdone, hst, Status.completed]
  · simp [hi, hbusy, hst]

/-- Settles O37: only the checks end a command in ERROR, and an idle engine has nothing in flight for a refusal to end. -/
theorem errorsArePrecise : Obligations.ErrorsArePrecise := by
  refine ⟨fun i s t ht hdone herr => exec_eq_refusedWith ht hdone herr, fun s t w hidle ht hdone herr => ?_⟩
  rcases engineTurn_cases ht with ⟨hbusy, _⟩ | ⟨_, _, _, _, rfl⟩ | ⟨_, i, _, _, hx⟩
  · exact nomatch hbusy
  · exact refusedWith_accept hidle w .illegal
  · obtain ⟨heq, _⟩ := exec_eq_refusedWith hx hdone herr
    rw [heq]
    exact refusedWith_accept hidle w _

/-- Settles O39: every other command that completes reports ERROR or OK. -/
theorem onlyKeyGenerationAndSamplingRetry : Obligations.OnlyKeyGenerationAndSamplingRetry := by
  intro i s t ht hdone hretry
  rcases exec_turnEnd ht with ⟨code, _, rfl⟩ | ⟨_, hst⟩ | ⟨hi, _⟩ | ⟨_, hbusy, _⟩
  · exact nomatch hretry
  · rw [hst] at hretry
    exact nomatch hretry
  · exact hi
  · exact absurd hdone hbusy

end Sys2Proof.Machine
end

section
/-! PROOFS. What a reset leaves of a command in flight (70_reset_and_hazards.md): a word is drawn exactly if it lies in memory
and in a region the command's rule lists as written (O57). -/

namespace Sys2Proof.Machine

/-! ### The words drawn when a command is abandoned (R283) -/

section
variable {s t : State} {c : InFlight} {i : Instr} {space : Space} {a : Nat}

/-- The words of a region cut to its memory are those of the region that the memory has. -/
theorem Region.clip_has (p : BuildParams) (r : Region) :
    (r.clip p).Has space a ↔ r.Has space a ∧ a < space.size p := by
  simp only [Region.Has, Region.clip]
  constructor
  · rintro ⟨rfl, hle, hlt⟩
    exact ⟨⟨rfl, hle, by omega⟩, by omega⟩
  · rintro ⟨⟨rfl, hle, hlt⟩, hin⟩
    exact ⟨rfl, hle, by omega⟩

theorem mem_regionAddrs {rs : List Region} : a ∈ regionAddrs space rs ↔ ∃ r ∈ rs, r.Has space a := by
  simp [regionAddrs, Region.mem_addrs, and_assoc]

theorem abandonedWrites_of_legal (hc : s.inflight = some c) (hi : decode c.word = .ok i) :
    s.abandonedWrites = (footprint s i).writes.map (Region.clip s.params) := by
  simp [State.abandonedWrites, hc, hi]

theorem mem_abandonedAddrs_iff (hc : s.inflight = some c) (hi : decode c.word = .ok i) :
    a ∈ regionAddrs space s.abandonedWrites ↔
      a < space.size s.params ∧ ∃ r ∈ (footprint s i).writes, r.Has space a := by
  rw [abandonedWrites_of_legal hc hi, mem_regionAddrs]
  constructor
  · rintro ⟨_, hmem, hhas⟩
    obtain ⟨r, hr, rfl⟩ := List.mem_map.mp hmem
    obtain ⟨hrhas, hin⟩ := (Region.clip_has s.params r).mp hhas
    exact ⟨hin, r, hr, hrhas⟩
  · rintro ⟨hin, r, hr, hrhas⟩
    exact ⟨_, List.mem_map_of_mem hr, (Region.clip_has s.params r).mpr ⟨hrhas, hin⟩⟩

theorem abandonCommand_fm_fills (s : State) :
    s.fm.Fills (· ∈ regionAddrs .fm s.abandonedWrites) (abandonCommand s).fm := by
  rw [abandonCommand, State.drawBm_fm]
  exact ⟨fun a ha => State.drawFm_read?_isSome _ s a (.inl ha), fun a ha => State.drawFm_read?_other _ s a ha⟩

theorem abandonCommand_bm_fills (s : State) :
    s.bm.Fills (· ∈ regionAddrs .bm s.abandonedWrites) (abandonCommand s).bm := by
  rw [abandonCommand, ← State.drawFm_bm (regionAddrs .fm s.abandonedWrites) s]
  exact ⟨fun a ha => State.drawBm_read?_isSome _ _ a (.inl ha), fun a ha => State.drawBm_read?_other _ _ a ha⟩

/-! ### Both resets (R281, R282) -/

/-- What the two resets share: the engine idle, STATUS at its reset value, the FIFO empty, and the memories of the abandoned
command. -/
structure ResetEffect (s t : State) : Prop where
  idle   : t.inflight = none
  status : t.status = Status.reset
  rng    : t.rng = []
  fm     : t.fm = (abandonCommand s).fm
  bm     : t.bm = (abandonCommand s).bm

theorem hardwareReset_resetEffect (s : State) : ResetEffect s (hardwareReset s) := ⟨rfl, rfl, rfl, rfl, rfl⟩

theorem softReset_resetEffect {v : BWord} (hv : v.getLsbD 2 = true) (s : State) :
    ResetEffect s (busTransfer (.write 0x004 0xF v) s) := by
  rw [write_ctrl_of_reset hv]
  exact ⟨rfl, rfl, rfl, rfl, rfl⟩

/-- With DONE clear the line is low, whether or not IRQ_EN outlives the reset (R261). -/
theorem ResetEffect.irq (h : ResetEffect s t) : t.irq = false := by
  rw [State.irq, h.status]
  exact Bool.and_false _

end

/-- Settles O57: both resets leave the memories of the abandoned command, whose drawn words are those of its written
regions. -/
theorem resetAbandonsTheCommandInFlight : Obligations.ResetAbandonsTheCommandInFlight := by
  intro s t c i v hc hi hv ht
  have heff : ResetEffect s t := by
    rcases ht with rfl | rfl
    · exact hardwareReset_resetEffect s
    · exact softReset_resetEffect hv s
  have hfm := abandonCommand_fm_fills s
  have hbm := abandonCommand_bm_fills s
  rw [← heff.fm] at hfm
  rw [← heff.bm] at hbm
  have hnot : ∀ {space : Space} {a : Nat}, (∀ r ∈ (footprint s i).writes, ¬ r.Has space a) →
      a ∉ regionAddrs space s.abandonedWrites := fun hnone ha => by
    obtain ⟨_, r, hr, hhas⟩ := (mem_abandonedAddrs_iff hc hi).mp ha
    exact hnone r hr hhas
  exact ⟨heff.idle, heff.status, heff.irq, heff.rng, fun a =>
    ⟨fun hin hw => hfm.filled a ((mem_abandonedAddrs_iff hc hi).mpr ⟨hin, hw⟩), fun hw => hfm.frame a (hnot hw),
      fun hin hw => hbm.filled a ((mem_abandonedAddrs_iff hc hi).mpr ⟨hin, hw⟩), fun hw => hbm.frame a (hnot hw)⟩⟩

end Sys2Proof.Machine
end
